-- ==== Sys2Proof/Word.lean ====
section
/-! DEFINITION. The engine's word types: bytes, command words, single bits (00_scope.md R10). All values are
unsigned. -/

namespace Sys2Proof

/-- A byte, bit 0 the least significant (R10). -/
abbrev Byte := BitVec 8

/-- A command word `cmd[23:0]` (30_encoding.md R90). -/
abbrev Word24 := BitVec 24

/-- One bit: a line level, a sampled or written data bit, a one-bit register. `true` is 1. -/
abbrev Bit := Bool

/-- `zext_8` of one bit (R10). -/
def bitByte (b : Bit) : Byte := if b then 1 else 0

@[simp] theorem bitByte_true : bitByte true = 1 := rfl
@[simp] theorem bitByte_false : bitByte false = 0 := rfl

end Sys2Proof
end

