-- ==== Sys2Proof/Syntax.lean ====
section
/-! DEFINITION. The command set: one constructor per row of spec/opcode_table.json (30_encoding.md R95), with the
operands of R96. A field that the command's format ignores (R99) is no operand. -/

namespace Sys2Proof

/-- A command of the engine, in the order of R95. -/
inductive Instr where
  | owDetectPresence
  | owWriteBit (value : Bit)
  | owReadBit
  | owWriteByte (byte : Byte)
  | owReadByte
  | owIsBusy
  | owReadRom
  | owMatchRom
  | owSkipRom
  | owAlarmSearch
  | owSearchRom
  | twEnable
  | twDisable
  | twIsEnabled
  | twOpen (address : BitVec 7)
  | twClose
  | twWriteByte (data : Byte)
  | twWriteStr (n : Byte)
  | twReadCh (reg : Byte)
  | twReadStr (reg n : Byte)
  deriving DecidableEq, Repr

end Sys2Proof
end

