-- ==== Sys2Proof/WellFormed.lean ====
section
/-! DEFINITION. The constraint R92 and R97 put on a command's operands beyond their widths: the count of
`tw.read_str` is not 0. The constraints on `arg[7:1]` of `ow.write_bit` and `arg[7]` of `tw.open` are the widths of
their operands; the decoder checks them on the word. -/

namespace Sys2Proof

namespace Instr

/-- R92, R98: `tw.read_str` needs `n` from 1 to 255; every other operand is legal at each of its values. -/
def wellFormed : Instr → Bool
  | owDetectPresence => true
  | owWriteBit _ => true
  | owReadBit => true
  | owWriteByte _ => true
  | owReadByte => true
  | owIsBusy => true
  | owReadRom => true
  | owMatchRom => true
  | owSkipRom => true
  | owAlarmSearch => true
  | owSearchRom => true
  | twEnable => true
  | twDisable => true
  | twIsEnabled => true
  | twOpen _ => true
  | twClose => true
  | twWriteByte _ => true
  | twWriteStr _ => true
  | twReadCh _ => true
  | twReadStr _ n => n != 0

/-- The command's operands meet its format's constraint. -/
abbrev WellFormed (i : Instr) : Prop := i.wellFormed = true

end Instr

end Sys2Proof
end

