-- ==== Sys2Proof/Decode.lean ====
section
/-! DEFINITION. The decoder of command words, total and rejecting by name, and the encoder beside it (30_encoding.md
R90 to R100, spec/opcode_table.json). -/

namespace Sys2Proof

/-- Why a word is illegal (R97). -/
inductive IllegalWord where
  /-- `rsv = cmd[7:5]` is not 0. -/
  | reservedField
  /-- Opcode 0x0B to 0x0F or 0x19 to 0x1F. -/
  | reservedOpcode
  /-- Format `B` with `arg[7:1]` not 0. -/
  | bitOperand
  /-- Format `AD` with `arg[7]` not 0. -/
  | addressOperand
  /-- `tw.read_str` with `n` = 0. -/
  | zeroCount
  deriving DecidableEq, Repr

/-- What the decoder answers. -/
inductive Decoded where
  | instr (i : Instr)
  | illegal (r : IllegalWord)
  deriving DecidableEq, Repr

/-! ### Fields (R91) -/

/-- `cmd[4:0]`, the opcode: unit and operation number together. -/
def fieldOpcode (w : Word24) : BitVec 5 := w.extractLsb' 0 5
/-- `cmd[7:5]`. -/
def fieldRsv (w : Word24) : BitVec 3 := w.extractLsb' 5 3
/-- `cmd[15:8]`. -/
def fieldArg (w : Word24) : Byte := w.extractLsb' 8 8
/-- `cmd[23:16]`. -/
def fieldN (w : Word24) : Byte := w.extractLsb' 16 8

/-- Format `B`: `arg[0]` is the operand, `arg[7:1]` must be 0. -/
def decodeBit (arg : Byte) : Decoded :=
  if arg.extractLsb' 1 7 = 0 then .instr (.owWriteBit (arg.getLsbD 0)) else .illegal .bitOperand

/-- Format `AD`: `arg[6:0]` is the operand, `arg[7]` must be 0. -/
def decodeAddress (arg : Byte) : Decoded :=
  if arg.getLsbD 7 then .illegal .addressOperand else .instr (.twOpen (arg.extractLsb' 0 7))

/-- `tw.read_str`: `n` must not be 0. -/
def decodeReadStr (arg n : Byte) : Decoded :=
  if n = 0 then .illegal .zeroCount else .instr (.twReadStr arg n)

/-- R95, R100: look the opcode up and apply the format's constraint. -/
def decodeOpcode (op : Nat) (arg n : Byte) : Decoded :=
  match op with
  | 0x00 => .instr .owDetectPresence
  | 0x01 => decodeBit arg
  | 0x02 => .instr .owReadBit
  | 0x03 => .instr (.owWriteByte arg)
  | 0x04 => .instr .owReadByte
  | 0x05 => .instr .owIsBusy
  | 0x06 => .instr .owReadRom
  | 0x07 => .instr .owMatchRom
  | 0x08 => .instr .owSkipRom
  | 0x09 => .instr .owAlarmSearch
  | 0x0A => .instr .owSearchRom
  | 0x10 => .instr .twEnable
  | 0x11 => .instr .twDisable
  | 0x12 => .instr .twIsEnabled
  | 0x13 => decodeAddress arg
  | 0x14 => .instr .twClose
  | 0x15 => .instr (.twWriteByte arg)
  | 0x16 => .instr (.twWriteStr n)
  | 0x17 => .instr (.twReadCh arg)
  | 0x18 => decodeReadStr arg n
  | _ => .illegal .reservedOpcode

/-- The decoder: every 24-bit word gives a command or a named reason (R97, R100). -/
def decode (w : Word24) : Decoded :=
  if fieldRsv w = 0 then decodeOpcode (fieldOpcode w).toNat (fieldArg w) (fieldN w) else .illegal .reservedField

/-! ### The encoder -/

/-- A word from its fields, `rsv` 0 (R91). -/
def wordOf (op : BitVec 5) (arg n : Byte) : Word24 := n ++ arg ++ (0#3 ++ op)

/-- The opcode column of R95. -/
def opcodeOf : Instr → BitVec 5
  | .owDetectPresence => 0x00
  | .owWriteBit _ => 0x01
  | .owReadBit => 0x02
  | .owWriteByte _ => 0x03
  | .owReadByte => 0x04
  | .owIsBusy => 0x05
  | .owReadRom => 0x06
  | .owMatchRom => 0x07
  | .owSkipRom => 0x08
  | .owAlarmSearch => 0x09
  | .owSearchRom => 0x0A
  | .twEnable => 0x10
  | .twDisable => 0x11
  | .twIsEnabled => 0x12
  | .twOpen _ => 0x13
  | .twClose => 0x14
  | .twWriteByte _ => 0x15
  | .twWriteStr _ => 0x16
  | .twReadCh _ => 0x17
  | .twReadStr _ _ => 0x18

/-- `arg` as the format lays it out, 0 where the format ignores it (R92, R99). -/
def argOf : Instr → Byte
  | .owWriteBit v => bitByte v
  | .owWriteByte b => b
  | .twOpen a => a.zeroExtend 8
  | .twWriteByte b => b
  | .twReadCh r => r
  | .twReadStr r _ => r
  | .owDetectPresence | .owReadBit | .owReadByte | .owIsBusy | .owReadRom | .owMatchRom | .owSkipRom
  | .owAlarmSearch | .owSearchRom | .twEnable | .twDisable | .twIsEnabled | .twClose | .twWriteStr _ => 0

/-- `n` as the format lays it out, 0 where the format ignores it (R92, R99). -/
def countOf : Instr → Byte
  | .twWriteStr n => n
  | .twReadStr _ n => n
  | .owDetectPresence | .owWriteBit _ | .owReadBit | .owWriteByte _ | .owReadByte | .owIsBusy | .owReadRom
  | .owMatchRom | .owSkipRom | .owAlarmSearch | .owSearchRom | .twEnable | .twDisable | .twIsEnabled | .twOpen _
  | .twClose | .twWriteByte _ | .twReadCh _ => 0

/-- The canonical word of a command: its fields, ignored fields 0. -/
def encode (i : Instr) : Word24 := wordOf (opcodeOf i) (argOf i) (countOf i)

/-- The bits of the word that the decoder reads for this command: `cmd[7:0]` and the fields of its format (R92),
ignored fields left out (R99). -/
def usedBits : Instr → Word24
  | .owWriteBit _ | .owWriteByte _ | .twOpen _ | .twWriteByte _ | .twReadCh _ => 0x00FFFF
  | .twWriteStr _ => 0xFF00FF
  | .twReadStr _ _ => 0xFFFFFF
  | .owDetectPresence | .owReadBit | .owReadByte | .owIsBusy | .owReadRom | .owMatchRom | .owSkipRom
  | .owAlarmSearch | .owSearchRom | .twEnable | .twDisable | .twIsEnabled | .twClose => 0x0000FF

/-- The command the decoder reads from a table word of `nbits` bits (bit 0 the least significant bit of the command
word, as R91 and the table number them). -/
def decodeTableWord (nbits w : Nat) : Option Instr :=
  if w % 2 ^ nbits < 2 ^ 24 then
    match decode (BitVec.ofNat 24 (w % 2 ^ nbits)) with
    | .instr i => some i
    | .illegal _ => none
  else none

end Sys2Proof
end

