-- ==== Sys2Proof/Config.lean ====
section
/-! DEFINITION. The engine's parameters (00_scope.md R8) and the free values: what the implementation fixes, what a
model must take as an argument, and the constants nothing in Lean can evaluate. -/

namespace Sys2Proof

/-! ### Constants of this hardware (R8, origin "source", "derived" or "decision") -/

namespace Config

/-- Reset pulse, microseconds low. -/
def tRstLow : Nat := 480
/-- Release of the reset pulse to the presence sample. -/
def tPdSample : Nat := 60
/-- Recovery after the presence sample. -/
def tPdRecover : Nat := 420
/-- Write-1 slot, time low. -/
def tW1Low : Nat := 1
/-- Write-1 slot, whole slot. -/
def tW1Slot : Nat := 65
/-- Write-0 slot, time low. -/
def tW0Low : Nat := 60
/-- Write-0 slot, time released after the low time. -/
def tW0Rec : Nat := 5
/-- Read slot, time low. -/
def tRdLow : Nat := 1
/-- Read slot, sample instant counted from the falling edge. -/
def tRdSample : Nat := 14
/-- Read slot, padding after the sample. -/
def tRdPad : Nat := 45
/-- Period of the time base, microseconds. -/
def tick : Nat := 1
/-- Constant of the right-shifting CRC-8 (42_ow_rom_alarm.md R170, 90_conflicts.md C1). -/
def crcXor : Byte := 0x8C
/-- CRC register before the first byte (R171). -/
def crcInit : Byte := 0x00
/-- Bytes in the host buffer (20_memory.md R60). -/
def hbufSize : Nat := 256

end Config

/-! ### Parameters a model takes as arguments (R8, origin "GK" or "OPEN") -/

/-- Direction of a two-wire address byte (30_encoding.md R112). -/
inductive Direction where
  | write
  | read
  deriving DecidableEq, Repr

/-- The seven status codes the sequencer expects, by name (30_encoding.md R113). -/
inductive StatusName where
  | start
  | repStart
  | slawAck
  | txDataAck
  | slarAck
  | rxDataAck
  | rxDataNack
  deriving DecidableEq, Repr

/-- The parameters of R8 that a model must take as arguments rather than constants. A value of this type stands in
`Machine.State.par` and no step writes it, so a statement about every state is a statement about every value of every
parameter (log 7). -/
structure Params where
  cmdReadRom : Byte
  cmdMatchRom : Byte
  cmdSkipRom : Byte
  cmdAlarmSearch : Byte
  /-- The bit `ow.alarm_search` writes after responses (0,0): OPEN, 92_eei_decisions.md D11. -/
  alarmDir00 : Bit
  stStart : Byte
  stRepStart : Byte
  stSlawAck : Byte
  stTxDataAck : Byte
  stSlarAck : Byte
  stRxDataAck : Byte
  stRxDataNack : Byte
  dirWrite : Bit
  dirRead : Bit
  /-- Bound on a flag wait, `none` = unbounded (43_tw_control_biu.md R209, log 11). -/
  twTimeout : Option Nat
  deriving DecidableEq, Repr

namespace Params

/-- The value column of R8. The command bytes, status codes and direction bits are PRESUMED there (general knowledge
G1 to G3), see log 7. -/
def spec : Params where
  cmdReadRom := 0x33
  cmdMatchRom := 0x55
  cmdSkipRom := 0xCC
  cmdAlarmSearch := 0xEC
  alarmDir00 := true
  stStart := 0x08
  stRepStart := 0x10
  stSlawAck := 0x18
  stTxDataAck := 0x28
  stSlarAck := 0x40
  stRxDataAck := 0x50
  stRxDataNack := 0x58
  dirWrite := false
  dirRead := true
  twTimeout := none

/-- The code a status name stands for (R113). -/
def status (p : Params) : StatusName → Byte
  | .start => p.stStart
  | .repStart => p.stRepStart
  | .slawAck => p.stSlawAck
  | .txDataAck => p.stTxDataAck
  | .slarAck => p.stSlarAck
  | .rxDataAck => p.stRxDataAck
  | .rxDataNack => p.stRxDataNack

/-- The bit a direction stands for (R112). -/
def dirBit (p : Params) : Direction → Bit
  | .write => p.dirWrite
  | .read => p.dirRead

/-- R9: the seven status codes are pairwise distinct, and so are the four single-wire command bytes. -/
abbrev Distinct (p : Params) : Prop :=
  [p.stStart, p.stRepStart, p.stSlawAck, p.stTxDataAck, p.stSlarAck, p.stRxDataAck, p.stRxDataNack].Nodup ∧
    [p.cmdReadRom, p.cmdMatchRom, p.cmdSkipRom, p.cmdAlarmSearch].Nodup

end Params

/-! ### What the environment may answer, and the free values -/

/-- The draw of one two-wire phase at one poll of the completion flag (20_memory.md R68): it is over, with a status
and (for a receive) a data byte; it is not over yet; or it never will be. -/
inductive PhaseDraw where
  | done (status data : Byte)
  | later
  | never
  deriving DecidableEq, Repr, Inhabited

namespace Config

/-- FREE VALUE: the level the slaves leave the single-wire line at, at the sample with this number, where the script
of `State.ow` has run out (20_memory.md R66, log 1). -/
opaque freeLevel : Nat → Bit

/-- FREE VALUE: the draw of a two-wire phase where the script of `State.tw` has run out (R68, log 1). -/
opaque freePhase : Nat → PhaseDraw

/-- FREE VALUE: what a read of a byte of hbuf that nothing has written gives (93_implementation_defined.md U2,
log 4). -/
opaque freeByte : Nat → Byte

/-- FREE VALUE: the two-wire serial clock rate, OPEN in R8; no rule of the engine uses it (log 20). -/
opaque twSclHz : Nat

end Config

end Sys2Proof
end

