-- ==== Sys2Proof/Machine/State.lean ====
section
/-! DEFINITION. The engine's state as plain data (10_state.md), the reasons a step can stop, and the state after
reset (R46, 70_reset_and_hazards.md R301). Fields marked "model's own" hold no register of the spec: they hold what
the outside world will do and what has been seen on the two buses. -/

namespace Sys2Proof.Machine

/-! ### Results, transaction state, request latch -/

/-- `res_reason` (60_exceptions.md R260). Code 7 is reserved and never written: it has no constructor. -/
inductive Reason where
  | none
  | absence
  | protocolMismatch
  | dataIntegrity
  | unsupported
  | timeout
  | illegal
  deriving DecidableEq, Repr

/-- The three bits of `res_reason` (R260). -/
def Reason.code : Reason → BitVec 3
  | .none => 0
  | .absence => 1
  | .protocolMismatch => 2
  | .dataIntegrity => 3
  | .unsupported => 4
  | .timeout => 5
  | .illegal => 6

/-- `tw_state` (10_state.md R34). -/
inductive TwState where
  | idle
  | openW
  | openR
  | failed
  deriving DecidableEq, Repr

/-- The two bits of `tw_state` (R34); no rule depends on them. -/
def TwState.code : TwState → BitVec 2
  | .idle => 0
  | .openW => 1
  | .openR => 2
  | .failed => 3

/-- `tw_req`, the phase the BIU has been asked for and has not finished (R41). -/
inductive TwReq where
  | none
  | start
  | send
  | recvAck
  | recvNack
  | stop
  deriving DecidableEq, Repr

/-! ### The sequencer's micro-operations for the two-wire commands -/

/-- Where the byte of a send phase comes from, evaluated when the request is made (20_memory.md R79 (d)). -/
inductive SendByte where
  /-- A byte of the command word. -/
  | byte (b : Byte)
  /-- `MemRead(i, 1)`. -/
  | hbuf (i : Byte)
  /-- An address byte of the command's own address operand (30_encoding.md R112). -/
  | target (a : BitVec 7) (d : Direction)
  /-- An address byte of the retained `tw_addr` (44_tw_transactions.md R239). -/
  | retained (d : Direction)
  deriving DecidableEq, Repr

/-- The four requests to the BIU (43_tw_control_biu.md R205 to R208). -/
inductive Request where
  | start
  | send (b : SendByte)
  | recv (ack : Bit)
  | stop
  deriving DecidableEq, Repr

/-- One line of a two-wire command's pseudocode (00_scope.md R11), loops unrolled. -/
inductive TwOp where
  /-- `tw_addr <- a`. -/
  | setAddr (a : BitVec 7)
  /-- `BiuStart()`, `BiuSend(b)`, `BiuRecv(ack)`, `BiuStop()`. -/
  | request (r : Request)
  /-- `WaitFlag()`. -/
  | wait
  /-- `Check(code)`. -/
  | check (c : StatusName)
  /-- `tw_state <- t`. -/
  | setState (t : TwState)
  /-- `tw_idx <- i`. -/
  | setIdx (i : Byte)
  /-- `MemWrite(i, 1, tw_data)`. -/
  | store (i : Byte)
  /-- `return v`. -/
  | ret (v : Byte)
  deriving DecidableEq, Repr

/-- `seq` (10_state.md R24): idle, or holding inside the command in flight with the rest of its pseudocode, the
`WaitFlag` it holds at first (log 5). -/
inductive Seq where
  | idle
  | hold (rest : List TwOp)
  deriving DecidableEq, Repr

/-! ### What is seen on the buses (model's own, log 15) -/

/-- What the engine does to the single-wire line, or reads from it. -/
inductive LineAct where
  | low
  | release
  | sample (level : Bit)
  deriving DecidableEq, Repr

/-- A line action and the microsecond at which it happens. -/
structure LineMark where
  time : Nat
  act : LineAct
  deriving DecidableEq, Repr

/-- The slot-level events of unit OW (20_memory.md R67). -/
inductive OwEvent where
  /-- `RESET(p)`. -/
  | reset (p : Bit)
  /-- `W0`, `W1`. -/
  | wr (v : Bit)
  /-- `R(s)`. -/
  | rd (s : Bit)
  deriving DecidableEq, Repr

/-- The phase-level events of unit TW (20_memory.md R69). -/
inductive TwEvent where
  /-- `START(st)`. -/
  | start (st : Byte)
  /-- `TX(b, st)`. -/
  | tx (b st : Byte)
  /-- `RX(ack, d, st)`. -/
  | rx (ack : Bit) (d st : Byte)
  /-- `STOP`. -/
  | stop
  deriving DecidableEq, Repr

/-- The single-wire line as the engine meets it (model's own). -/
structure OwBus where
  /-- The levels the slaves will leave the released line at, one per coming sample (R66). -/
  levels : List Bit
  /-- Free levels drawn so far. -/
  drawn : Nat
  /-- Microseconds of slot time so far (40_ow_bit_timing.md R133). -/
  clock : Nat
  /-- The waveform so far, oldest first. -/
  marks : List LineMark
  /-- The slot-level trace so far, oldest first. -/
  trace : List OwEvent
  deriving DecidableEq, Repr

/-- The two-wire bus as the BIU meets it (model's own). -/
structure TwBus where
  /-- The draws of the coming phases, one per poll (R68). -/
  phases : List PhaseDraw
  /-- Free draws so far. -/
  drawn : Nat
  /-- Polls of the current flag wait that found the flag clear (R209, log 11). -/
  waited : Nat
  /-- The pending phase has been drawn never to complete (R68, log 8). -/
  dead : Bool
  /-- Stop phases requested and not yet on the bus (R208, log 10). -/
  stops : Nat
  /-- The phase-level trace so far, oldest first. -/
  trace : List TwEvent
  deriving DecidableEq, Repr

/-! ### The two units -/

/-- The registers of unit OW (10_state.md R25 to R31) and its line. -/
structure OwUnit where
  /-- `ow_drive`. -/
  drive : Bit
  /-- `ow_mask`. -/
  mask : Byte
  /-- `ow_shift`. -/
  shift : Byte
  /-- `ow_scratch[0..7]`. -/
  scratch : Vector Byte 8
  /-- `ow_crc`. -/
  crc : Byte
  /-- `ow_b0`. -/
  b0 : Bit
  /-- `ow_b1`. -/
  b1 : Bit
  /-- `ow_timer`. -/
  timer : BitVec 10
  bus : OwBus
  deriving DecidableEq, Repr

/-- The registers of unit TW (10_state.md R32 to R41) and its bus. -/
structure TwUnit where
  /-- `tw_enabled`. -/
  enabled : Bit
  /-- `tw_pullup`. -/
  pullup : Bit
  /-- `tw_state`. -/
  state : TwState
  /-- `tw_addr`. -/
  addr : BitVec 7
  /-- `tw_data`. -/
  data : Byte
  /-- `tw_status`. -/
  status : Byte
  /-- `tw_flag`. -/
  flag : Bit
  /-- `tw_owned`. -/
  owned : Bit
  /-- `tw_idx`. -/
  idx : Byte
  /-- `tw_req`. -/
  req : TwReq
  bus : TwBus
  deriving DecidableEq, Repr

/-! ### The host's side and the whole state -/

/-- What the outside world puts on the engine's input ports in one step (10_state.md R48, log 6). -/
inductive Input where
  /-- Nothing is offered; the BIU gets time. -/
  | idle
  /-- `cmd_valid` with this command word. -/
  | offer (w : Word24)
  /-- The host writes `hbuf[a]`. -/
  | hostWrite (a : Byte) (v : Byte)
  /-- The host reads `hbuf[a]`. -/
  | hostRead (a : Byte)
  /-- `rst`. -/
  | reset
  /-- `cmd_valid` with this command word, and `rst` once the command has done `k` things on its bus (log 16). -/
  | offerThenReset (w : Word24) (k : Nat)
  deriving DecidableEq, Repr

/-- The machine's state: everything the spec gives the engine, its parameters, and the outside world as data. -/
structure State where
  /-- `cmd` (R21). -/
  cmd : Word24
  /-- `busy` (R21). -/
  busy : Bit
  /-- `res_val` (R22). -/
  resVal : Byte
  /-- `res_reason` (R22). -/
  resReason : Reason
  /-- `hbuf` (R23): the bytes something has written since reset, addresses strictly rising. -/
  hbuf : List Host.Cell
  /-- `seq` (R24). -/
  seq : Seq
  /-- Unit OW. -/
  ow : OwUnit
  /-- Unit TW. -/
  tw : TwUnit
  /-- The parameters (00_scope.md R8); no step writes them (log 7). -/
  par : Params
  /-- Model's own: the port inputs of the coming steps. -/
  host : List Input
  /-- Model's own: the byte last presented on port `hb_rdata` (R48). -/
  hbRdata : Byte
  /-- Model's own: free bytes drawn so far for unwritten bytes of hbuf (log 4). -/
  fresh : Nat
  deriving DecidableEq, Repr

/-! ### Faults and refusals -/

/-- Why the machine stops. -/
inductive Fault where
  /-- Raised by `step` alone: the sequencer holds at a `WaitFlag`, the phase never completes, the wait is unbounded
  and the outside world has no input left, so there is no next thing that could happen (60_exceptions.md R274,
  93_implementation_defined.md U20 "stuck"). Safe: the machine stops where the hardware spins for ever (log 8). -/
  | hung
  deriving DecidableEq, Repr

/-- Why a command or a host access is given no meaning. -/
inductive Refusal where
  /-- Raised by an arm of `exec` whose instruction has no meaning yet; no arm does. Safe. -/
  | notModelled (mnemonic : String)
  /-- Raised by `tw.open`, `tw.close`, `tw.write_byte`, `tw.write_str`, `tw.read_ch`, `tw.read_str` while
  `tw_enabled` is 0 (44_tw_transactions.md R231, U6). Safe: the spec says a model must refuse. -/
  | twDisabled
  /-- Raised by the same commands, `tw.close` apart, outside the "from" state of R230 (R231, U5). Safe: the spec says
  a model must refuse. -/
  | twWrongState
  /-- Raised by `tw.disable` while a transaction is open or a phase is pending (43_tw_control_biu.md R202, U7). Safe:
  the spec says a model refuses. -/
  | twDisableInTransaction
  /-- Raised by `step` for a host access to hbuf while `busy` is 1 (70_reset_and_hazards.md R317, U16). Safe: the
  spec says a model refuses. -/
  | hbufWhileBusy
  deriving DecidableEq, Repr

/-! ### Reset -/

/-- Unit OW after reset (R46). `mask`, `shift`, `scratch`, `crc`, `b0`, `b1` are DESIGN CHOICE zeros (log 2). -/
def OwUnit.reset : OwUnit where
  drive := false
  mask := 0
  shift := 0
  scratch := Vector.replicate 8 0
  crc := 0
  b0 := false
  b1 := false
  timer := 0
  bus := { levels := [], drawn := 0, clock := 0, marks := [], trace := [] }

/-- Unit TW after reset (R46). `addr`, `data`, `status`, `idx` are DESIGN CHOICE zeros (log 2). -/
def TwUnit.reset : TwUnit where
  enabled := false
  pullup := false
  state := .idle
  addr := 0
  data := 0
  status := 0
  flag := false
  owned := false
  idx := 0
  req := .none
  bus := { phases := [], drawn := 0, waited := 0, dead := false, stops := 0, trace := [] }

/-- The machine right after reset (R46, R301); `cmd` is a DESIGN CHOICE zero (log 2). -/
def State.reset : State where
  cmd := 0
  busy := false
  resVal := 0
  resReason := .none
  hbuf := []
  seq := .idle
  ow := OwUnit.reset
  tw := TwUnit.reset
  par := Params.spec
  host := []
  hbRdata := 0
  fresh := 0

end Sys2Proof.Machine
end

