-- ==== Sys2Proof/Machine/Ops.lean ====
section
/-! DEFINITION. The named operations the meanings are made of: the host buffer, how a command ends (`finish`,
`raise`), the single-wire line, and the BIU. -/

namespace Sys2Proof.Machine

/-! ### The host buffer (20_memory.md R60)

A list of (address, byte) pairs, addresses strictly rising and below 256. An unlisted address has no value (log 4). -/

namespace Memory

/-- The addresses are strictly rising from `lo` on and below `HBUF_SIZE`. -/
def wfFrom : Nat → List Host.Cell → Bool
  | _, [] => true
  | lo, (a, _) :: m => decide (lo ≤ a) && decide (a < Config.hbufSize) && wfFrom (a + 1) m

/-- The canonical form. -/
def wf (m : List Host.Cell) : Bool := wfFrom 0 m

/-- What an unlisted address reads as: no value (10_state.md R23). -/
def unlisted : Option Byte := none

/-- The byte at an address, if something has written it. -/
def read : List Host.Cell → Nat → Option Byte
  | [], _ => unlisted
  | (a, v) :: m, i => if i = a then some v else read m i

/-- `hbuf[i] <- v`. -/
def write : List Host.Cell → Nat → Byte → List Host.Cell
  | [], i, v => [(i, v)]
  | (a, w) :: m, i, v =>
    if i < a then (i, v) :: (a, w) :: m
    else if i = a then (i, v) :: m
    else (a, w) :: write m i v

end Memory

/-- `hbuf[i]`, if something has written it. -/
def State.hbufByte (s : State) (i : Byte) : Option Byte := Memory.read s.hbuf i.toNat

/-- `MemRead(i, 1)`: the byte, a free one where nothing has written it (R304, U2, log 4). -/
def memRead (i : Byte) (s : State) : Byte × State :=
  ((s.hbufByte i).getD (Config.freeByte s.fresh),
    { s with fresh := if (s.hbufByte i).isSome then s.fresh else s.fresh + 1 })

/-- `MemWrite(i, 1, v)`. -/
def memWrite (i : Byte) (v : Byte) (s : State) : State := { s with hbuf := Memory.write s.hbuf i.toNat v }

/-- `MemWrite(i, 1, v)` for a list of bytes from index `i` on, in order. -/
def memWriteFrom : Byte → List Byte → State → State
  | _, [], s => s
  | i, v :: vs, s => memWriteFrom (i + 1) vs (memWrite i v s)

/-! ### The start and the end of a command (10_state.md R21, R22, R24; 00_scope.md R11) -/

/-- Acceptance of a command word. -/
def accept (w : Word24) (s : State) : State := { s with busy := true, cmd := w }

/-- `return v`: the result is written, `busy` is cleared, `seq` is idle. -/
def finish (v : Byte) (s : State) : State :=
  { s with resVal := v, resReason := .none, busy := false, seq := .idle }

/-- `raise r`, the analogue of taking an exception (60_exceptions.md R266): the command ends with `res_val` 0 and
this reason; nothing is saved, nothing is undone and control goes nowhere. There is no return from it: the host's
next command is the next thing that happens (R270). -/
def raise (r : Reason) (s : State) : State :=
  { s with resVal := 0, resReason := r, busy := false, seq := .idle }

/-- The sequencer holds inside the command in flight, with this much of its pseudocode left (R24, R209). -/
def hold (rest : List TwOp) (s : State) : State := { s with busy := true, seq := .hold rest }

/-! ### The single-wire line (40_ow_bit_timing.md R130 to R133) -/

/-- The wired-AND line (20_memory.md R64): low when the engine drives it, else as the slaves leave it. -/
def lineLevel (drive slaves : Bit) : Bit := !drive && slaves

/-- The environment's next level: from the script, else a free value (R66, log 1). -/
def OwBus.draw (b : OwBus) : Bit × OwBus :=
  match b.levels with
  | l :: ls => (l, { b with levels := ls })
  | [] => (Config.freeLevel b.drawn, { b with drawn := b.drawn + 1 })

/-- Note a line action at the present time (log 15). -/
def OwBus.mark (a : LineAct) (b : OwBus) : OwBus := { b with marks := b.marks ++ [⟨b.clock, a⟩] }

/-- Note a slot-level event (R67, log 15). -/
def OwUnit.emit (e : OwEvent) (u : OwUnit) : OwUnit := { u with bus := { u.bus with trace := u.bus.trace ++ [e] } }

/-- `OwDriveLow()` (R130). -/
def owDriveLow (u : OwUnit) : OwUnit := { u with drive := true, bus := u.bus.mark .low }

/-- `OwRelease()` (R131). -/
def owRelease (u : OwUnit) : OwUnit := { u with drive := false, bus := u.bus.mark .release }

/-- `OwSample()` (R132): the line level at this instant. -/
def owSample (u : OwUnit) : Bit × OwUnit :=
  (lineLevel u.drive u.bus.draw.1,
    { u with bus := u.bus.draw.2.mark (.sample (lineLevel u.drive u.bus.draw.1)) })

/-- One tick of the time base: `ow_timer` counts down by one (R133). -/
def owTick (u : OwUnit) : OwUnit :=
  { u with timer := u.timer - 1, bus := { u.bus with clock := u.bus.clock + Config.tick } }

/-- `ow_timer` counts down to 0, one count per tick; the first argument bounds the count. -/
def owCountDown : Nat → OwUnit → OwUnit
  | 0, u => u
  | k + 1, u => if u.timer = 0 then u else owCountDown k (owTick u)

/-- `DelayUs(t)` (R133), in closed form: `t` microseconds pass and `ow_timer` has counted down to 0. That loading
the timer and counting it down gives this for every delay it can hold is a statement of the package (log 12). -/
def delayUs (t : Nat) (u : OwUnit) : OwUnit :=
  { u with timer := 0, bus := { u.bus with clock := u.bus.clock + t } }

/-- `DelayUs(t)` word for word: `ow_timer <- t / TICK`, then the count (R133). -/
def delayByTimer (t : Nat) (u : OwUnit) : OwUnit :=
  owCountDown (t / Config.tick) { u with timer := BitVec.ofNat 10 (t / Config.tick) }

/-! ### The bus interface unit (43_tw_control_biu.md R204 to R208) -/

/-- The latch value of a receive request (R207). -/
def recvReq (ack : Bit) : TwReq := if ack then .recvAck else .recvNack

/-- A phase that ends with the flag is requested: no poll of it has been made, and nothing has been drawn for it. What
an earlier phase left there, abandoned after a timeout, goes with that phase (log 11). -/
def TwBus.newPhase (b : TwBus) : TwBus := { b with waited := 0, dead := false }

/-- `BiuStart()` (R205). -/
def biuStart (u : TwUnit) : TwUnit := { u with flag := false, req := .start, bus := u.bus.newPhase }

/-- `BiuSend(b)` (R206). -/
def biuSend (b : Byte) (u : TwUnit) : TwUnit :=
  { u with data := b, flag := false, req := .send, bus := u.bus.newPhase }

/-- `BiuRecv(ack)` (R207). -/
def biuRecv (ack : Bit) (u : TwUnit) : TwUnit :=
  { u with flag := false, req := recvReq ack, bus := u.bus.newPhase }

/-- `BiuStop()` (R208): the flag stays as it is, and the stop waits for the BIU. -/
def biuStop (u : TwUnit) : TwUnit := { u with req := .stop, bus := { u.bus with stops := u.bus.stops + 1 } }

/-- The environment's draw for the pending phase: from the script, else a free value (20_memory.md R68, log 1). -/
def TwBus.draw (b : TwBus) : PhaseDraw × TwBus :=
  match b.phases with
  | d :: ds => (d, { b with phases := ds })
  | [] => (Config.freePhase b.drawn, { b with drawn := b.drawn + 1 })

/-- Every stop still to come is put on the bus, in order (R208). -/
def finishStops (u : TwUnit) : TwUnit :=
  { u with
    owned := u.owned && u.bus.stops == 0
    bus := { u.bus with stops := 0, trace := u.bus.trace ++ List.replicate u.bus.stops .stop } }

/-- The event of a completed start, send or receive phase (20_memory.md R69); none for the other latch values. -/
def phaseEvent (u : TwUnit) (st data : Byte) : List TwEvent :=
  match u.req with
  | .start => [.start st]
  | .send => [.tx u.data st]
  | .recvAck => [.rx true data st]
  | .recvNack => [.rx false data st]
  | .none => []
  | .stop => []

/-- The data register after a phase: the received byte after a receive, else as it was (R206, R207). -/
def phaseData (u : TwUnit) (data : Byte) : Byte :=
  match u.req with
  | .recvAck => data
  | .recvNack => data
  | .none => u.data
  | .start => u.data
  | .send => u.data
  | .stop => u.data

/-- `tw_owned` after a phase: set by a start that reported one of the two start codes (R205). -/
def phaseOwned (p : Params) (u : TwUnit) (st : Byte) : Bit :=
  match u.req with
  | .start => u.owned || st == p.stStart || st == p.stRepStart
  | .none => u.owned
  | .send => u.owned
  | .recvAck => u.owned
  | .recvNack => u.owned
  | .stop => u.owned

/-- Completion of the pending start, send or receive phase: status, data, flag and latch, all at once (R204). -/
def completePhase (p : Params) (st data : Byte) (u : TwUnit) : TwUnit :=
  { u with
    data := phaseData u data
    status := st
    flag := true
    owned := phaseOwned p u st
    req := .none
    bus := { u.bus with trace := u.bus.trace ++ phaseEvent u st data } }

/-- A step of the BIU on a pending start, send or receive phase: it draws whether the phase is over. Stops still to
come are finished first, whether or not the phase then is (R208, log 10). A phase drawn never to complete does nothing
more and draws nothing more (log 8). -/
def biuPhase (p : Params) (u : TwUnit) : TwUnit :=
  if u.bus.dead then u
  else
    match u.bus.draw.1 with
    | .done st data => completePhase p st data (finishStops { u with bus := u.bus.draw.2 })
    | .later => finishStops { u with bus := u.bus.draw.2 }
    | .never => { u with bus := { u.bus.draw.2 with dead := true } }

/-- A step of the BIU while the sequencer waits for the flag: none where the flag is up or no phase that ends with
the flag is pending. -/
def biuStep (p : Params) (u : TwUnit) : TwUnit :=
  if u.flag then u
  else
    match u.req with
    | .none => u
    | .stop => u
    | .start => biuPhase p u
    | .send => biuPhase p u
    | .recvAck => biuPhase p u
    | .recvNack => biuPhase p u

/-- Every stop still to come is put on the bus and the latch is empty again, before a command with accesses to the other
bus begins (20_memory.md R79 (c), log 10). -/
def settleStops (u : TwUnit) : TwUnit :=
  match u.bus.stops with
  | 0 => u
  | _ + 1 => { finishStops u with req := if u.req == .stop then .none else u.req }

/-- A step of the BIU while the sequencer is idle: it finishes one stop phase, if one is to come (R208, log 10). -/
def biuFinishStop (u : TwUnit) : TwUnit :=
  match u.bus.stops with
  | 0 => u
  | k + 1 =>
    { u with
      owned := false
      req := if k = 0 && u.req == .stop then .none else u.req
      bus := { u.bus with stops := k, trace := u.bus.trace ++ [.stop] } }

end Sys2Proof.Machine
end

