-- ==== Sys2Proof/Machine/Operands.lean ====
section
/-! DEFINITION. Operand assembly (30_encoding.md R96, R112): the two-wire address byte, the bytes of a send phase,
and the requests with their operands. -/

namespace Sys2Proof.Machine

/-- The address byte `(address << 1) | dir` (R112, R181 (e)). -/
def addressByte (p : Params) (a : BitVec 7) (d : Direction) : Byte :=
  (a.zeroExtend 8 <<< 1) ||| bitByte (p.dirBit d)

/-- The byte of a send phase, read when the request is made (20_memory.md R79 (d)). -/
def sendByte (b : SendByte) (s : State) : Byte × State :=
  match b with
  | .byte v => (v, s)
  | .hbuf i => memRead i s
  | .target a d => (addressByte s.par a d, s)
  | .retained d => (addressByte s.par s.tw.addr d, s)

/-- Make a request (43_tw_control_biu.md R205 to R208). -/
def request (r : Request) (s : State) : State :=
  match r with
  | .start => { s with tw := biuStart s.tw }
  | .send b => { (sendByte b s).2 with tw := biuSend (sendByte b s).1 (sendByte b s).2.tw }
  | .recv ack => { s with tw := biuRecv ack s.tw }
  | .stop => { s with tw := biuStop s.tw }

end Sys2Proof.Machine
end

