-- ==== Sys2Proof/Machine/Flags.lean ====
section
/-! DEFINITION. The flags (10_state.md R42): the completion flag and the wait for it, the status check, the bound on
a wait, and the preconditions over `tw_enabled` and `tw_state` outside which a command is refused. -/

namespace Sys2Proof.Machine

/-- The wait has exceeded `TW_TIMEOUT` (43_tw_control_biu.md R209): never when it is unbounded. -/
def waitExpired (p : Params) (waited : Nat) : Bool :=
  match p.twTimeout with
  | none => false
  | some bound => bound < waited

/-- One poll of `WaitFlag()` (R209): the BIU has had its step; the count of polls that found the flag clear goes up,
or is cleared when the flag is up. -/
def pollFlag (s : State) : State :=
  { s with
    tw :=
      { biuStep s.par s.tw with
        bus :=
          { (biuStep s.par s.tw).bus with
            waited := if (biuStep s.par s.tw).flag then 0 else s.tw.bus.waited + 1 } } }

/-- A wait that exceeds the bound, or a check that fails, leaves the transaction in `Failed` and ends the command
(R209, R210). -/
def failTransaction (r : Reason) (s : State) : State := raise r { s with tw := { s.tw with state := .failed } }

/-- The status is the expected code: equality over all 8 bits with exactly one code (R210). -/
def statusIs (c : StatusName) (s : State) : Bool := s.tw.status == s.par.status c

/-- Why a transaction command with this "from" state is refused, if it is (44_tw_transactions.md R230, R231; U5, U6).
`none` as the "from" state is "any" (`tw.close`). -/
def refusalOf (need : Option TwState) (s : State) : Option Refusal :=
  if s.tw.enabled = false then some .twDisabled
  else
    match need with
    | none => none
    | some t => if s.tw.state = t then none else some .twWrongState

/-- `tw.disable` is defined (43_tw_control_biu.md R202): no transaction is open and no phase is pending. -/
def mayDisable (s : State) : Bool := s.tw.state == .idle && s.tw.req == .none

end Sys2Proof.Machine
end

