-- ==== Sys2Proof/Machine/OwBit.lean ====
section
/-! DEFINITION. The single-wire bit slots and `ow.write_bit`, `ow.read_bit` (40_ow_bit_timing.md R134, R135). -/

namespace Sys2Proof.Machine

/-- A low time and then a released time: the shape of a write slot (30_encoding.md R106, R107). -/
def owPulse (low released : Nat) (u : OwUnit) : OwUnit :=
  delayUs released (owRelease (delayUs low (owDriveLow u)))

/-- `WriteBit(value)` (R134). -/
def writeBit (v : Bit) (u : OwUnit) : OwUnit :=
  if v then (owPulse Config.tW1Low (Config.tW1Slot - Config.tW1Low) u).emit (.wr true)
  else (owPulse Config.tW0Low Config.tW0Rec u).emit (.wr false)

/-- A low time, a released time, a sample and a padding time: the shape of a read slot and of the reset event (R105,
R108). -/
def owProbe (low released pad : Nat) (u : OwUnit) : Bit × OwUnit :=
  ((owSample (owPulse low released u)).1, delayUs pad (owSample (owPulse low released u)).2)

/-- The read slot up to its event. -/
def readSlot (u : OwUnit) : Bit × OwUnit :=
  owProbe Config.tRdLow (Config.tRdSample - Config.tRdLow) Config.tRdPad u

/-- `ReadBit()` (R135). -/
def readBit (u : OwUnit) : Bit × OwUnit := ((readSlot u).1, (readSlot u).2.emit (.rd (readSlot u).1))

/-- `ow.write_bit value` (R134). -/
def execOwWriteBit (value : Bit) (s : State) : Host.Outcome State Fault Refusal :=
  .next (finish 0 { s with ow := writeBit value s.ow })

/-- `ow.read_bit` (R135). -/
def execOwReadBit (s : State) : Host.Outcome State Fault Refusal :=
  .next (finish (bitByte (readBit s.ow).1) { s with ow := (readBit s.ow).2 })

end Sys2Proof.Machine
end

