-- ==== Sys2Proof/Machine/OwByte.lean ====
section
/-! DEFINITION. Presence detection, the byte transceiver and the busy poll (41_ow_presence_bytes.md R150 to R153). -/

namespace Sys2Proof.Machine

/-- The reset pulse and presence sample up to their event (30_encoding.md R105). -/
def resetSlot (u : OwUnit) : Bit × OwUnit :=
  owProbe Config.tRstLow Config.tPdSample Config.tPdRecover u

/-- `DetectPresence()` (R150): 1 when a device answered, that is, when the sample is 0. -/
def detectPresence (u : OwUnit) : Bit × OwUnit :=
  (!(resetSlot u).1, (resetSlot u).2.emit (.reset (resetSlot u).1))

/-- `ow_mask <- (ow_mask << 1)[7:0]` (R154). -/
def shiftMask (u : OwUnit) : OwUnit := { u with mask := u.mask <<< 1 }

/-- The loop of `WriteByte` (R151); the first argument bounds the loop tests. -/
def writeByteLoop (b : Byte) : Nat → OwUnit → OwUnit
  | 0, u => u
  | k + 1, u =>
    if u.mask = 0 then u else writeByteLoop b k (shiftMask (writeBit (b &&& u.mask != 0) u))

/-- `WriteByte(b)` (R151): nine loop tests, the ninth finding the mask overflowed to 0. -/
def writeByte (b : Byte) (u : OwUnit) : OwUnit := writeByteLoop b 9 { u with mask := 0x01 }

/-- `WriteByte` of each byte of a list, in order. -/
def writeBytes : List Byte → OwUnit → OwUnit
  | [], u => u
  | b :: bs, u => writeBytes bs (writeByte b u)

/-- `if s == 1: ow_shift <- ow_shift | ow_mask` (R152). -/
def shiftIn (s : Bit) (u : OwUnit) : OwUnit := if s then { u with shift := u.shift ||| u.mask } else u

/-- The loop of `ReadByte` (R152); the first argument bounds the loop tests. -/
def readByteLoop : Nat → OwUnit → OwUnit
  | 0, u => u
  | k + 1, u =>
    if u.mask = 0 then u else readByteLoop k (shiftMask (shiftIn (readBit u).1 (readBit u).2))

/-- The unit after `ReadByte()`; the byte is its `shift` (R152). -/
def readByte (u : OwUnit) : OwUnit := readByteLoop 9 { u with shift := 0x00, mask := 0x01 }

/-- The end of `ow.detect_presence` (R150): the answer, or `Absence`. -/
def presenceResult (present : Bit) (s : State) : State := if present then finish 1 s else raise .absence s

/-- `ow.detect_presence` (R150). -/
def execOwDetectPresence (s : State) : Host.Outcome State Fault Refusal :=
  .next (presenceResult (detectPresence s.ow).1 { s with ow := (detectPresence s.ow).2 })

/-- `ow.write_byte byte` (R151). -/
def execOwWriteByte (byte : Byte) (s : State) : Host.Outcome State Fault Refusal :=
  .next (finish 0 { s with ow := writeByte byte s.ow })

/-- `ow.read_byte` (R152). -/
def execOwReadByte (s : State) : Host.Outcome State Fault Refusal :=
  .next (finish (readByte s.ow).shift { s with ow := readByte s.ow })

/-- `ow.is_busy` (R153): the complement of one read slot. -/
def execOwIsBusy (s : State) : Host.Outcome State Fault Refusal :=
  .next (finish (bitByte (!(readBit s.ow).1)) { s with ow := (readBit s.ow).2 })

end Sys2Proof.Machine
end

