-- ==== Sys2Proof/Machine/OwRom.lean ====
section
/-! DEFINITION. The CRC-8 verifier, the ROM reader, device selection and the alarm search (42_ow_rom_alarm.md R170 to
R180). -/

namespace Sys2Proof.Machine

/-! ### CRC-8 -/

/-- One step of the CRC register with one bit of the byte (R170). -/
def crcStep (crc : Byte) (bit : Bit) : Byte :=
  if xor (crc.getLsbD 0) bit then (crc >>> 1) ^^^ Config.crcXor else crc >>> 1

/-- `Crc8Update(crc, byte)` (R170): the byte's bits, least significant first. -/
def crc8Update (crc b : Byte) : Byte :=
  (List.range 8).foldl (fun c i => crcStep c (b.getLsbD i)) crc

/-- `Crc8(bytes)` (R171). -/
def crc8 (bs : List Byte) : Byte := bs.foldl crc8Update Config.crcInit

/-- R173: the code's eighth byte is the CRC of its first seven. -/
def romValid (code : Vector Byte 8) : Bool := crc8 (code.toList.take 7) == code[7]

/-! ### The ROM reader -/

/-- `for i in ..: ow_scratch[i] <- ReadByte()` over these indexes. -/
def readScratch : List (Fin 8) → OwUnit → OwUnit
  | [], u => u
  | i :: is, u =>
    readScratch is { readByte u with scratch := (readByte u).scratch.set i (readByte u).shift }

/-- `ow_crc <- Crc8(ow_scratch[0..6])`, from `CRC_INIT` (R174). -/
def crcOfScratch (u : OwUnit) : OwUnit := { u with crc := crc8 (u.scratch.toList.take 7) }

/-- The part of `ow.read_rom` on the line, after presence: the command byte, the eight bytes, the CRC (R174). -/
def romTransfer (cmd : Byte) (u : OwUnit) : OwUnit :=
  crcOfScratch (readScratch [0, 1, 2, 3, 4, 5, 6, 7] (writeByte cmd u))

/-- The end of `ow.read_rom` (R174): the comparison, and hbuf written only when it holds. -/
def romResult (s : State) : State :=
  if s.ow.crc = s.ow.scratch[7] then finish 1 (memWriteFrom 0 s.ow.scratch.toList s)
  else raise .dataIntegrity s

/-- `ow.read_rom` after its presence sample (R174). -/
def readRomAfter (present : Bit) (s : State) : State :=
  if present then romResult { s with ow := romTransfer s.par.cmdReadRom s.ow } else raise .absence s

/-- `ow.read_rom` (R174). -/
def execOwReadRom (s : State) : Host.Outcome State Fault Refusal :=
  .next (readRomAfter (detectPresence s.ow).1 { s with ow := (detectPresence s.ow).2 })

/-! ### Device selection -/

/-- `for i in ..: WriteByte(MemRead(i, 1))` over these indexes (R175, 20_memory.md R79 (d)). -/
def writeHbufBytes : List Byte → State → State
  | [], s => s
  | i :: is, s =>
    writeHbufBytes is { (memRead i s).2 with ow := writeByte (memRead i s).1 (memRead i s).2.ow }

/-- `ow.match_rom` (R175): no reset pulse, no presence check, no CRC check. -/
def execOwMatchRom (s : State) : Host.Outcome State Fault Refusal :=
  .next
    (finish 0
      (writeHbufBytes [0, 1, 2, 3, 4, 5, 6, 7] { s with ow := writeByte s.par.cmdMatchRom s.ow }))

/-- `ow.skip_rom` (R176). -/
def execOwSkipRom (s : State) : Host.Outcome State Fault Refusal :=
  .next (finish 0 { s with ow := writeByte s.par.cmdSkipRom s.ow })

/-! ### Alarm search -/

/-- `ow_b0 <- ReadBit()`, then `ow_b1 <- ReadBit()` (R177, R179). -/
def readResponses (u : OwUnit) : OwUnit :=
  let u0 := { (readBit u).2 with b0 := (readBit u).1 }
  { (readBit u0).2 with b1 := (readBit u0).1 }

/-- The bit written back (R177): `ALARM_DIR_00` after (0,0), else the complement of the second response bit. -/
def alarmBit (p : Params) (b0 b1 : Bit) : Bit := if !b0 && !b1 then p.alarmDir00 else !b1

/-- The end of `ow.alarm_search` after the two response bits (R177). -/
def alarmResult (s : State) : State :=
  if s.ow.b0 && s.ow.b1 then finish 0 s
  else finish 1 { s with ow := writeBit (alarmBit s.par s.ow.b0 s.ow.b1) s.ow }

/-- `ow.alarm_search` after its presence sample (R177). -/
def alarmAfter (present : Bit) (s : State) : State :=
  if present then alarmResult { s with ow := readResponses (writeByte s.par.cmdAlarmSearch s.ow) }
  else raise .absence s

/-- `ow.alarm_search` (R177); one bit position only, and kept so (R178). -/
def execOwAlarmSearch (s : State) : Host.Outcome State Fault Refusal :=
  .next (alarmAfter (detectPresence s.ow).1 { s with ow := (detectPresence s.ow).2 })

/-- `ow.search_rom` (R180): no effect but the flagged result. -/
def execOwSearchRom (s : State) : Host.Outcome State Fault Refusal := .next (raise .unsupported s)

end Sys2Proof.Machine
end

