-- ==== Sys2Proof/Machine/TwSequencer.lean ====
section
/-! DEFINITION. The sequencer on a two-wire command (10_state.md R24, R50): it works through the command's pseudocode,
holds at a `WaitFlag` whose flag is down, and resumes there. -/

namespace Sys2Proof.Machine

/-- Run the rest of a command's pseudocode until the command ends or holds at a `WaitFlag`. -/
def runTw : List TwOp → State → State
  | [], s => s
  | .setAddr a :: rest, s => runTw rest { s with tw := { s.tw with addr := a } }
  | .request r :: rest, s => runTw rest (request r s)
  | .wait :: rest, s =>
    if (pollFlag s).tw.flag then runTw rest (pollFlag s)
    else if waitExpired s.par (pollFlag s).tw.bus.waited then failTransaction .timeout (pollFlag s)
    else hold (.wait :: rest) (pollFlag s)
  | .check c :: rest, s => if statusIs c s then runTw rest s else failTransaction .protocolMismatch s
  | .setState t :: rest, s => runTw rest { s with tw := { s.tw with state := t } }
  | .setIdx i :: rest, s => runTw rest { s with tw := { s.tw with idx := i } }
  | .store i :: rest, s => runTw rest (memWrite i s.tw.data s)
  | .ret v :: _, s => finish v s

/-- `Step(req, code)` of 44_tw_transactions.md: the request, the wait, the check. -/
def twStep (r : Request) (c : StatusName) : List TwOp := [.request r, .wait, .check c]

/-- A transaction command: refused outside its precondition (R231), else run. -/
def twCommand (need : Option TwState) (code : List TwOp) (s : State) : Host.Outcome State Fault Refusal :=
  match refusalOf need s with
  | some r => .refused r
  | none => .next (runTw code s)

/-- The sequencer resumes where it holds. -/
def resume (s : State) : State :=
  match s.seq with
  | .idle => s
  | .hold rest => runTw rest s

end Sys2Proof.Machine
end

