-- ==== Sys2Proof/Machine/TwControl.lean ====
section
/-! DEFINITION. `tw.enable`, `tw.disable`, `tw.is_enabled` (43_tw_control_biu.md R201 to R203). -/

namespace Sys2Proof.Machine

/-- The guarded writes of `tw.enable` (R201). -/
def enableUnit (u : TwUnit) : TwUnit := if u.enabled then u else { u with pullup := true, enabled := true }

/-- The writes of `tw.disable` (R202). -/
def disableUnit (u : TwUnit) : TwUnit := { u with pullup := false, enabled := false }

/-- `tw.enable` (R201). -/
def execTwEnable (s : State) : Host.Outcome State Fault Refusal :=
  .next (finish 0 { s with tw := enableUnit s.tw })

/-- `tw.disable` (R202): refused in the middle of a transaction or of a stop (U7). -/
def execTwDisable (s : State) : Host.Outcome State Fault Refusal :=
  if mayDisable s then .next (finish 0 { s with tw := disableUnit s.tw }) else .refused .twDisableInTransaction

/-- `tw.is_enabled` (R203). -/
def execTwIsEnabled (s : State) : Host.Outcome State Fault Refusal := .next (finish (bitByte s.tw.enabled) s)

end Sys2Proof.Machine
end

