-- ==== Sys2Proof/Machine/TwTransactions.lean ====
section
/-! DEFINITION. The two-wire transaction commands (44_tw_transactions.md R232 to R237): each one's pseudocode as a list
of micro-operations, and its meaning. -/

namespace Sys2Proof.Machine

/-- R232. -/
def openCode (address : BitVec 7) : List TwOp :=
  [.setAddr address] ++ twStep .start .start ++ twStep (.send (.target address .write)) .slawAck ++
    [.setState .openW, .ret 1]

/-- R233. -/
def closeCode : List TwOp := [.request .stop, .setState .idle, .ret 0]

/-- R234. -/
def writeByteCode (data : Byte) : List TwOp := twStep (.send (.byte data)) .txDataAck ++ [.ret 1]

/-- The loop of R235 from index `i` on, `k` turns. -/
def writeLoop : Nat → Nat → List TwOp
  | _, 0 => []
  | i, k + 1 =>
    [.setIdx (BitVec.ofNat 8 i)] ++ twStep (.send (.hbuf (BitVec.ofNat 8 i))) .txDataAck ++ writeLoop (i + 1) k

/-- R235. -/
def writeStrCode (n : Byte) : List TwOp := writeLoop 0 n.toNat ++ [.ret 1]

/-- The addressing phases of a read (R236, R237): register select, repeated start, address and read direction. -/
def selectCode (reg : Byte) : List TwOp :=
  twStep (.send (.byte reg)) .txDataAck ++ twStep .start .repStart ++ twStep (.send (.retained .read)) .slarAck ++
    [.setState .openR]

/-- The last receive, answered NACK, stored at `i`, and the return (R236, R237). -/
def lastByteCode (i : Byte) : List TwOp := twStep (.recv false) .rxDataNack ++ [.store i, .ret 1]

/-- R236. -/
def readChCode (reg : Byte) : List TwOp := selectCode reg ++ lastByteCode 0

/-- The loop of R237 from index `i` on, `k` turns. -/
def readLoop : Nat → Nat → List TwOp
  | _, 0 => []
  | i, k + 1 =>
    [.setIdx (BitVec.ofNat 8 i)] ++ twStep (.recv true) .rxDataAck ++ [.store (BitVec.ofNat 8 i)] ++
      readLoop (i + 1) k

/-- R237, for `n` not 0. -/
def readStrCode (reg n : Byte) : List TwOp :=
  selectCode reg ++ readLoop 0 (n.toNat - 1) ++ lastByteCode (BitVec.ofNat 8 (n.toNat - 1))

/-- `tw.open address` (R232). -/
def execTwOpen (address : BitVec 7) (s : State) : Host.Outcome State Fault Refusal :=
  twCommand (some .idle) (openCode address) s

/-- `tw.close` (R233): defined in every transaction state. -/
def execTwClose (s : State) : Host.Outcome State Fault Refusal := twCommand none closeCode s

/-- `tw.write_byte data` (R234). -/
def execTwWriteByte (data : Byte) (s : State) : Host.Outcome State Fault Refusal :=
  twCommand (some .openW) (writeByteCode data) s

/-- `tw.write_str n` (R235). -/
def execTwWriteStr (n : Byte) (s : State) : Host.Outcome State Fault Refusal :=
  twCommand (some .openW) (writeStrCode n) s

/-- `tw.read_ch reg` (R236). -/
def execTwReadCh (reg : Byte) (s : State) : Host.Outcome State Fault Refusal :=
  twCommand (some .openW) (readChCode reg) s

/-- `tw.read_str reg, n` (R237); with `n` = 0 the command is illegal before anything else (30_encoding.md R97, R98,
60_exceptions.md R269). -/
def execTwReadStr (reg n : Byte) (s : State) : Host.Outcome State Fault Refusal :=
  if n = 0 then .next (raise .illegal s) else twCommand (some .openW) (readStrCode reg n) s

end Sys2Proof.Machine
end

