-- ==== Sys2Proof/Machine/Dispatch.lean ====
section
/-! DEFINITION. One arm per command: the meaning of each (30_encoding.md R95). -/

namespace Sys2Proof.Machine

def exec (i : Instr) (s : State) : Host.Outcome State Fault Refusal :=
  match i with
  | .owDetectPresence => Sys2Proof.Machine.execOwDetectPresence s
  | .owWriteBit value => Sys2Proof.Machine.execOwWriteBit value s
  | .owReadBit => Sys2Proof.Machine.execOwReadBit s
  | .owWriteByte byte => Sys2Proof.Machine.execOwWriteByte byte s
  | .owReadByte => Sys2Proof.Machine.execOwReadByte s
  | .owIsBusy => Sys2Proof.Machine.execOwIsBusy s
  | .owReadRom => Sys2Proof.Machine.execOwReadRom s
  | .owMatchRom => Sys2Proof.Machine.execOwMatchRom s
  | .owSkipRom => Sys2Proof.Machine.execOwSkipRom s
  | .owAlarmSearch => Sys2Proof.Machine.execOwAlarmSearch s
  | .owSearchRom => Sys2Proof.Machine.execOwSearchRom s
  | .twEnable => Sys2Proof.Machine.execTwEnable s
  | .twDisable => Sys2Proof.Machine.execTwDisable s
  | .twIsEnabled => Sys2Proof.Machine.execTwIsEnabled s
  | .twOpen address => Sys2Proof.Machine.execTwOpen address s
  | .twClose => Sys2Proof.Machine.execTwClose s
  | .twWriteByte data => Sys2Proof.Machine.execTwWriteByte data s
  | .twWriteStr n => Sys2Proof.Machine.execTwWriteStr n s
  | .twReadCh reg => Sys2Proof.Machine.execTwReadCh reg s
  | .twReadStr reg n => Sys2Proof.Machine.execTwReadStr reg n s

end Sys2Proof.Machine
end

