-- ==== Sys2Proof/Machine/Wire.lean ====
section
/-! DEFINITION. Views of the recorded events on the wires: the single-wire waveform of a slot (30_encoding.md R105 to
R108) with its duration (70_reset_and_hazards.md R323), the bits of a byte in wire order (R70, R109, R72), and the
two-wire symbols of a phase (R115, R116). No step reads any of them. -/

namespace Sys2Proof.Machine

/-- The bits of a byte on the single wire: least significant first (R109). -/
def bitsLsbFirst (b : Byte) : List Bit := (List.range 8).map b.getLsbD

/-- The byte whose bits, least significant first, are these (R109). -/
def byteOfBits : List Bit → Byte
  | [] => 0
  | s :: ss => bitByte s ||| (byteOfBits ss <<< 1)

/-- The bits of a byte on the two-wire data line: most significant first (R72, G4, PRESUMED, log 21). -/
def bitsMsbFirst (b : Byte) : List Bit := (bitsLsbFirst b).reverse

namespace OwEvent

/-- The event's length in microseconds (R105 to R108, R323). -/
def duration : OwEvent → Nat
  | .reset _ => Config.tRstLow + Config.tPdSample + Config.tPdRecover
  | .wr true => Config.tW1Slot
  | .wr false => Config.tW0Low + Config.tW0Rec
  | .rd _ => Config.tRdSample + Config.tRdPad

/-- What the engine does to the line, and reads from it, in an event that begins at this time (R105 to R108). -/
def wave (t : Nat) : OwEvent → List LineMark
  | .reset p =>
    [⟨t, .low⟩, ⟨t + Config.tRstLow, .release⟩, ⟨t + Config.tRstLow + Config.tPdSample, .sample p⟩]
  | .wr true => [⟨t, .low⟩, ⟨t + Config.tW1Low, .release⟩]
  | .wr false => [⟨t, .low⟩, ⟨t + Config.tW0Low, .release⟩]
  | .rd s => [⟨t, .low⟩, ⟨t + Config.tRdLow, .release⟩, ⟨t + Config.tRdSample, .sample s⟩]

/-- The level that the engine samples in an event, if it samples one. -/
def sampled : OwEvent → Option Bit
  | .reset p => some p
  | .rd s => some s
  | .wr _ => none

end OwEvent

/-- The write slots of a byte (R109). -/
def byteSlots (b : Byte) : List OwEvent := (bitsLsbFirst b).map .wr

/-- The waveform of events one after another from this time on. -/
def waveOf : Nat → List OwEvent → List LineMark
  | _, [] => []
  | t, e :: es => e.wave t ++ waveOf (t + e.duration) es

/-- The length of events one after another. -/
def durationOf (es : List OwEvent) : Nat := (es.map OwEvent.duration).sum

/-! ### What the environment will give, and what the line has seen -/

/-- Events one after another put on the line: time, waveform and trace go on by theirs. -/
def OwBus.record (es : List OwEvent) (b : OwBus) : OwBus :=
  { b with clock := b.clock + durationOf es, marks := b.marks ++ waveOf b.clock es, trace := b.trace ++ es }

/-- The level the environment will give at the sample with this number, counted from 0: from the script while it
lasts, then a free value (R66, log 1). -/
def OwBus.level (b : OwBus) (i : Nat) : Bit :=
  b.levels[i]?.getD (Config.freeLevel (b.drawn + (i - b.levels.length)))

/-- The levels the environment will give at the next `k` samples. -/
def OwBus.upcoming (k : Nat) (b : OwBus) : List Bit := (List.range k).map b.level

/-- The environment after giving `k` levels. -/
def OwBus.afterDraws (k : Nat) (b : OwBus) : OwBus :=
  { b with levels := b.levels.drop k, drawn := b.drawn + (k - b.levels.length) }

/-- The eight bytes the next 64 samples give, the first sample in bit 0 of byte 0 (R71, R110). -/
def OwBus.upcomingRom (b : OwBus) : Vector Byte 8 :=
  Vector.ofFn fun i => byteOfBits ((b.afterDraws (8 * i.val)).upcoming 8)

/-- What `MemRead(i, 1)` at each of these indexes gives, in order, from buffer `m` when `f` free bytes have been
drawn: the byte written there, or the next free byte where nothing has been written (U2, log 4). -/
def hbufBytes (m : List Host.Cell) : List Byte → Nat → List Byte
  | [], _ => []
  | i :: is, f =>
    (Memory.read m i.toNat).getD (Config.freeByte f) ::
      hbufBytes m is (if (Memory.read m i.toNat).isSome then f else f + 1)

/-- The count of free bytes after those reads. -/
def freshAfter (m : List Host.Cell) : List Byte → Nat → Nat
  | [], f => f
  | i :: is, f => freshAfter m is (if (Memory.read m i.toNat).isSome then f else f + 1)

/-- The indexes 0, 1, ..., n - 1 of hbuf. -/
def indexes (n : Nat) : List Byte := (List.range n).map (BitVec.ofNat 8)

/-! ### The two-wire lines -/

/-- What a two-wire phase puts on the two lines (R115, PRESUMED, log 21). The answer bit is `none` where the status
does not tell it. -/
inductive TwSymbol where
  | startCondition
  | stopCondition
  | bit (b : Bit)
  /-- The ninth clock: `some false` ACK (low), `some true` NACK (high). -/
  | answer (b : Option Bit)
  deriving DecidableEq, Repr

/-- A sent byte was acknowledged if the BIU reports one of the three codes that say so (R116). -/
def slaveAnswer (p : Params) (st : Byte) : Option Bit :=
  if st = p.stSlawAck ∨ st = p.stSlarAck ∨ st = p.stTxDataAck then some false else none

/-- The symbols of a phase-level event (R114 to R116). -/
def TwEvent.symbols (p : Params) : TwEvent → List TwSymbol
  | .start _ => [.startCondition]
  | .tx b st => (bitsMsbFirst b).map .bit ++ [.answer (slaveAnswer p st)]
  | .rx ack d _ => (bitsMsbFirst d).map .bit ++ [.answer (some (!ack))]
  | .stop => [.stopCondition]

end Sys2Proof.Machine
end

