-- ==== Sys2Proof/Machine/Port.lean ====
section
/-! DEFINITION. The engine's ports (10_state.md R48): what one step does with what the outside world puts there. -/

namespace Sys2Proof.Machine

/-! ### Reset (70_reset_and_hazards.md R300, R301) -/

/-- The engine after its reset input: every register as in `State.reset` (log 3). What does not belong to the engine
stays: its parameters, the outside world with every draw still to come, what has been seen on the buses. No stop and no
reset pulse is put on a bus (R301). A phase in progress ends, be it one that never completes, and so does every stop
still to come: DESIGN CHOICE (log 3). -/
def engineReset (s : State) : State :=
  { State.reset with
    par := s.par
    host := s.host
    fresh := s.fresh
    ow := { OwUnit.reset with bus := s.ow.bus }
    tw :=
      { TwUnit.reset with
        bus := { s.tw.bus with waited := 0, dead := false, stops := 0 } } }

/-- Number of line actions in a slot-level event. -/
def OwEvent.actions (e : OwEvent) : Nat := (e.wave 0).length

/-- The events among these whose line actions all fall within the first `k`. -/
def eventsWithin : Nat → List OwEvent → List OwEvent
  | _, [] => []
  | k, e :: es => if e.actions ≤ k then e :: eventsWithin (k - e.actions) es else []

/-- A reset releases the line if it is low, at the time of the last action. -/
def releaseAtReset (marks : List LineMark) : List LineMark :=
  match marks.getLast? with
  | some ⟨t, .low⟩ => marks ++ [⟨t, .release⟩]
  | some ⟨_, .release⟩ => marks
  | some ⟨_, .sample _⟩ => marks
  | none => marks

/-- The single-wire bus where a reset cut a command short after `k` of its line actions: `old` before the command,
`new` after all of it. -/
def cutOwBus (k : Nat) (old new : OwBus) : OwBus :=
  { new with
    marks := old.marks ++ releaseAtReset ((new.marks.drop old.marks.length).take k)
    trace := old.trace ++ eventsWithin k (new.trace.drop old.trace.length)
    clock :=
      match ((new.marks.drop old.marks.length).take k).getLast? with
      | some m => m.time
      | none => old.clock }

/-- The two-wire bus where a reset cut a command short after `k` of its events, the stops before its first phase among
them. -/
def cutTwBus (k : Nat) (old new : TwBus) : TwBus :=
  { new with trace := old.trace ++ (new.trace.drop old.trace.length).take k }

/-- Reset in the middle of a command (93_implementation_defined.md U15, log 16): the engine is as after any reset,
and each bus has seen the first `k` actions of the command and no more. -/
def cutByReset (k : Nat) (old new : State) : State :=
  engineReset
    { new with
      ow := { new.ow with bus := cutOwBus k old.ow.bus new.ow.bus }
      tw := { new.tw with bus := cutTwBus k old.tw.bus new.tw.bus } }

/-! ### A command word -/

/-- The commands that use the single-wire line (20_memory.md R63). -/
def usesLine : Instr → Bool
  | .owDetectPresence | .owWriteBit _ | .owReadBit | .owWriteByte _ | .owReadByte | .owIsBusy | .owReadRom
  | .owMatchRom | .owSkipRom | .owAlarmSearch => true
  | .owSearchRom | .twEnable | .twDisable | .twIsEnabled | .twOpen _ | .twClose | .twWriteByte _ | .twWriteStr _
  | .twReadCh _ | .twReadStr _ _ => false

/-- What stands before a command's first access: a command's accesses all precede those of the next command, on either
bus, so the stop of an earlier `tw.close` is on the two-wire bus before a command uses the single-wire line (R79 (c)).
Before a two-wire phase the BIU sees to that itself (R208); a command without accesses, or another `tw.close`, waits
for nothing and finishes no stop: DESIGN CHOICE (log 10). -/
def beforeCommand (i : Instr) (s : State) : State := if usesLine i then { s with tw := settleStops s.tw } else s

/-- The accepted word, up to the command's first access (R21). -/
def beginWord (w : Word24) (s : State) : State :=
  match decode w with
  | .instr i => beforeCommand i (accept w s)
  | .illegal _ => accept w s

/-- A decoded word runs its command; an illegal word ends at once with `Illegal` (30_encoding.md R97). -/
def runDecoded (d : Decoded) (s : State) : Host.Outcome State Fault Refusal :=
  match d with
  | .instr i => exec i s
  | .illegal _ => .next (raise .illegal s)

/-- A command word that is offered while the engine is idle: accepted, decoded, run (10_state.md R21). -/
def runWord (w : Word24) (s : State) : Host.Outcome State Fault Refusal := runDecoded (decode w) (beginWord w s)

/-- A reset after `k` bus actions of what a command did. -/
def cutOutcome (k : Nat) (old : State) : Host.Outcome State Fault Refusal → Host.Outcome State Fault Refusal
  | .next new => .next (cutByReset k old new)
  | .fault r => .fault r
  | .refused r => .refused r

/-! ### The other inputs -/

/-- A step in which nothing is accepted: the sequencer resumes where it holds, or, when it is idle, the BIU finishes
a stop phase if one is to come. -/
def passTime (s : State) : State := if s.busy then resume s else { s with tw := biuFinishStop s.tw }

/-- The host writes a byte of hbuf: only while idle (10_state.md R23, U16). -/
def hostWrite (a v : Byte) (s : State) : Host.Outcome State Fault Refusal :=
  if s.busy then .refused .hbufWhileBusy else .next (memWrite a v s)

/-- The host reads a byte of hbuf onto `hb_rdata`: only while idle (R23, R48, U16). -/
def hostRead (a : Byte) (s : State) : Host.Outcome State Fault Refusal :=
  if s.busy then .refused .hbufWhileBusy else .next { (memRead a s).2 with hbRdata := (memRead a s).1 }

/-- The pending phase never completes and the wait for it is unbounded (60_exceptions.md R274). -/
def hung (s : State) : Bool :=
  s.busy && !s.tw.flag && s.tw.bus.dead && s.par.twTimeout == none

/-- A step with this input (`s.host` is what comes after it). -/
def inputStep (i : Input) (s : State) : Host.Outcome State Fault Refusal :=
  match i with
  | .idle => .next (passTime s)
  | .offer w => if s.busy then .next (passTime s) else runWord w s
  | .hostWrite a v => hostWrite a v s
  | .hostRead a => hostRead a s
  | .reset => .next (engineReset s)
  | .offerThenReset w k => if s.busy then .next (engineReset s) else cutOutcome k (beginWord w s) (runWord w s)

/-- One step of the machine: with the next port input, or, when the outside world has none left, as with nothing
offered, unless the machine is hung (log 8). -/
def portStep (s : State) : Host.Outcome State Fault Refusal :=
  match s.host with
  | i :: rest => inputStep i { s with host := rest }
  | [] => if hung s then .fault .hung else .next (passTime s)

/-! ### The output ports (10_state.md R48)

`res_val`, `res_reason` and `hb_rdata` are the fields of those names. -/

/-- `cmd_ready`. -/
def State.cmdReady (s : State) : Bit := !s.busy

/-- `ow_pull_low`. -/
def State.owPullLow (s : State) : Bit := s.ow.drive

/-- `tw_pullup_en`. -/
def State.twPullupEn (s : State) : Bit := s.tw.pullup

/-- `res_valid` in a step from `s` to `t`: a command ended in it, with a result. -/
def resValid (s t : State) : Bit :=
  match s.host with
  | [] => s.busy && !t.busy
  | .idle :: _ => s.busy && !t.busy
  | .offer _ :: _ => !t.busy
  | .hostWrite _ _ :: _ => false
  | .hostRead _ :: _ => false
  | .reset :: _ => false
  | .offerThenReset _ _ :: _ => false

end Sys2Proof.Machine
end

