-- ==== Sys2Proof/Machine/Step.lean ====
section
/-! DEFINITION. One step of the machine, and how the host's next command word comes to be the one it runs (log 6). -/

namespace Sys2Proof.Machine

/-- One step. -/
def step (s : State) : Host.Outcome State Fault Refusal := portStep s

/-- The state with this command word as the next port input and the engine ready to accept it: the next step accepts
and runs it. The engine fetches nothing (00_scope.md R2): the word is offered by the host (log 6). -/
def State.withFetchWord (s : State) (nbits w : Nat) : State :=
  { s with host := .offer (BitVec.ofNat 24 (w % 2 ^ nbits)) :: s.host, busy := false, seq := .idle }

end Sys2Proof.Machine
end

