-- ==== Sys2Proof/Safety.lean ====
section
/-! DEFINITION. The terms claims use: what the environment answers to a chain of two-wire phases, the invariant of the
machine, a hung machine, and a two-wire environment that behaves. -/

/-! ### Commands by unit -/

namespace Sys2Proof.Instr

open Sys2Proof.Machine

/-- The commands of unit OW (30_encoding.md R95). -/
def isOw : Instr → Bool
  | .owDetectPresence | .owWriteBit _ | .owReadBit | .owWriteByte _ | .owReadByte | .owIsBusy | .owReadRom
  | .owMatchRom | .owSkipRom | .owAlarmSearch | .owSearchRom => true
  | .twEnable | .twDisable | .twIsEnabled | .twOpen _ | .twClose | .twWriteByte _ | .twWriteStr _ | .twReadCh _
  | .twReadStr _ _ => false

/-- The commands that put a start, send or receive phase on the two-wire bus, each with its "from" state and its
pseudocode (44_tw_transactions.md R230). -/
def transfer : Instr → Option (TwState × List TwOp)
  | .twOpen a => some (.idle, openCode a)
  | .twWriteByte d => some (.openW, writeByteCode d)
  | .twWriteStr n => some (.openW, writeStrCode n)
  | .twReadCh r => some (.openW, readChCode r)
  | .twReadStr r n => if n = 0 then none else some (.openW, readStrCode r n)
  | .owDetectPresence | .owWriteBit _ | .owReadBit | .owWriteByte _ | .owReadByte | .owIsBusy | .owReadRom
  | .owMatchRom | .owSkipRom | .owAlarmSearch | .owSearchRom | .twEnable | .twDisable | .twIsEnabled | .twClose =>
    none

end Sys2Proof.Instr

namespace Sys2Proof.Machine

/-! ### Chains of two-wire phases -/

/-- From `b` on, the next phases are each over at the first poll, with these (status, data) pairs; `b'` is what is left
of the environment's draws then (20_memory.md R68). -/
def TwBus.completes : List (Byte × Byte) → TwBus → TwBus → Prop
  | [], b, b' => b' = b
  | (st, d) :: r, b, b' => b.draw.1 = .done st d ∧ TwBus.completes r b.draw.2 b'

/-- The bus after such a chain: the stops that were still to come are on it, then these events (R69, 43 R208). -/
def TwBus.after (b b' : TwBus) (es : List TwEvent) : TwBus where
  phases := b'.phases
  drawn := b'.drawn
  waited := 0
  dead := false
  stops := 0
  trace := b.trace ++ List.replicate b.stops .stop ++ es

/-- Whether the engine owns the bus once the stops still to come are on it (R39, R208). -/
def TwUnit.ownedAfterStops (u : TwUnit) : Bit := u.owned && u.bus.stops == 0

/-- The statuses that let a whole read of `k` ACKed bytes and one NACKed byte pass, with the data the slave gives
(44_tw_transactions.md R237). -/
def readDraws (p : Params) (d0 d1 d2 : Byte) (acked : List Byte) (last : Byte) : List (Byte × Byte) :=
  [(p.stTxDataAck, d0), (p.stRepStart, d1), (p.stSlarAck, d2)] ++ acked.map (fun d => (p.stRxDataAck, d)) ++
    [(p.stRxDataNack, last)]

/-- The events of the three addressing phases of a read (R236). -/
def selectEvents (p : Params) (reg : Byte) (a : BitVec 7) : List TwEvent :=
  [.tx reg p.stTxDataAck, .start p.stRepStart, .tx (addressByte p a .read) p.stSlarAck]

/-! ### The invariant -/

/-- The latch holds a phase that ends with the completion flag. -/
def TwReq.pending : TwReq → Bool
  | .start => true
  | .send => true
  | .recvAck => true
  | .recvNack => true
  | .none => false
  | .stop => false

/-- The engine owns the two-wire bus and no stop is still to come. -/
def TwUnit.holdsBus (u : TwUnit) : Prop := u.owned = true ∧ u.bus.stops = 0

/-- Where the sequencer can hold: at a `WaitFlag` of a transfer's pseudocode, with this much left. -/
def HoldPoint (rest : List TwOp) : Prop :=
  (∃ i need code, Instr.transfer i = some (need, code) ∧ rest <:+ code) ∧ ∃ more, rest = .wait :: more

/-- What every step keeps, for a machine with the unbounded flag wait this hardware has. -/
structure Invariant (s : State) : Prop where
  /-- The wait is unbounded (00_scope.md R8). -/
  unbounded : s.par.twTimeout = none
  /-- hbuf is in canonical form. -/
  memory : Memory.wf s.hbuf = true
  /-- Between commands the engine leaves the single-wire line released (40 R136, 20 R65). -/
  released : s.ow.drive = false
  /-- The timer is at rest (R31). -/
  timer : s.ow.timer = 0
  /-- `seq` is `Idle` exactly when `busy` is 0 (R24). -/
  busyHolds : s.busy = true ↔ s.seq ≠ .idle
  /-- A failure always has result value 0 (60 R260). -/
  failZero : s.resReason ≠ .none → s.resVal = 0
  /-- `Timeout` never happens (60 R260). -/
  noTimeout : s.resReason ≠ .timeout
  /-- The pull-ups are on exactly while the unit is enabled (43 R201, R202). -/
  pullup : s.tw.pullup = s.tw.enabled
  /-- A disabled unit has no transaction and no pending phase (R202, R302). -/
  disabledIdle : s.tw.enabled = false → s.tw.state = .idle ∧ s.tw.req = .none
  /-- While the sequencer is idle only a stop can be pending, and it is pending exactly while one is to come (R41,
  R79 (b), R208). -/
  idleReq : s.seq = .idle → s.tw.req.pending = false
  stopReq : s.tw.req = .stop ↔ s.tw.req.pending = false ∧ s.tw.bus.stops ≠ 0
  /-- While the sequencer holds, it holds at a `WaitFlag`, its flag is down and the phase it waits for is pending
  (R38, R209). -/
  holdPoint : ∀ rest, s.seq = .hold rest → HoldPoint rest ∧ s.tw.flag = false ∧ s.tw.req.pending = true
  /-- A command that is past its first start, or needs none, runs on an owned bus. -/
  holdOwned : ∀ rest, s.seq = .hold rest → .check .start ∉ rest → s.tw.holdsBus
  /-- Before its first start only `tw.open` can hold. -/
  holdStart : ∀ rest, s.seq = .hold rest → .check .start ∈ rest →
    s.tw.req = .start ∧ ∃ more, rest = .wait :: .check .start :: more
  /-- An open transaction owns the bus until its stop (R39, R240). -/
  openOwned : s.tw.state = .openW ∨ s.tw.state = .openR → s.tw.holdsBus

/-! ### After a reset -/

/-- The registers to which 10_state.md R46 gives a reset value hold it, and no byte of hbuf has one. -/
structure ResetValues (s : State) : Prop where
  busy : s.busy = false
  resVal : s.resVal = 0x00
  resReason : s.resReason = .none
  hbuf : ∀ a : Byte, s.hbufByte a = none
  seq : s.seq = .idle
  owDrive : s.ow.drive = false
  owTimer : s.ow.timer = 0
  twEnabled : s.tw.enabled = false
  twPullup : s.tw.pullup = false
  twState : s.tw.state = .idle
  twFlag : s.tw.flag = false
  twOwned : s.tw.owned = false
  twReq : s.tw.req = .none

/-! ### A hung machine -/

/-- The command in flight waits for a phase that never completes (60_exceptions.md R274). -/
structure Hung (s : State) : Prop where
  busy : s.busy = true
  flag : s.tw.flag = false
  waits : ∃ more, s.seq = .hold (.wait :: more)
  pending : s.tw.req.pending = true
  dead : s.tw.bus.dead = true
  unbounded : s.par.twTimeout = none

/-- An input that is neither a reset nor a host access to hbuf. -/
def Input.ordinary : Input → Bool
  | .idle => true
  | .offer _ => true
  | .hostWrite _ _ => false
  | .hostRead _ => false
  | .reset => false
  | .offerThenReset _ _ => false

/-! ### Delays -/

/-- A script of phase draws without the polls that found a phase not over yet. -/
def withoutDelays (ds : List PhaseDraw) : List PhaseDraw := ds.filter (· ≠ .later)

/-! ### A two-wire environment that behaves -/

/-- The byte a send phase carries is an address byte: the first after a start (43_tw_control_biu.md R211). -/
def addressPhase (p : Params) (u : TwUnit) : Bool := u.status == p.stStart || u.status == p.stRepStart

/-- The status a behaving BIU reports for the pending phase (R211), given whether the slave acknowledges a sent byte;
`none` where the table gives no code. -/
def behavingStatus (p : Params) (u : TwUnit) (slaveAcks : Bool) : Option Byte :=
  match u.req with
  | .start => if u.ownedAfterStops then some p.stRepStart else some p.stStart
  | .send =>
    if slaveAcks then
      if addressPhase p u then
        if u.data.getLsbD 0 = p.dirWrite then some p.stSlawAck else some p.stSlarAck
      else some p.stTxDataAck
    else none
  | .recvAck => some p.stRxDataAck
  | .recvNack => some p.stRxDataNack
  | .none => none
  | .stop => none

/-- Along this code from this state every phase is over at the first poll, with the status a behaving BIU reports where
the slave acknowledges each sent byte (R211). -/
def FollowsTable : List TwOp → State → Prop
  | [], _ => True
  | .wait :: rest, s =>
    (∃ st d, s.tw.bus.draw.1 = .done st d ∧ behavingStatus s.par s.tw true = some st) ∧ FollowsTable rest (pollFlag s)
  | .request r :: rest, s => FollowsTable rest (request r s)
  | .check _ :: rest, s => FollowsTable rest s
  | .setAddr a :: rest, s => FollowsTable rest { s with tw := { s.tw with addr := a } }
  | .setState t :: rest, s => FollowsTable rest { s with tw := { s.tw with state := t } }
  | .setIdx i :: rest, s => FollowsTable rest { s with tw := { s.tw with idx := i } }
  | .store i :: rest, s => FollowsTable rest (memWrite i s.tw.data s)
  | .ret _ :: _, _ => True

end Sys2Proof.Machine
end

