-- ==== Sys2Proof/Certificates/Slice0/Obligations.lean ====
section
/-! DEFINITION. The statements for the provers, each a Prop; OBLIGATIONS.json lists them with their rules. -/

open Sys2Proof Sys2Proof.Machine

/-! ### Command words -/

/-- Decoding the encoding of a well-formed command gives it back, with every operand at every value (R91 to R100). -/
def Obligations.DecodeOfEncode : Prop :=
  ∀ i : Instr, i.WellFormed → decode (encode i) = .instr i

/-- A word decodes to a command exactly when the command is well-formed and the word agrees with its encoding on the
bits its format uses: no used bit is dropped and every ignored bit is ignored (R92, R99, R100). -/
def Obligations.DecodeReadsExactlyTheUsedBits : Prop :=
  ∀ (w : Word24) (i : Instr), decode w = .instr i ↔ i.WellFormed ∧ w &&& usedBits i = encode i

/-- R97: which words are illegal, and what an illegal word does when it is accepted: it ends at once with `Illegal`
and changes nothing but `busy`, `cmd` and the result (`seq` is `Idle` whenever `busy` is 0, R24). -/
def Obligations.IllegalWordsEndAtOnce : Prop :=
  ∀ w : Word24,
    ((∃ r, decode w = .illegal r) ↔
      (w.extractLsb' 5 3 ≠ 0 ∨
        (0x0B ≤ w.extractLsb' 0 5 ∧ w.extractLsb' 0 5 ≤ 0x0F) ∨
        (0x19 ≤ w.extractLsb' 0 5 ∧ w.extractLsb' 0 5 ≤ 0x1F) ∨
        (w.extractLsb' 0 5 = 0x01 ∧ w.extractLsb' 9 7 ≠ 0) ∨
        (w.extractLsb' 0 5 = 0x13 ∧ w.extractLsb' 15 1 ≠ 0) ∨
        (w.extractLsb' 0 5 = 0x18 ∧ w.extractLsb' 16 8 = 0))) ∧
      ∀ (s : State) (rest : List Input), s.busy = false → s.host = .offer w :: rest → (∃ r, decode w = .illegal r) →
        step s =
          .next { s with host := rest, cmd := w, busy := false, resVal := 0x00, resReason := .illegal, seq := .idle }

/-- Twelve words that the spec writes out (vectors V60, V62), from every family, decode to their commands. -/
def Obligations.SpecWordsDecode : Prop :=
  decode 0x000000 = .instr .owDetectPresence ∧ decode 0x000101 = .instr (.owWriteBit true) ∧
    decode 0x000002 = .instr .owReadBit ∧ decode 0x00CC03 = .instr (.owWriteByte 0xCC) ∧
    decode 0x000006 = .instr .owReadRom ∧ decode 0x000009 = .instr .owAlarmSearch ∧
    decode 0x000010 = .instr .twEnable ∧ decode 0x006813 = .instr (.twOpen 0x68) ∧
    decode 0x003C15 = .instr (.twWriteByte 0x3C) ∧ decode 0x020016 = .instr (.twWriteStr 2) ∧
    decode 0x990217 = .instr (.twReadCh 0x02) ∧ decode 0x070018 = .instr (.twReadStr 0x00 7)

/-! ### Steps -/

/-- A command word that the host offers while the engine is idle is accepted, and the step is the decoded command's
meaning on the accepting state (R21, R100). Where the stop of an earlier `tw.close` is still to come, a command that uses
the single-wire line begins after it: a command's accesses all precede those of the next, on either bus (R79 (c)). The
moment of a stop is otherwise the BIU's (R204, R208): that every other command, one without accesses or another
`tw.close` among them, begins with the stop still to come, and that one without accesses ends with it still to come, is
the model's choice (log 10), and so is that the single-wire command's stops all come right before it. -/
def Obligations.StepRunsTheOfferedCommand : Prop :=
  ∀ (s : State) (w : Word24) (rest : List Input) (i : Instr),
    s.busy = false → s.host = .offer w :: rest → decode w = .instr i →
      (usesLine i = false ∨ s.tw.bus.stops = 0 →
        step s = exec i { s with host := rest, cmd := w, busy := true }) ∧
        (usesLine i = true → s.tw.bus.stops ≠ 0 → s.tw.req = .stop →
          step s =
            exec i
              { s with
                host := rest
                cmd := w
                busy := true
                tw :=
                  { s.tw with
                    owned := false
                    req := .none
                    bus :=
                      { s.tw.bus with
                        stops := 0
                        trace := s.tw.bus.trace ++ List.replicate s.tw.bus.stops .stop } } })

/-- A command word offered while `busy` is 1 is not accepted and has no effect: the step is the one taken with nothing
offered, and `cmd` stays (R21, U17). That the offer is used up by the step, and a host that holds it offers it again, is
the model's choice (log 6). -/
def Obligations.OfferWhileBusyHasNoEffect : Prop :=
  ∀ (s : State) (w : Word24) (rest : List Input), s.busy = true → s.host = .offer w :: rest →
    step s = step { s with host := .idle :: rest } ∧
      ∃ t, step s = .next t ∧ t.cmd = s.cmd ∧ t.host = rest ∧ t.ow = s.ow

/-- The result registers change only when a command ends or a reset comes: a step that changes one leaves the engine
idle, and either `res_valid` pulses in it, and a command was in flight or one was offered, or reset was asserted
(R22, R48). -/
def Obligations.ResultsStableUntilACommandEnds : Prop :=
  ∀ s t : State, step s = .next t → (t.resVal ≠ s.resVal ∨ t.resReason ≠ s.resReason) →
    t.busy = false ∧ t.seq = .idle ∧
      (resValid s t = true ∧ (s.busy = true ∨ ∃ w rest, s.host = .offer w :: rest) ∨
        ∃ rest, s.host = .reset :: rest ∨ ∃ w k, s.host = .offerThenReset w k :: rest)

/-- No step changes a parameter (R45). -/
def Obligations.StepKeepsParameters : Prop :=
  ∀ s t : State, step s = .next t → t.par = s.par

/-! ### Reset -/

/-- The values R46 gives at reset. -/
def Obligations.ResetState : Prop :=
  State.reset.busy = false ∧ State.reset.resVal = 0x00 ∧ State.reset.resReason = .none ∧ State.reset.seq = .idle ∧
    (∀ a : Byte, State.reset.hbufByte a = none) ∧ State.reset.ow.drive = false ∧ State.reset.ow.timer = 0 ∧
    State.reset.tw.enabled = false ∧ State.reset.tw.pullup = false ∧ State.reset.tw.state = .idle ∧
    State.reset.tw.flag = false ∧ State.reset.tw.owned = false ∧ State.reset.tw.req = .none

/-- The reset input takes every state, a hung one included, to the reset values of R46, puts nothing on either bus, and
posts no result (R300, R301). -/
def Obligations.ResetInputEndsEverything : Prop :=
  ∀ (s : State) (rest : List Input), s.host = .reset :: rest →
    ∃ t, step s = .next t ∧ t.host = rest ∧ t.par = s.par ∧ ResetValues t ∧ resValid s t = false ∧
      t.ow.bus.trace = s.ow.bus.trace ∧ t.ow.bus.marks = s.ow.bus.marks ∧ t.tw.bus.trace = s.tw.bus.trace

/-- A reset in the middle of a command of either unit (U15): the registers to which R46 gives a value hold it, no result
is posted, and the bus has seen the first part of what the whole command would have put on it, the single-wire line
then at most a release. The cut points are the model's choice (log 16), and so is that a stop an earlier `tw.close`
requested is on the bus before a single-wire command that is then cut short. -/
def Obligations.ResetCutsACommandShort : Prop :=
  ∀ (s t : State) (i : Instr) (w : Word24) (k : Nat) (rest : List Input) (es : List OwEvent) (fs : List TwEvent),
    s.busy = false → s.host = .offerThenReset w k :: rest → decode w = .instr i →
      let b := beforeCommand i { s with host := rest, cmd := w, busy := true }
      exec i b = .next t → t.ow.bus.trace = s.ow.bus.trace ++ es → t.tw.bus.trace = b.tw.bus.trace ++ fs →
        ∃ r, step s = .next r ∧ r.host = rest ∧ r.par = s.par ∧ ResetValues r ∧ resValid s r = false ∧
          (i.isOw = true →
            r.tw.bus.trace = b.tw.bus.trace ∧
              (∃ seen, seen <+: es ∧ r.ow.bus.trace = s.ow.bus.trace ++ seen) ∧
              ∃ acts tail, acts = (waveOf s.ow.bus.clock es).take k ∧
                r.ow.bus.marks = s.ow.bus.marks ++ acts ++ tail ∧
                (tail = [] ∨ ∃ time, acts.getLast? = some ⟨time, .low⟩ ∧ tail = [⟨time, .release⟩])) ∧
          (i.isOw = false → r.ow.bus = s.ow.bus ∧ r.tw.bus.trace = s.tw.bus.trace ++ fs.take k)

/-! ### The single-wire unit: bits -/

/-- R133: loading the timer and counting it down, one count per tick, takes exactly `t` microseconds, leaves `ow_drive`
alone and the timer at 0, for every delay the ten bits hold; the meanings' `delayUs` is that. -/
def Obligations.DelayCountsTheTimerDown : Prop :=
  ∀ (t : Nat) (u : OwUnit), t < 1024 →
    delayUs t u = delayByTimer t u ∧
      delayByTimer t u = { u with timer := 0, bus := { u.bus with clock := u.bus.clock + t } }

/-- `ow.write_bit` (R134): one write slot of the operand. `ow.read_bit` (R135) and `ow.is_busy` (R153): one read slot,
and the sample or its complement. Line released, nothing else. -/
def Obligations.BitCommandsTakeOneSlot : Prop :=
  ∀ (v : Bit) (s : State),
    let level := s.ow.bus.draw.1
    let t : State :=
      { s with ow := { s.ow with drive := false, timer := 0, bus := s.ow.bus.draw.2.record [.rd level] } }
    exec (.owWriteBit v) s =
        .next
          (finish 0x00 { s with ow := { s.ow with drive := false, timer := 0, bus := s.ow.bus.record [.wr v] } }) ∧
      exec .owReadBit s = .next (finish (if level then 0x01 else 0x00) t) ∧
      exec .owIsBusy s = .next (finish (if level then 0x00 else 0x01) t)

/-- `ow.detect_presence` (R150): one reset event; a low sample is a device, a high one is `Absence`. -/
def Obligations.DetectPresenceAnswers : Prop :=
  ∀ s : State,
    let level := s.ow.bus.draw.1
    let t : State :=
      { s with ow := { s.ow with drive := false, timer := 0, bus := s.ow.bus.draw.2.record [.reset level] } }
    exec .owDetectPresence s = .next (if level then raise .absence t else finish 0x01 t)

/-! ### The single-wire unit: bytes -/

/-- R154: in both byte loops `ow_mask` is 1, 2, 4, ..., 0x80 at the loop tests and then 0, so each loop ends after eight
turns whatever bound is set on them; `WriteByte` and `ReadByte` are those eight turns. -/
def Obligations.MaskLoopRunsEightTimes : Prop :=
  (∀ (b : Byte) (k : Nat) (u : OwUnit), u.mask = 0x01 →
    (List.range 9).map (fun j => (writeByteLoop b j u).mask) =
        [0x01, 0x02, 0x04, 0x08, 0x10, 0x20, 0x40, 0x80, 0x00] ∧
      (List.range 9).map (fun j => (readByteLoop j u).mask) =
        [0x01, 0x02, 0x04, 0x08, 0x10, 0x20, 0x40, 0x80, 0x00] ∧
      writeByteLoop b (8 + k) u = writeByteLoop b 8 u ∧
      (writeByteLoop b 8 u).bus.trace.length = u.bus.trace.length + 8 ∧
      readByteLoop (8 + k) u = readByteLoop 8 u ∧
      (readByteLoop 8 u).bus.trace.length = u.bus.trace.length + 8) ∧
    ∀ (b : Byte) (u : OwUnit),
      writeByte b u = writeByteLoop b 8 { u with mask := 0x01 } ∧
        readByte u = readByteLoop 8 { u with shift := 0x00, mask := 0x01 }

/-- `ow.write_byte` (R151): the byte's eight bits as write slots, bit 0 first. -/
def Obligations.WriteBytePutsEightSlots : Prop :=
  ∀ (b : Byte) (s : State),
    exec (.owWriteByte b) s =
      .next
        (finish 0x00
          { s with
            ow :=
              { s.ow with
                drive := false
                timer := 0
                mask := 0
                bus :=
                  s.ow.bus.record
                    [.wr b[0], .wr b[1], .wr b[2], .wr b[3], .wr b[4], .wr b[5], .wr b[6], .wr b[7]] } })

/-- `ow.read_byte` (R152): eight read slots; bit `i` of the result is the sample of slot `i`. -/
def Obligations.ReadByteAssemblesEightSamples : Prop :=
  ∀ s : State, ∃ b : Byte,
    (∀ i : Nat, i < 8 → some (b.getLsbD i) = (s.ow.bus.upcoming 8)[i]?) ∧
      exec .owReadByte s =
        .next
          (finish b
            { s with
              ow :=
                { s.ow with
                  drive := false
                  timer := 0
                  mask := 0
                  shift := b
                  bus := (s.ow.bus.afterDraws 8).record ((s.ow.bus.upcoming 8).map .rd) } })

/-- R155: on a line whose read slots return, in order, the bits last written, `ow.write_byte b` followed by
`ow.read_byte` returns `b`. The loopback line's levels are read off the trace of the write. -/
def Obligations.LoopbackReturnsTheByte : Prop :=
  ∀ (b : Byte) (s t : State) (written rest : List Bit),
    exec (.owWriteByte b) s = .next t → t.ow.bus.trace = s.ow.bus.trace ++ written.map .wr →
      ∃ r, exec .owReadByte { t with ow := { t.ow with bus := { t.ow.bus with levels := written ++ rest } } } = .next r ∧
        r.resVal = b ∧ r.resReason = .none

/-! ### The single-wire unit: CRC, ROM, selection, alarm search -/

/-- R170: one call folds the byte's bits, least significant first, into a register that shifts right, XOR 0x8C when the
feedback bit is 1; the other form the rule gives (XOR 0x18, shift, set bit 7) is the same function; and the rule's
worked example, step by step. -/
def Obligations.CrcFormsAgree : Prop :=
  (∀ crc b : Byte,
    crc8Update crc b =
        (List.range 8).foldl
          (fun (c : Byte) i => if xor (c.getLsbD 0) (b.getLsbD i) then (c >>> 1) ^^^ 0x8C else c >>> 1) crc ∧
      crc8Update crc b =
        (List.range 8).foldl
          (fun (c : Byte) i =>
            let fb := xor (c.getLsbD 0) (b.getLsbD i)
            ((if fb then c ^^^ 0x18 else c) >>> 1) ||| (if fb then 0x80 else 0x00))
          crc) ∧
    (List.range 8).map (fun k => (List.range (k + 1)).foldl (fun c i => crcStep c ((0x28 : Byte).getLsbD i)) 0x00) =
      [0x00, 0x00, 0x00, 0x8C, 0x46, 0xAF, 0xDB, 0xE1] ∧
    crc8Update 0x00 0x28 = 0xE1

/-- R172: folding a byte into a CRC equal to it gives 0, so the CRC over all 8 bytes of a code is 0 exactly when the
code is valid; the all-zero code is valid, the all-ones code is not and its CRC is 0x14. -/
def Obligations.CrcOfAWholeCode : Prop :=
  (∀ c : Byte, crc8Update c c = 0x00) ∧
    (∀ code : Vector Byte 8, crc8 code.toList = 0x00 ↔ romValid code = true) ∧
    romValid (Vector.replicate 8 0x00) = true ∧ romValid (Vector.replicate 8 0xFF) = false ∧
    crc8 (List.replicate 7 0xFF) = 0x14

/-- R171: for a fixed byte sequence the final CRC is a one-to-one function of the initial one, and computing it byte by
byte or over a concatenation in one pass is the same. -/
def Obligations.CrcFoldsByteByByte : Prop :=
  (∀ (bs : List Byte) (c c' : Byte), bs.foldl crc8Update c = bs.foldl crc8Update c' → c = c') ∧
    ∀ xs ys : List Byte, crc8 (xs ++ ys) = ys.foldl crc8Update (crc8 xs)

/-- `ow.read_rom` (R174): with no device, `Absence` after the reset event alone; else the command byte and 64 read
slots, and the code in hbuf[0..7] if its CRC holds, hbuf untouched and `DataIntegrity` if not. -/
def Obligations.ReadRomOutcomes : Prop :=
  ∀ s : State,
    let level := s.ow.bus.draw.1
    let bus := s.ow.bus.draw.2
    let code := bus.upcomingRom
    let absent : State := { s with ow := { s.ow with drive := false, timer := 0, bus := bus.record [.reset true] } }
    let present : State :=
      { s with
        ow :=
          { s.ow with
            drive := false
            timer := 0
            mask := 0
            shift := code[7]
            scratch := code
            crc := crc8 (code.toList.take 7)
            bus :=
              (bus.afterDraws 64).record
                (.reset false :: byteSlots s.par.cmdReadRom ++ (bus.upcoming 64).map .rd) } }
    exec .owReadRom s =
      .next
        (if level then raise .absence absent
        else if crc8 (code.toList.take 7) = code[7] then finish 0x01 (memWriteFrom 0 code.toList present)
        else raise .dataIntegrity present)

/-- What `ow.read_rom` leaves in hbuf (R173, R174): on success the eight bytes of a valid code at indexes 0 to 7, every
other byte as before; on any failure every byte as before. -/
def Obligations.ReadRomWritesOnlyAValidCode : Prop :=
  ∀ s t : State, exec .owReadRom s = .next t →
    (t.resReason = .none → romValid t.ow.scratch = true ∧
      (∀ i : Fin 8, t.hbufByte (BitVec.ofNat 8 i) = some t.ow.scratch[i]) ∧
      ∀ a : Byte, 8 ≤ a.toNat → t.hbufByte a = s.hbufByte a) ∧
      (t.resReason ≠ .none → ∀ a : Byte, t.hbufByte a = s.hbufByte a)

/-- `ow.match_rom` (R175) and `ow.skip_rom` (R176): write slots of the command byte, and of hbuf[0..7] in order for
the first; no reset, no read, no check. A byte of hbuf that nothing has written is sent as a free byte (log 4). -/
def Obligations.SelectionSendsTheBytes : Prop :=
  ∀ s : State,
    let sent (es : List OwEvent) : OwUnit :=
      { s.ow with drive := false, timer := 0, mask := 0, bus := s.ow.bus.record es }
    exec .owSkipRom s = .next (finish 0x00 { s with ow := sent (byteSlots s.par.cmdSkipRom) }) ∧
      exec .owMatchRom s =
        .next
          (finish 0x00
            { s with
              fresh := freshAfter s.hbuf [0, 1, 2, 3, 4, 5, 6, 7] s.fresh
              ow :=
                sent
                  (byteSlots s.par.cmdMatchRom ++
                    (hbufBytes s.hbuf [0, 1, 2, 3, 4, 5, 6, 7] s.fresh).flatMap byteSlots) })

/-- `ow.alarm_search` (R177): `Absence`, or the command byte and two response bits; (1,1) is no alarm and writes
nothing; (0,1) writes 0, (1,0) writes 1, (0,0) writes `ALARM_DIR_00`, whatever that parameter is. -/
def Obligations.AlarmSearchOutcomes : Prop :=
  ∀ s : State,
    let level := s.ow.bus.draw.1
    let bus := s.ow.bus.draw.2
    let b0 := bus.draw.1
    let b1 := bus.draw.2.draw.1
    let absent : State := { s with ow := { s.ow with drive := false, timer := 0, bus := bus.record [.reset true] } }
    let present (last : List OwEvent) : State :=
      { s with
        ow :=
          { s.ow with
            drive := false
            timer := 0
            mask := 0
            b0 := b0
            b1 := b1
            bus :=
              bus.draw.2.draw.2.record
                (.reset false :: byteSlots s.par.cmdAlarmSearch ++ [.rd b0, .rd b1] ++ last) } }
    exec .owAlarmSearch s =
      .next
        (match level, b0, b1 with
        | true, _, _ => raise .absence absent
        | false, true, true => finish 0x00 (present [])
        | false, false, true => finish 0x01 (present [.wr false])
        | false, true, false => finish 0x01 (present [.wr true])
        | false, false, false => finish 0x01 (present [.wr s.par.alarmDir00]))

/-- R180: opcode 0x0A, format `Z`, is `ow.search_rom`; it drives no bus and changes no state but the result registers
(and `busy`, `seq`, as the end of every command does): `(0x00, Unsupported)`. -/
def Obligations.SearchRomIsAFlaggedNoOp : Prop :=
  (∀ w : Word24, decode w = .instr .owSearchRom ↔ w.extractLsb' 0 8 = 0x0A) ∧
    ∀ s : State,
      exec .owSearchRom s =
        .next { s with resVal := 0x00, resReason := .unsupported, busy := false, seq := .idle }

/-- The waveform of every single-wire command (R105 to R108, R136, R323): each puts events on the line whose waveform,
one after another, is exactly that of R105 to R108; the time that passes is their nominal length; the samples in the
waveform are the levels the slaves leave the line at, in order; and the line ends released. -/
def Obligations.SingleWireWaveform : Prop :=
  ∀ (i : Instr) (s t : State), i.isOw = true → exec i s = .next t →
    ∃ es : List OwEvent,
      t.ow.bus.trace = s.ow.bus.trace ++ es ∧
      t.ow.bus.marks = s.ow.bus.marks ++ waveOf s.ow.bus.clock es ∧
      t.ow.bus.clock = s.ow.bus.clock + durationOf es ∧
      (let samples := es.filterMap OwEvent.sampled
       samples = s.ow.bus.upcoming samples.length ∧
         t.ow.bus.levels = (s.ow.bus.afterDraws samples.length).levels ∧
         t.ow.bus.drawn = (s.ow.bus.afterDraws samples.length).drawn) ∧
      (s.ow.drive = false → t.ow.drive = false)

/-- How long each single-wire command takes (R323). -/
def Obligations.SingleWireDurations : Prop :=
  ∀ (i : Instr) (s t : State), exec i s = .next t →
    let took (n : Nat) := t.ow.bus.clock = s.ow.bus.clock + n
    (match i with
      | .owDetectPresence => took 960
      | .owWriteBit _ => took 65
      | .owReadBit => took 59
      | .owIsBusy => took 59
      | .owWriteByte _ => took 520
      | .owSkipRom => took 520
      | .owReadByte => took 472
      | .owMatchRom => took 4680
      | .owReadRom => if t.resReason = .absence then took 960 else took 5256
      | .owAlarmSearch =>
        if t.resReason = .absence then took 960
        else if t.ow.b0 && t.ow.b1 then took 1598 else took 1663
      | .owSearchRom => took 0
      | .twEnable | .twDisable | .twIsEnabled | .twOpen _ | .twClose | .twWriteByte _ | .twWriteStr _ | .twReadCh _
      | .twReadStr _ _ => True)

/-- The frame of the single-wire commands: unit TW, `cmd`, the parameters and the host's port stay; so does each
register but the ones the rule of the command names (R49), and each byte of hbuf but for `ow.read_rom`. -/
def Obligations.SingleWireFrame : Prop :=
  ∀ (i : Instr) (s t : State), i.isOw = true → exec i s = .next t →
    t.tw = s.tw ∧ t.cmd = s.cmd ∧ t.par = s.par ∧ t.host = s.host ∧ t.hbRdata = s.hbRdata ∧
      (i ≠ .owReadRom → t.ow.scratch = s.ow.scratch ∧ t.ow.crc = s.ow.crc ∧
        (∀ a : Byte, t.hbufByte a = s.hbufByte a) ∧ (i ≠ .owReadByte → t.ow.shift = s.ow.shift)) ∧
      (i ≠ .owAlarmSearch → t.ow.b0 = s.ow.b0 ∧ t.ow.b1 = s.ow.b1) ∧
      ((i = .owDetectPresence ∨ (∃ v, i = .owWriteBit v) ∨ i = .owReadBit ∨ i = .owIsBusy ∨ i = .owSearchRom) →
        t.ow.mask = s.ow.mask)

/-- The single-wire commands learn nothing from unit TW and do nothing to it (R241, R63). -/
def Obligations.SingleWireIgnoresTwoWire : Prop :=
  ∀ (i : Instr) (s t : State) (u : TwUnit), i.isOw = true → exec i s = .next t →
    exec i { s with tw := u } = .next { t with tw := u }

/-! ### The two-wire unit: control -/

/-- `tw.enable` (R201): the guarded writes; a second one changes nothing. `tw.is_enabled` (R203): the flag. -/
def Obligations.EnableAndIsEnabled : Prop :=
  ∀ s : State,
    exec .twEnable s =
        .next
          (finish 0x00
            (if s.tw.enabled then s else { s with tw := { s.tw with pullup := true, enabled := true } })) ∧
      exec .twIsEnabled s = .next (finish (if s.tw.enabled then 0x01 else 0x00) s)

/-- `tw.disable` (R202): both writes between transactions; refused in the middle of a transaction or while a phase is
pending (U7). -/
def Obligations.DisableBetweenTransactions : Prop :=
  ∀ s : State,
    (s.tw.state = .idle → s.tw.req = .none →
      exec .twDisable s = .next (finish 0x00 { s with tw := { s.tw with pullup := false, enabled := false } })) ∧
      (s.tw.state ≠ .idle ∨ s.tw.req ≠ .none → exec .twDisable s = .refused .twDisableInTransaction)

/-- R231: a transfer while the unit is disabled or outside the state of R230 is refused, and inside them it is not
(`tw.close` and a count of 0 are in statements of their own). R231's third case, a read before any `tw.open`, falls
under the state: that `OpenW` stands for it is an inference of the model (log 9). -/
def Obligations.TransactionsRefusedOutsideTheirState : Prop :=
  ∀ (i : Instr) (need : TwState) (code : List TwOp) (s : State), Instr.transfer i = some (need, code) →
    (s.tw.enabled = false → exec i s = .refused .twDisabled) ∧
      (s.tw.enabled = true → s.tw.state ≠ need → exec i s = .refused .twWrongState) ∧
      (s.tw.enabled = true → s.tw.state = need → ∃ t, exec i s = .next t)

/-- `tw.read_str` with a count of 0 is `Illegal` in every state, before its precondition is looked at (R97, R269). No
word decodes to it; that its meaning answers so is the model's choice (log 13). -/
def Obligations.ReadStrOfNothingIsIllegal : Prop :=
  ∀ (reg : Byte) (s : State),
    exec (.twReadStr reg 0) s =
      .next { s with resVal := 0x00, resReason := .illegal, busy := false, seq := .idle }

/-! ### The two-wire unit: open, close, write -/

/-- `tw.open` (R232) when both phases give the expected status: `OpenW`, the address retained, the bus owned. Stops
still to come are on the bus before the start (R208). -/
def Obligations.OpenSucceeds : Prop :=
  ∀ (a : BitVec 7) (s : State) (b' : TwBus) (d0 d1 : Byte),
    s.tw.enabled = true → s.tw.state = .idle →
    s.tw.bus.completes [(s.par.stStart, d0), (s.par.stSlawAck, d1)] b' →
      exec (.twOpen a) s =
        .next
          (finish 0x01
            { s with
              tw :=
                { s.tw with
                  addr := a
                  data := (a.zeroExtend 8 <<< 1) ||| bitByte s.par.dirWrite
                  status := s.par.stSlawAck
                  flag := true
                  owned := true
                  req := .none
                  state := .openW
                  bus :=
                    s.tw.bus.after b'
                      [.start s.par.stStart,
                        .tx ((a.zeroExtend 8 <<< 1) ||| bitByte s.par.dirWrite) s.par.stSlawAck] } })

/-- `tw.open` (R232) when a status is not the expected one: `ProtocolMismatch`, `Failed`, no later phase, no stop; the
address is retained all the same. -/
def Obligations.OpenStopsAtAFailedCheck : Prop :=
  ∀ (a : BitVec 7) (s : State) (b' : TwBus) (x d0 d1 : Byte),
    s.tw.enabled = true → s.tw.state = .idle →
    (s.tw.bus.completes [(x, d0)] b' → x ≠ s.par.stStart →
      exec (.twOpen a) s =
        .next
          (raise .protocolMismatch
            { s with
              tw :=
                { s.tw with
                  addr := a
                  status := x
                  flag := true
                  owned := s.tw.ownedAfterStops || x == s.par.stRepStart
                  req := .none
                  state := .failed
                  bus := s.tw.bus.after b' [.start x] } })) ∧
      (s.tw.bus.completes [(s.par.stStart, d0), (x, d1)] b' → x ≠ s.par.stSlawAck →
        exec (.twOpen a) s =
          .next
            (raise .protocolMismatch
              { s with
                tw :=
                  { s.tw with
                    addr := a
                    data := addressByte s.par a .write
                    status := x
                    flag := true
                    owned := true
                    req := .none
                    state := .failed
                    bus := s.tw.bus.after b' [.start s.par.stStart, .tx (addressByte s.par a .write) x] } }))

/-- `tw.close` (R233): defined in every transaction state while enabled; the stop is requested and not waited for, the
flag, the status and the address stay. -/
def Obligations.CloseFromAnyState : Prop :=
  ∀ s : State,
    (s.tw.enabled = false → exec .twClose s = .refused .twDisabled) ∧
      (s.tw.enabled = true →
        exec .twClose s =
          .next
            (finish 0x00
              { s with
                tw :=
                  { s.tw with
                    req := .stop
                    state := .idle
                    bus := { s.tw.bus with stops := s.tw.bus.stops + 1 } } }))

/-- R208: while the sequencer is idle, the BIU puts one stop that is still to come on the bus and lets the bus go; the
latch is empty again when it was the last. That it is one stop at each step with nothing offered is the model's choice
(log 10). -/
def Obligations.BiuFinishesTheStop : Prop :=
  ∀ (s : State) (rest : List Input) (k : Nat),
    s.busy = false → s.host = .idle :: rest → s.tw.bus.stops = k + 1 → s.tw.req = .stop →
      step s =
        .next
          { s with
            host := rest
            tw :=
              { s.tw with
                owned := false
                req := if k = 0 then .none else .stop
                bus := { s.tw.bus with stops := k, trace := s.tw.bus.trace ++ [.stop] } } }

/-- `tw.write_byte` (R234): one send phase; success on exactly the data-ACK status, else `ProtocolMismatch` and
`Failed`. -/
def Obligations.TwWriteByteOutcomes : Prop :=
  ∀ (data : Byte) (s : State) (b' : TwBus) (x d : Byte),
    s.tw.enabled = true → s.tw.state = .openW → s.tw.bus.completes [(x, d)] b' →
      let sent (st : TwState) : State :=
        { s with
          tw :=
            { s.tw with
              data := data
              status := x
              flag := true
              owned := s.tw.ownedAfterStops
              req := .none
              state := st
              bus := s.tw.bus.after b' [.tx data x] } }
      exec (.twWriteByte data) s =
        .next
          (if x = s.par.stTxDataAck then finish 0x01 (sent .openW) else raise .protocolMismatch (sent .failed))

/-- `tw.write_str` (R235) when every phase gives the data-ACK status: the bytes hbuf[0..n-1] in order; with `n` = 0
nothing is sent and nothing but the result changes. A byte of hbuf that nothing has written is sent as a free byte
(log 4), and the final `tw_idx` is the model's reading of the loop (log 14). -/
def Obligations.WriteStrSucceeds : Prop :=
  ∀ (n : Byte) (s : State) (b' : TwBus) (ds : List Byte),
    s.tw.enabled = true → s.tw.state = .openW → ds.length = n.toNat →
    s.tw.bus.completes (ds.map fun d => (s.par.stTxDataAck, d)) b' →
      let bytes := hbufBytes s.hbuf (indexes n.toNat) s.fresh
      exec (.twWriteStr n) s =
        .next
          (finish 0x01
            (if n = 0 then s
            else
              { s with
                fresh := freshAfter s.hbuf (indexes n.toNat) s.fresh
                tw :=
                  { s.tw with
                    data := bytes.getLastD 0
                    status := s.par.stTxDataAck
                    flag := true
                    owned := s.tw.ownedAfterStops
                    idx := n - 1
                    req := .none
                    bus := s.tw.bus.after b' (bytes.map fun b => .tx b s.par.stTxDataAck) } }))

/-- `tw.write_str` (R235) when the phase of byte `m` gives another status: bytes 0 to `m` have been on the bus, the
rest have not; `ProtocolMismatch` and `Failed`. A byte that nothing has written is a free byte (log 4), and the final
`tw_idx` is the model's reading of the loop (log 14). -/
def Obligations.WriteStrStopsAtTheFirstMismatch : Prop :=
  ∀ (n : Byte) (m : Nat) (s : State) (b' : TwBus) (ds : List Byte) (x d : Byte),
    s.tw.enabled = true → s.tw.state = .openW → m < n.toNat → ds.length = m → x ≠ s.par.stTxDataAck →
    s.tw.bus.completes (ds.map (fun d => (s.par.stTxDataAck, d)) ++ [(x, d)]) b' →
      let bytes := hbufBytes s.hbuf (indexes (m + 1)) s.fresh
      exec (.twWriteStr n) s =
        .next
          (raise .protocolMismatch
            { s with
              fresh := freshAfter s.hbuf (indexes (m + 1)) s.fresh
              tw :=
                { s.tw with
                  data := bytes.getLastD 0
                  status := x
                  flag := true
                  owned := s.tw.ownedAfterStops
                  idx := BitVec.ofNat 8 m
                  req := .none
                  state := .failed
                  bus :=
                    s.tw.bus.after b'
                      ((bytes.take m).map (fun b => .tx b s.par.stTxDataAck) ++ [.tx (bytes.getLastD 0) x]) } })

/-! ### The two-wire unit: reads -/

/-- `tw.read_ch` (R236) when the four checks pass: the received byte in hbuf[0], `OpenR`, no stop. -/
def Obligations.ReadChSucceeds : Prop :=
  ∀ (reg : Byte) (s : State) (b' : TwBus) (d0 d1 d2 d : Byte),
    s.tw.enabled = true → s.tw.state = .openW → s.tw.bus.completes (readDraws s.par d0 d1 d2 [] d) b' →
      exec (.twReadCh reg) s =
        .next
          (finish 0x01
            (memWrite 0 d
              { s with
                tw :=
                  { s.tw with
                    data := d
                    status := s.par.stRxDataNack
                    flag := true
                    owned := true
                    req := .none
                    state := .openR
                    bus :=
                      s.tw.bus.after b'
                        (selectEvents s.par reg s.tw.addr ++ [.rx false d s.par.stRxDataNack]) } }))

/-- `tw.read_str` (R237, R238) when every check passes: exactly `n - 1` receives answered ACK and then one answered
NACK, and no other receive; the bytes in hbuf[0..n-1] in the order received; `OpenR`, no stop. The final `tw_idx` is
the model's reading of the loop (log 14). -/
def Obligations.ReadStrSucceeds : Prop :=
  ∀ (reg n : Byte) (s : State) (b' : TwBus) (d0 d1 d2 : Byte) (acked : List Byte) (last : Byte),
    s.tw.enabled = true → s.tw.state = .openW → acked.length + 1 = n.toNat →
    s.tw.bus.completes (readDraws s.par d0 d1 d2 acked last) b' →
      exec (.twReadStr reg n) s =
        .next
          (finish 0x01
            (memWriteFrom 0 (acked ++ [last])
              { s with
                tw :=
                  { s.tw with
                    data := last
                    status := s.par.stRxDataNack
                    flag := true
                    owned := true
                    idx := if acked = [] then s.tw.idx else n - 2
                    req := .none
                    state := .openR
                    bus :=
                      s.tw.bus.after b'
                        (selectEvents s.par reg s.tw.addr ++ acked.map (fun d => .rx true d s.par.stRxDataAck) ++
                          [.rx false last s.par.stRxDataNack]) } }))

/-- Both reads (R236, R237) when one of the three addressing phases gives another status: `ProtocolMismatch`,
`Failed`, nothing received, hbuf as before, no later phase. -/
def Obligations.ReadFailsWhileAddressing : Prop :=
  ∀ (i : Instr) (reg n : Byte) (s : State) (b' : TwBus) (x d0 d1 d2 : Byte),
    i = .twReadCh reg ∨ i = .twReadStr reg n ∧ n ≠ 0 → s.tw.enabled = true → s.tw.state = .openW →
      let failed (data : Byte) (owned : Bit) (es : List TwEvent) : State :=
        raise .protocolMismatch
          { s with
            tw :=
              { s.tw with
                data := data
                status := x
                flag := true
                owned := owned
                req := .none
                state := .failed
                bus := s.tw.bus.after b' es } }
      (s.tw.bus.completes [(x, d0)] b' → x ≠ s.par.stTxDataAck →
        exec i s = .next (failed reg s.tw.ownedAfterStops [.tx reg x])) ∧
      (s.tw.bus.completes [(s.par.stTxDataAck, d0), (x, d1)] b' → x ≠ s.par.stRepStart →
        exec i s =
          .next (failed reg (s.tw.ownedAfterStops || x == s.par.stStart) [.tx reg s.par.stTxDataAck, .start x])) ∧
      (s.tw.bus.completes [(s.par.stTxDataAck, d0), (s.par.stRepStart, d1), (x, d2)] b' → x ≠ s.par.stSlarAck →
        exec i s =
          .next
            (failed (addressByte s.par s.tw.addr .read) true
              [.tx reg s.par.stTxDataAck, .start s.par.stRepStart,
                .tx (addressByte s.par s.tw.addr .read) x]))

/-- `tw.read_str` (R237, R268) when the receive of byte `m` gives another status: the `m` bytes before it stay in
hbuf, it is not written, no later phase; `ProtocolMismatch` and `Failed`. -/
def Obligations.ReadStrKeepsTheBytesBeforeAFailure : Prop :=
  ∀ (reg n : Byte) (s : State) (b' : TwBus) (d0 d1 d2 : Byte) (acked : List Byte) (x d : Byte),
    s.tw.enabled = true → s.tw.state = .openW → acked.length < n.toNat →
    x ≠ (if acked.length + 1 = n.toNat then s.par.stRxDataNack else s.par.stRxDataAck) →
    s.tw.bus.completes
      ([(s.par.stTxDataAck, d0), (s.par.stRepStart, d1), (s.par.stSlarAck, d2)] ++
        acked.map (fun d => (s.par.stRxDataAck, d)) ++ [(x, d)]) b' →
      ∃ t, exec (.twReadStr reg n) s = .next t ∧ t.resVal = 0x00 ∧ t.resReason = .protocolMismatch ∧
        t.busy = false ∧ t.tw.state = .failed ∧ t.tw.status = x ∧
        t.tw.bus =
          s.tw.bus.after b'
            (selectEvents s.par reg s.tw.addr ++ acked.map (fun d => .rx true d s.par.stRxDataAck) ++
              [.rx (decide (acked.length + 1 ≠ n.toNat)) d x]) ∧
        t.hbuf = (memWriteFrom 0 acked s).hbuf

/-- `tw.read_ch` (R236) when the receive gives another status than data NACK: hbuf is as before. -/
def Obligations.ReadChDiscardsAMismatchedByte : Prop :=
  ∀ (reg : Byte) (s : State) (b' : TwBus) (d0 d1 d2 x d : Byte),
    s.tw.enabled = true → s.tw.state = .openW → x ≠ s.par.stRxDataNack →
    s.tw.bus.completes
      [(s.par.stTxDataAck, d0), (s.par.stRepStart, d1), (s.par.stSlarAck, d2), (x, d)] b' →
      exec (.twReadCh reg) s =
        .next
          (raise .protocolMismatch
            { s with
              tw :=
                { s.tw with
                  data := d
                  status := x
                  flag := true
                  owned := true
                  req := .none
                  state := .failed
                  bus := s.tw.bus.after b' (selectEvents s.par reg s.tw.addr ++ [.rx false d x]) } })

/-! ### The two-wire unit: waiting, hanging, recovering -/

/-- R209: while the phase is not over the sequencer holds, at the first `WaitFlag` of a transfer and at any later one,
whatever word is offered: `busy` is 1, no result is posted, the flag is down, the phase stays pending, and nothing more
of the command has happened. That stops still to come are on the bus after a poll that finds the phase not over yet, and
not after one that finds it dead, is the model's choice (log 10). -/
def Obligations.TransferHoldsUntilTheFlag : Prop :=
  ∀ (x : PhaseDraw) (ds : List PhaseDraw), x = .later ∨ x = .never →
    (∀ (i : Instr) (need : TwState) (code : List TwOp) (s : State),
      Instr.transfer i = some (need, code) → i ≠ .twWriteStr 0 → s.tw.enabled = true → s.tw.state = need →
      s.par.twTimeout = none → s.tw.bus.phases = x :: ds →
        ∃ t, exec i s = .next t ∧ t.busy = true ∧ t.seq ≠ .idle ∧ t.resVal = s.resVal ∧ t.resReason = s.resReason ∧
          t.tw.flag = false ∧ t.tw.req.pending = true ∧ t.tw.state = need ∧ t.tw.bus.phases = ds ∧
          t.tw.bus.trace = s.tw.bus.trace ++ (if x = .later then List.replicate s.tw.bus.stops .stop else []) ∧
          t.hbuf = s.hbuf) ∧
      ∀ (s : State) (more : List TwOp), s.busy = true → s.seq = .hold (.wait :: more) → s.tw.flag = false →
        s.tw.req.pending = true → s.tw.bus.dead = false → s.par.twTimeout = none → s.tw.bus.phases = x :: ds →
        (s.host = [] ∨ ∃ y rest, s.host = y :: rest ∧ y.ordinary = true) →
          ∃ t, step s = .next t ∧ t.busy = true ∧ t.seq = s.seq ∧ t.resVal = s.resVal ∧ t.resReason = s.resReason ∧
            t.tw.flag = false ∧ t.tw.req = s.tw.req ∧ t.tw.state = s.tw.state ∧ t.tw.bus.phases = ds ∧
            t.tw.bus.trace = s.tw.bus.trace ++ (if x = .later then List.replicate s.tw.bus.stops .stop else []) ∧
            t.hbuf = s.hbuf ∧ t.ow = s.ow ∧ t.cmd = s.cmd

/-- Delays are invisible (R209, R325): if a transfer ends at once on a script of phases that are each over at the first
poll, then on the same script with polls in between that find the phase not over yet, and with nothing offered, the
machine reaches the same state in some number of steps, what is left of the script apart. -/
def Obligations.DelaysAreInvisible : Prop :=
  ∀ (i : Instr) (need : TwState) (code : List TwOp) (s t : State) (ds : List PhaseDraw),
    Instr.transfer i = some (need, code) → s.par.twTimeout = none → s.host = [] → .never ∉ ds →
    s.tw.bus.phases = ds →
    exec i { s with tw := { s.tw with bus := { s.tw.bus with phases := withoutDelays ds } } } = .next t →
    t.busy = false →
      ∃ (t' : State) (k : Nat) (left : List PhaseDraw), exec i s = .next t' ∧
        Sys2Proof.core.run k t' =
          .next { t with tw := { t.tw with bus := { t.tw.bus with phases := left } } } ∧
        withoutDelays left = t.tw.bus.phases

/-- R274: a hung machine stays hung whatever is offered, for any number of steps: `busy` stays 1, no result is posted,
nothing comes onto either bus, and the phase stays pending. That a stop still to come before the hung phase stays back
as well is the model's choice (log 10). -/
def Obligations.HungForEver : Prop :=
  ∀ (k : Nat) (s t : State), Hung s → s.host.all Input.ordinary = true → Sys2Proof.core.run k s = .next t →
    Hung t ∧ t.resVal = s.resVal ∧ t.resReason = s.resReason ∧ t.cmd = s.cmd ∧ t.hbuf = s.hbuf ∧ t.ow = s.ow ∧
      t.tw.bus.trace = s.tw.bus.trace ∧ t.tw.req = s.tw.req ∧ t.tw.state = s.tw.state

/-- The one fault: a hung machine stops when the outside world has no input left, and in a state that meets the invariant
the machine stops in no other case (R274; that it then stops is the model's choice, log 8). -/
def Obligations.FaultsOnlyWhenHung : Prop :=
  (∀ s : State, Hung s → s.host = [] → step s = .fault .hung) ∧
    ∀ (s : State) (f : Fault), step s = .fault f →
      s.host = [] ∧ s.busy = true ∧ s.tw.flag = false ∧ s.tw.bus.dead = true ∧ s.par.twTimeout = none ∧
        (Invariant s → Hung s)

/-- With a finite bound on the wait (R209, a deviation of an implementation): a poll that exceeds it ends the command
with `Timeout` and `Failed`; a poll within it holds; and each wait is counted from its own request on, whatever an
earlier wait left. That the bound counts the polls that found the flag clear is the model's choice (log 11). -/
def Obligations.FiniteTimeout : Prop :=
  (∀ (s : State) (more : List TwOp) (bound : Nat),
    s.busy = true → s.seq = .hold (.wait :: more) → s.tw.flag = false → s.tw.req.pending = true →
    (s.tw.bus.dead = true ∨ ∃ ds, s.tw.bus.phases = .never :: ds ∨ s.tw.bus.phases = .later :: ds) →
    s.par.twTimeout = some bound → s.host = [] →
      ∃ t, step s = .next t ∧
        (if bound < s.tw.bus.waited + 1 then
          t.busy = false ∧ t.resVal = 0x00 ∧ t.resReason = .timeout ∧ t.tw.state = .failed
        else t.busy = true ∧ t.seq = s.seq ∧ t.tw.bus.waited = s.tw.bus.waited + 1 ∧ t.resReason = s.resReason)) ∧
    ∀ (i : Instr) (need : TwState) (code : List TwOp) (s : State) (bound : Nat) (ds : List PhaseDraw),
      Instr.transfer i = some (need, code) → i ≠ .twWriteStr 0 → s.tw.enabled = true → s.tw.state = need →
      s.par.twTimeout = some bound → s.tw.bus.phases = .never :: ds ∨ s.tw.bus.phases = .later :: ds →
        ∃ t, exec i s = .next t ∧
          (if bound = 0 then t.busy = false ∧ t.resVal = 0x00 ∧ t.resReason = .timeout ∧ t.tw.state = .failed
          else t.busy = true ∧ t.tw.bus.waited = 1 ∧ t.resReason = s.resReason)

/-- R240, R268: no command but `tw.close` requests a stop: what any other command puts on the two-wire bus holds no
`STOP` but those that were still to come before it, and a command that ends with `ProtocolMismatch` leaves `Failed`
(R262). -/
def Obligations.OnlyCloseStops : Prop :=
  ∀ (i : Instr) (s t : State), exec i s = .next t → i ≠ .twClose →
    (∃ es, t.tw.bus.trace = s.tw.bus.trace ++ es ∧ es.count .stop + t.tw.bus.stops = s.tw.bus.stops) ∧
      (t.resReason = .protocolMismatch → t.busy = false → (Instr.transfer i).isSome = true → t.tw.state = .failed)

/-- Recovery (R270): after a transfer that ended with `ProtocolMismatch`, `tw.close` succeeds, and then `tw.open` is
inside its precondition again. -/
def Obligations.CloseRecovers : Prop :=
  ∀ s : State, s.tw.enabled = true → s.tw.state = .failed →
    (∀ (i : Instr) (need : TwState) (code : List TwOp), Instr.transfer i = some (need, code) →
      exec i s = .refused .twWrongState) ∧
    ∃ t, exec .twClose s = .next t ∧ t.resReason = .none ∧ t.tw.state = .idle ∧ t.tw.enabled = true ∧
      ∀ a : BitVec 7, ∃ r, exec (.twOpen a) t = .next r

/-- R260: which command can end with which reason, with the result value 0 for each reason but `None`. -/
def Obligations.ReasonsByCommand : Prop :=
  ∀ (i : Instr) (s t : State), i.WellFormed → s.par.twTimeout = none → exec i s = .next t → t.busy = false →
    (t.resReason ≠ .none → t.resVal = 0x00) ∧
      (match t.resReason with
        | .none => True
        | .absence => i = .owDetectPresence ∨ i = .owReadRom ∨ i = .owAlarmSearch
        | .protocolMismatch => (Instr.transfer i).isSome = true
        | .dataIntegrity => i = .owReadRom
        | .unsupported => i = .owSearchRom
        | .timeout => False
        | .illegal => False)

/-- The frame of the two-wire commands, ended or held: unit OW, `cmd`, the parameters and the host's port stay; the
address changes only in `tw.open`, the index only in `tw.write_str` and `tw.read_str`, the enables only in
`tw.enable` and `tw.disable`; and every byte of hbuf stays but hbuf[0] in `tw.read_ch` and hbuf[0..n-1] in
`tw.read_str`. -/
def Obligations.TwoWireFrame : Prop :=
  ∀ (i : Instr) (s t : State), i.isOw = false → exec i s = .next t →
    t.ow = s.ow ∧ t.cmd = s.cmd ∧ t.par = s.par ∧ t.host = s.host ∧ t.hbRdata = s.hbRdata ∧
      ((∀ a, i ≠ .twOpen a) → t.tw.addr = s.tw.addr) ∧
      ((∀ n, i ≠ .twWriteStr n) → (∀ r n, i ≠ .twReadStr r n) → t.tw.idx = s.tw.idx) ∧
      (i ≠ .twEnable → i ≠ .twDisable → t.tw.enabled = s.tw.enabled ∧ t.tw.pullup = s.tw.pullup) ∧
      ∀ a : Byte,
        (match i with
          | .twReadCh _ => a ≠ 0
          | .twReadStr _ n => n.toNat ≤ a.toNat
          | _ => True) → t.hbufByte a = s.hbufByte a

/-- The two-wire commands learn nothing from unit OW and do nothing to it (R63). -/
def Obligations.TwoWireIgnoresSingleWire : Prop :=
  ∀ (i : Instr) (s t : State) (u : OwUnit), i.isOw = false → exec i s = .next t →
    exec i { s with ow := u } = .next { t with ow := u }

/-- R211 beside the checks of R232 to R237: for parameters as R9 asks, with two different direction bits, a transfer whose
every phase reports what the table gives for a slave that acknowledges passes every check the command makes and
succeeds, from a free bus for `tw.open` and from a transaction that `tw.open` or a write has left for the others; and it
leaves the next transfer such a transaction. -/
def Obligations.BehavingBiuPassesTheChecks : Prop :=
  ∀ (i : Instr) (need : TwState) (code : List TwOp) (s : State),
    Instr.transfer i = some (need, code) → s.par.Distinct → s.par.dirWrite ≠ s.par.dirRead →
    s.tw.enabled = true → s.tw.state = need →
    (need = .idle → s.tw.ownedAfterStops = false) →
    (need = .openW →
      s.tw.ownedAfterStops = true ∧ (s.tw.status = s.par.stSlawAck ∨ s.tw.status = s.par.stTxDataAck)) →
    FollowsTable code s →
      ∃ t, exec i s = .next t ∧ t.busy = false ∧ t.resVal = 0x01 ∧ t.resReason = .none ∧
        (t.tw.state = .openW →
          t.tw.ownedAfterStops = true ∧ (t.tw.status = s.par.stSlawAck ∨ t.tw.status = s.par.stTxDataAck))

/-! ### The host buffer -/

/-- R23, R60: while idle the host writes a byte and reads it back on `hb_rdata`, every other byte as before; while a
command is in flight an access is refused (U16). -/
def Obligations.HostAccess : Prop :=
  ∀ (s : State) (a v : Byte) (rest : List Input),
    (s.busy = false → s.host = .hostWrite a v :: .hostRead a :: rest →
      ∃ t r, step s = .next t ∧ t.hbufByte a = some v ∧ (∀ b : Byte, b ≠ a → t.hbufByte b = s.hbufByte b) ∧
        step t = .next r ∧ r = { t with host := rest, hbRdata := v }) ∧
      (s.busy = true → s.host = .hostWrite a v :: rest ∨ s.host = .hostRead a :: rest →
        step s = .refused .hbufWhileBusy)

/-! ### Invariants -/

/-- The state after reset meets the invariant. -/
def Obligations.ResetMeetsInv : Prop := Invariant State.reset

/-- Every step keeps the invariant, whatever the environment draws and whatever the host does. -/
def Obligations.StepKeepsInv : Prop := ∀ s t : State, Invariant s → step s = .next t → Invariant t
end

