-- ==== Sys2Proof/Laws/Encoding.lean ====
section
/-! SUPPORT. The fields of a word assembled from its fields (30_encoding.md R91). -/

namespace Sys2Proof

/-- The number of a word made of its fields. -/
theorem toNat_wordOf (op : BitVec 5) (arg n : Byte) :
    (wordOf op arg n).toNat = n.toNat * 65536 + arg.toNat * 256 + op.toNat := by
  have h0 := op.isLt
  have h1 := arg.isLt
  have h2 : (0#3 ++ op).toNat = op.toNat := by rw [BitVec.toNat_append]; simp
  have h3 : (n ++ arg).toNat = n.toNat * 256 + arg.toNat := by
    rw [BitVec.toNat_append, ← Nat.shiftLeft_add_eq_or_of_lt h1, Nat.shiftLeft_eq]
  have h4 : (wordOf op arg n).toNat = (n ++ arg).toNat <<< 8 ||| (0#3 ++ op).toNat := BitVec.toNat_append ..
  rw [h4, h2, h3, ← Nat.shiftLeft_add_eq_or_of_lt (by omega), Nat.shiftLeft_eq]
  omega

theorem fieldRsv_wordOf (op : BitVec 5) (arg n : Byte) : fieldRsv (wordOf op arg n) = 0 := by
  have h0 := op.isLt
  apply BitVec.eq_of_toNat_eq
  simp only [fieldRsv, BitVec.extractLsb'_toNat, toNat_wordOf, Nat.shiftRight_eq_div_pow]
  simp
  omega

theorem fieldOpcode_wordOf (op : BitVec 5) (arg n : Byte) : fieldOpcode (wordOf op arg n) = op := by
  have h0 := op.isLt
  apply BitVec.eq_of_toNat_eq
  simp only [fieldOpcode, BitVec.extractLsb'_toNat, toNat_wordOf, Nat.shiftRight_eq_div_pow]
  simp
  omega

theorem fieldArg_wordOf (op : BitVec 5) (arg n : Byte) : fieldArg (wordOf op arg n) = arg := by
  have h0 := op.isLt
  have h1 := arg.isLt
  apply BitVec.eq_of_toNat_eq
  simp only [fieldArg, BitVec.extractLsb'_toNat, toNat_wordOf, Nat.shiftRight_eq_div_pow]
  simp
  omega

theorem fieldN_wordOf (op : BitVec 5) (arg n : Byte) : fieldN (wordOf op arg n) = n := by
  have h0 := op.isLt
  have h1 := arg.isLt
  have h2 := n.isLt
  apply BitVec.eq_of_toNat_eq
  simp only [fieldN, BitVec.extractLsb'_toNat, toNat_wordOf, Nat.shiftRight_eq_div_pow]
  simp
  omega

end Sys2Proof
end

