-- ==== Sys2Proof/Laws/State.lean ====
section
/-! SUPPORT. One lemma per field per update of State, true by rfl: what each shared operation of Machine/Ops.lean leaves
in each field. Later proofs cite them and unfold no record update. -/

namespace Sys2Proof.Machine

/-! ### `accept` -/

@[simp] theorem accept_cmd (w : Word24) (s : State) : (accept w s).cmd = w := rfl
@[simp] theorem accept_busy (w : Word24) (s : State) : (accept w s).busy = true := rfl
@[simp] theorem accept_resVal (w : Word24) (s : State) : (accept w s).resVal = s.resVal := rfl
@[simp] theorem accept_resReason (w : Word24) (s : State) : (accept w s).resReason = s.resReason := rfl
@[simp] theorem accept_hbuf (w : Word24) (s : State) : (accept w s).hbuf = s.hbuf := rfl
@[simp] theorem accept_seq (w : Word24) (s : State) : (accept w s).seq = s.seq := rfl
@[simp] theorem accept_ow (w : Word24) (s : State) : (accept w s).ow = s.ow := rfl
@[simp] theorem accept_tw (w : Word24) (s : State) : (accept w s).tw = s.tw := rfl
@[simp] theorem accept_par (w : Word24) (s : State) : (accept w s).par = s.par := rfl
@[simp] theorem accept_host (w : Word24) (s : State) : (accept w s).host = s.host := rfl
@[simp] theorem accept_hbRdata (w : Word24) (s : State) : (accept w s).hbRdata = s.hbRdata := rfl
@[simp] theorem accept_fresh (w : Word24) (s : State) : (accept w s).fresh = s.fresh := rfl

/-! ### `finish` -/

@[simp] theorem finish_cmd (v : Byte) (s : State) : (finish v s).cmd = s.cmd := rfl
@[simp] theorem finish_busy (v : Byte) (s : State) : (finish v s).busy = false := rfl
@[simp] theorem finish_resVal (v : Byte) (s : State) : (finish v s).resVal = v := rfl
@[simp] theorem finish_resReason (v : Byte) (s : State) : (finish v s).resReason = Reason.none := rfl
@[simp] theorem finish_hbuf (v : Byte) (s : State) : (finish v s).hbuf = s.hbuf := rfl
@[simp] theorem finish_seq (v : Byte) (s : State) : (finish v s).seq = Seq.idle := rfl
@[simp] theorem finish_ow (v : Byte) (s : State) : (finish v s).ow = s.ow := rfl
@[simp] theorem finish_tw (v : Byte) (s : State) : (finish v s).tw = s.tw := rfl
@[simp] theorem finish_par (v : Byte) (s : State) : (finish v s).par = s.par := rfl
@[simp] theorem finish_host (v : Byte) (s : State) : (finish v s).host = s.host := rfl
@[simp] theorem finish_hbRdata (v : Byte) (s : State) : (finish v s).hbRdata = s.hbRdata := rfl
@[simp] theorem finish_fresh (v : Byte) (s : State) : (finish v s).fresh = s.fresh := rfl

/-! ### `raise` -/

@[simp] theorem raise_cmd (r : Reason) (s : State) : (raise r s).cmd = s.cmd := rfl
@[simp] theorem raise_busy (r : Reason) (s : State) : (raise r s).busy = false := rfl
@[simp] theorem raise_resVal (r : Reason) (s : State) : (raise r s).resVal = 0 := rfl
@[simp] theorem raise_resReason (r : Reason) (s : State) : (raise r s).resReason = r := rfl
@[simp] theorem raise_hbuf (r : Reason) (s : State) : (raise r s).hbuf = s.hbuf := rfl
@[simp] theorem raise_seq (r : Reason) (s : State) : (raise r s).seq = Seq.idle := rfl
@[simp] theorem raise_ow (r : Reason) (s : State) : (raise r s).ow = s.ow := rfl
@[simp] theorem raise_tw (r : Reason) (s : State) : (raise r s).tw = s.tw := rfl
@[simp] theorem raise_par (r : Reason) (s : State) : (raise r s).par = s.par := rfl
@[simp] theorem raise_host (r : Reason) (s : State) : (raise r s).host = s.host := rfl
@[simp] theorem raise_hbRdata (r : Reason) (s : State) : (raise r s).hbRdata = s.hbRdata := rfl
@[simp] theorem raise_fresh (r : Reason) (s : State) : (raise r s).fresh = s.fresh := rfl

/-! ### `hold` -/

@[simp] theorem hold_cmd (rest : List TwOp) (s : State) : (hold rest s).cmd = s.cmd := rfl
@[simp] theorem hold_busy (rest : List TwOp) (s : State) : (hold rest s).busy = true := rfl
@[simp] theorem hold_resVal (rest : List TwOp) (s : State) : (hold rest s).resVal = s.resVal := rfl
@[simp] theorem hold_resReason (rest : List TwOp) (s : State) : (hold rest s).resReason = s.resReason := rfl
@[simp] theorem hold_hbuf (rest : List TwOp) (s : State) : (hold rest s).hbuf = s.hbuf := rfl
@[simp] theorem hold_seq (rest : List TwOp) (s : State) : (hold rest s).seq = Seq.hold rest := rfl
@[simp] theorem hold_ow (rest : List TwOp) (s : State) : (hold rest s).ow = s.ow := rfl
@[simp] theorem hold_tw (rest : List TwOp) (s : State) : (hold rest s).tw = s.tw := rfl
@[simp] theorem hold_par (rest : List TwOp) (s : State) : (hold rest s).par = s.par := rfl
@[simp] theorem hold_host (rest : List TwOp) (s : State) : (hold rest s).host = s.host := rfl
@[simp] theorem hold_hbRdata (rest : List TwOp) (s : State) : (hold rest s).hbRdata = s.hbRdata := rfl
@[simp] theorem hold_fresh (rest : List TwOp) (s : State) : (hold rest s).fresh = s.fresh := rfl

/-! ### `memWrite` -/

@[simp] theorem memWrite_cmd (i v : Byte) (s : State) : (memWrite i v s).cmd = s.cmd := rfl
@[simp] theorem memWrite_busy (i v : Byte) (s : State) : (memWrite i v s).busy = s.busy := rfl
@[simp] theorem memWrite_resVal (i v : Byte) (s : State) : (memWrite i v s).resVal = s.resVal := rfl
@[simp] theorem memWrite_resReason (i v : Byte) (s : State) : (memWrite i v s).resReason = s.resReason := rfl
@[simp] theorem memWrite_hbuf (i v : Byte) (s : State) : (memWrite i v s).hbuf = Memory.write s.hbuf i.toNat v := rfl
@[simp] theorem memWrite_seq (i v : Byte) (s : State) : (memWrite i v s).seq = s.seq := rfl
@[simp] theorem memWrite_ow (i v : Byte) (s : State) : (memWrite i v s).ow = s.ow := rfl
@[simp] theorem memWrite_tw (i v : Byte) (s : State) : (memWrite i v s).tw = s.tw := rfl
@[simp] theorem memWrite_par (i v : Byte) (s : State) : (memWrite i v s).par = s.par := rfl
@[simp] theorem memWrite_host (i v : Byte) (s : State) : (memWrite i v s).host = s.host := rfl
@[simp] theorem memWrite_hbRdata (i v : Byte) (s : State) : (memWrite i v s).hbRdata = s.hbRdata := rfl
@[simp] theorem memWrite_fresh (i v : Byte) (s : State) : (memWrite i v s).fresh = s.fresh := rfl

/-! ### `memRead` -/

@[simp] theorem memRead_cmd (i : Byte) (s : State) : (memRead i s).2.cmd = s.cmd := rfl
@[simp] theorem memRead_busy (i : Byte) (s : State) : (memRead i s).2.busy = s.busy := rfl
@[simp] theorem memRead_resVal (i : Byte) (s : State) : (memRead i s).2.resVal = s.resVal := rfl
@[simp] theorem memRead_resReason (i : Byte) (s : State) : (memRead i s).2.resReason = s.resReason := rfl
@[simp] theorem memRead_hbuf (i : Byte) (s : State) : (memRead i s).2.hbuf = s.hbuf := rfl
@[simp] theorem memRead_seq (i : Byte) (s : State) : (memRead i s).2.seq = s.seq := rfl
@[simp] theorem memRead_ow (i : Byte) (s : State) : (memRead i s).2.ow = s.ow := rfl
@[simp] theorem memRead_tw (i : Byte) (s : State) : (memRead i s).2.tw = s.tw := rfl
@[simp] theorem memRead_par (i : Byte) (s : State) : (memRead i s).2.par = s.par := rfl
@[simp] theorem memRead_host (i : Byte) (s : State) : (memRead i s).2.host = s.host := rfl
@[simp] theorem memRead_hbRdata (i : Byte) (s : State) : (memRead i s).2.hbRdata = s.hbRdata := rfl

/-- Reading a written byte gives it and changes nothing. -/
theorem memRead_of_some (i : Byte) (s : State) (v : Byte) (h : s.hbufByte i = some v) : memRead i s = (v, s) := by
  simp [memRead, h]

/-! ### `memWriteFrom` -/

@[simp] theorem memWriteFrom_cmd (i : Byte) (vs : List Byte) (s : State) : (memWriteFrom i vs s).cmd = s.cmd := by
  induction vs generalizing i s with
  | nil => rfl
  | cons v vs ih => simp [memWriteFrom, ih]
@[simp] theorem memWriteFrom_busy (i : Byte) (vs : List Byte) (s : State) : (memWriteFrom i vs s).busy = s.busy := by
  induction vs generalizing i s with
  | nil => rfl
  | cons v vs ih => simp [memWriteFrom, ih]
@[simp] theorem memWriteFrom_resVal (i : Byte) (vs : List Byte) (s : State) : (memWriteFrom i vs s).resVal = s.resVal := by
  induction vs generalizing i s with
  | nil => rfl
  | cons v vs ih => simp [memWriteFrom, ih]
@[simp] theorem memWriteFrom_resReason (i : Byte) (vs : List Byte) (s : State) : (memWriteFrom i vs s).resReason = s.resReason := by
  induction vs generalizing i s with
  | nil => rfl
  | cons v vs ih => simp [memWriteFrom, ih]
@[simp] theorem memWriteFrom_seq (i : Byte) (vs : List Byte) (s : State) : (memWriteFrom i vs s).seq = s.seq := by
  induction vs generalizing i s with
  | nil => rfl
  | cons v vs ih => simp [memWriteFrom, ih]
@[simp] theorem memWriteFrom_ow (i : Byte) (vs : List Byte) (s : State) : (memWriteFrom i vs s).ow = s.ow := by
  induction vs generalizing i s with
  | nil => rfl
  | cons v vs ih => simp [memWriteFrom, ih]
@[simp] theorem memWriteFrom_tw (i : Byte) (vs : List Byte) (s : State) : (memWriteFrom i vs s).tw = s.tw := by
  induction vs generalizing i s with
  | nil => rfl
  | cons v vs ih => simp [memWriteFrom, ih]
@[simp] theorem memWriteFrom_par (i : Byte) (vs : List Byte) (s : State) : (memWriteFrom i vs s).par = s.par := by
  induction vs generalizing i s with
  | nil => rfl
  | cons v vs ih => simp [memWriteFrom, ih]
@[simp] theorem memWriteFrom_host (i : Byte) (vs : List Byte) (s : State) : (memWriteFrom i vs s).host = s.host := by
  induction vs generalizing i s with
  | nil => rfl
  | cons v vs ih => simp [memWriteFrom, ih]
@[simp] theorem memWriteFrom_hbRdata (i : Byte) (vs : List Byte) (s : State) : (memWriteFrom i vs s).hbRdata = s.hbRdata := by
  induction vs generalizing i s with
  | nil => rfl
  | cons v vs ih => simp [memWriteFrom, ih]
@[simp] theorem memWriteFrom_fresh (i : Byte) (vs : List Byte) (s : State) : (memWriteFrom i vs s).fresh = s.fresh := by
  induction vs generalizing i s with
  | nil => rfl
  | cons v vs ih => simp [memWriteFrom, ih]

/-! ### `request` -/

@[simp] theorem request_cmd (r : Request) (s : State) : (request r s).cmd = s.cmd := by
  cases r with
  | send b => cases b <;> rfl
  | _ => rfl
@[simp] theorem request_busy (r : Request) (s : State) : (request r s).busy = s.busy := by
  cases r with
  | send b => cases b <;> rfl
  | _ => rfl
@[simp] theorem request_resVal (r : Request) (s : State) : (request r s).resVal = s.resVal := by
  cases r with
  | send b => cases b <;> rfl
  | _ => rfl
@[simp] theorem request_resReason (r : Request) (s : State) : (request r s).resReason = s.resReason := by
  cases r with
  | send b => cases b <;> rfl
  | _ => rfl
@[simp] theorem request_hbuf (r : Request) (s : State) : (request r s).hbuf = s.hbuf := by
  cases r with
  | send b => cases b <;> rfl
  | _ => rfl
@[simp] theorem request_seq (r : Request) (s : State) : (request r s).seq = s.seq := by
  cases r with
  | send b => cases b <;> rfl
  | _ => rfl
@[simp] theorem request_ow (r : Request) (s : State) : (request r s).ow = s.ow := by
  cases r with
  | send b => cases b <;> rfl
  | _ => rfl
@[simp] theorem request_par (r : Request) (s : State) : (request r s).par = s.par := by
  cases r with
  | send b => cases b <;> rfl
  | _ => rfl
@[simp] theorem request_host (r : Request) (s : State) : (request r s).host = s.host := by
  cases r with
  | send b => cases b <;> rfl
  | _ => rfl
@[simp] theorem request_hbRdata (r : Request) (s : State) : (request r s).hbRdata = s.hbRdata := by
  cases r with
  | send b => cases b <;> rfl
  | _ => rfl

end Sys2Proof.Machine
end

