-- ==== Sys2Proof/Laws/Ow.lean ====
section
/-! SUPPORT. What each single-wire operation does, once and in closed form: later proofs cite these and unfold no loop
and no line primitive. -/

namespace Sys2Proof.Machine

/-! ### Recording events -/

@[simp] theorem record_levels (es : List OwEvent) (b : OwBus) : (b.record es).levels = b.levels := rfl
@[simp] theorem record_drawn (es : List OwEvent) (b : OwBus) : (b.record es).drawn = b.drawn := rfl
@[simp] theorem record_clock (es : List OwEvent) (b : OwBus) : (b.record es).clock = b.clock + durationOf es := rfl
@[simp] theorem record_marks (es : List OwEvent) (b : OwBus) :
    (b.record es).marks = b.marks ++ waveOf b.clock es := rfl
@[simp] theorem record_trace (es : List OwEvent) (b : OwBus) : (b.record es).trace = b.trace ++ es := rfl

@[simp] theorem durationOf_append (es fs : List OwEvent) : durationOf (es ++ fs) = durationOf es + durationOf fs := by
  simp [durationOf]

theorem waveOf_append (t : Nat) (es fs : List OwEvent) :
    waveOf t (es ++ fs) = waveOf t es ++ waveOf (t + durationOf es) fs := by
  induction es generalizing t with
  | nil => simp [waveOf, durationOf]
  | cons e es ih => simp [waveOf, ih, durationOf, Nat.add_assoc]

@[simp] theorem record_nil (b : OwBus) : b.record [] = b := by
  simp [OwBus.record, durationOf, waveOf]

@[simp] theorem record_record (es fs : List OwEvent) (b : OwBus) : (b.record es).record fs = b.record (es ++ fs) := by
  simp [OwBus.record, waveOf_append, Nat.add_assoc]

@[simp] theorem draw_record_fst (es : List OwEvent) (b : OwBus) : (b.record es).draw.1 = b.draw.1 := by
  unfold OwBus.draw; simp only [record_levels, record_drawn]; split <;> rfl

@[simp] theorem draw_record_snd (es : List OwEvent) (b : OwBus) : (b.record es).draw.2 = b.draw.2.record es := by
  unfold OwBus.draw; simp only [record_levels, record_drawn]; split <;> rfl

@[simp] theorem upcoming_zero (b : OwBus) : b.upcoming 0 = [] := rfl
@[simp] theorem afterDraws_zero (b : OwBus) : b.afterDraws 0 = b := by simp [OwBus.afterDraws]

/-- The first of the coming levels is the one the next draw gives. -/
@[simp] theorem level_zero (b : OwBus) : b.level 0 = b.draw.1 := by
  unfold OwBus.level OwBus.draw; cases b.levels <;> simp

/-- The later ones are those of the environment after that draw. -/
theorem level_succ (b : OwBus) (i : Nat) : b.level (i + 1) = b.draw.2.level i := by
  unfold OwBus.level OwBus.draw
  cases b.levels with
  | nil => simp [Nat.add_comm, Nat.add_left_comm]
  | cons l ls => simp [Nat.add_sub_add_right]

theorem upcoming_succ (k : Nat) (b : OwBus) : b.upcoming (k + 1) = b.draw.1 :: b.draw.2.upcoming k := by
  simp only [OwBus.upcoming, List.range_succ_eq_map, List.map_cons, level_zero, List.map_map]
  congr 1
  exact List.map_congr_left fun i _ => level_succ b i

theorem afterDraws_succ (k : Nat) (b : OwBus) : b.afterDraws (k + 1) = b.draw.2.afterDraws k := by
  unfold OwBus.afterDraws OwBus.draw
  cases b.levels with
  | nil => simp [Nat.add_comm, Nat.add_left_comm]
  | cons l ls => simp [Nat.add_sub_add_right]

@[simp] theorem upcoming_record (k : Nat) (es : List OwEvent) (b : OwBus) :
    (b.record es).upcoming k = b.upcoming k := rfl

@[simp] theorem afterDraws_record (k : Nat) (es : List OwEvent) (b : OwBus) :
    (b.record es).afterDraws k = (b.afterDraws k).record es := rfl

@[simp] theorem length_upcoming (k : Nat) (b : OwBus) : (b.upcoming k).length = k := by simp [OwBus.upcoming]

/-- What drawing leaves alone. -/
theorem afterDraws_fields (k : Nat) (b : OwBus) :
    (b.afterDraws k).clock = b.clock ∧ (b.afterDraws k).marks = b.marks ∧ (b.afterDraws k).trace = b.trace :=
  ⟨rfl, rfl, rfl⟩

theorem upcoming_add (j k : Nat) (b : OwBus) :
    b.upcoming (j + k) = b.upcoming j ++ (b.afterDraws j).upcoming k := by
  induction j generalizing b with
  | zero => simp
  | succ j ih => rw [Nat.add_right_comm]; simp [upcoming_succ, afterDraws_succ, ih]

theorem afterDraws_add (j k : Nat) (b : OwBus) : (b.afterDraws j).afterDraws k = b.afterDraws (j + k) := by
  induction j generalizing b with
  | zero => simp
  | succ j ih => rw [Nat.add_right_comm]; simp [afterDraws_succ, ih]

/-- The drawn levels are those of the script while it lasts. -/
theorem upcoming_of_script (ls rest : List Bit) (b : OwBus) (h : b.levels = ls ++ rest) :
    b.upcoming ls.length = ls := by
  induction ls generalizing b with
  | nil => rfl
  | cons l ls ih =>
    have h1 : b.draw = (l, { b with levels := ls ++ rest }) := by simp [OwBus.draw, h]
    simp [upcoming_succ, h1, ih { b with levels := ls ++ rest } rfl]

/-- What is left of the script after drawing a front part of it. -/
theorem afterDraws_of_script (ls rest : List Bit) (b : OwBus) (h : b.levels = ls ++ rest) :
    b.afterDraws ls.length = { b with levels := rest } := by
  induction ls generalizing b with
  | nil => simp only [List.nil_append] at h; subst h; simp
  | cons l ls ih =>
    have h1 : b.draw = (l, { b with levels := ls ++ rest }) := by simp [OwBus.draw, h]
    simp [afterDraws_succ, h1, ih { b with levels := ls ++ rest } rfl]

/-! ### The timer -/

/-- Counting down from `k` takes `k` ticks and leaves 0. -/
theorem owCountDown_eq (k : Nat) (u : OwUnit) (h : u.timer.toNat = k) : owCountDown k u = delayUs k u := by
  induction k generalizing u with
  | zero =>
    have h0 : u.timer = 0 := BitVec.eq_of_toNat_eq (by simpa using h)
    simp [owCountDown, delayUs, ← h0]
  | succ k ih =>
    have hne : u.timer ≠ 0 := by intro h0; simp [h0] at h
    have ht : (u.timer - 1).toNat = k := by
      have := u.timer.isLt
      rw [BitVec.toNat_sub]; simp; omega
    rw [owCountDown, if_neg hne, ih (owTick u) ht]
    simp [owTick, delayUs, Config.tick, Nat.add_assoc, Nat.add_comm 1]

/-! ### Slots -/

/-- A write slot in closed form (R134): the line ends released, and the bus has one more event of that shape. -/
theorem writeBit_eq (v : Bit) (u : OwUnit) :
    writeBit v u = { u with drive := false, timer := 0, bus := u.bus.record [.wr v] } := by
  cases v <;>
    simp [writeBit, owPulse, owDriveLow, owRelease, delayUs, OwBus.mark, OwUnit.emit, OwBus.record, waveOf, durationOf,
      OwEvent.wave, OwEvent.duration, Config.tW1Low, Config.tW1Slot, Config.tW0Low, Config.tW0Rec, Nat.add_assoc]

/-- A draw does not depend on the clock and the marks and leaves them alone. -/
theorem draw_marks (b : OwBus) (c : Nat) (ms : List LineMark) :
    ({ b with clock := c, marks := ms } : OwBus).draw = (b.draw.1, { b.draw.2 with clock := c, marks := ms }) := by
  unfold OwBus.draw; cases hl : b.levels <;> simp

/-- The part of the environment a draw leaves alone. -/
theorem draw_fields (b : OwBus) :
    b.draw.2.clock = b.clock ∧ b.draw.2.marks = b.marks ∧ b.draw.2.trace = b.trace := by
  unfold OwBus.draw; split <;> simp

/-- A read slot in closed form (R135): the sample is the level the slaves leave the released line at. -/
theorem readBit_eq (u : OwUnit) :
    readBit u =
      (u.bus.draw.1,
        { u with drive := false, timer := 0, bus := u.bus.draw.2.record [.rd u.bus.draw.1] }) := by
  obtain ⟨h1, h2, h3⟩ := draw_fields u.bus
  simp [readBit, readSlot, owProbe, owPulse, owDriveLow, owRelease, delayUs, OwBus.mark, OwUnit.emit, OwBus.record,
    waveOf, durationOf, OwEvent.wave, OwEvent.duration, Config.tRdLow, Config.tRdSample, Config.tRdPad, owSample,
    lineLevel, draw_marks, h1, h2, h3, Nat.add_assoc]

/-- The reset event in closed form (R150): present when the sample is 0. -/
theorem detectPresence_eq (u : OwUnit) :
    detectPresence u =
      (!u.bus.draw.1,
        { u with drive := false, timer := 0, bus := u.bus.draw.2.record [.reset u.bus.draw.1] }) := by
  obtain ⟨h1, h2, h3⟩ := draw_fields u.bus
  simp [detectPresence, resetSlot, owProbe, owPulse, owDriveLow, owRelease, delayUs, OwBus.mark, OwUnit.emit,
    OwBus.record, waveOf, durationOf, OwEvent.wave, OwEvent.duration, Config.tRstLow, Config.tPdSample,
    Config.tPdRecover, owSample, lineLevel, draw_marks, h1, h2, h3, Nat.add_assoc]

/-! ### Bytes -/

/-- The masks of the eight turns select the eight bits (R154). -/
theorem mask_selects (b : Byte) :
    (b &&& 1#8 != 0#8) = b[0] ∧ (b &&& 2#8 != 0#8) = b[1] ∧ (b &&& 4#8 != 0#8) = b[2] ∧ (b &&& 8#8 != 0#8) = b[3] ∧
      (b &&& 16#8 != 0#8) = b[4] ∧ (b &&& 32#8 != 0#8) = b[5] ∧ (b &&& 64#8 != 0#8) = b[6] ∧
        (b &&& 128#8 != 0#8) = b[7] := by
  revert b; decide +kernel

/-- The byte transmitter in closed form (R151, R154): eight slots, bit 0 first, and the mask overflowed to 0. -/
theorem writeByte_eq (b : Byte) (u : OwUnit) :
    writeByte b u = { u with drive := false, timer := 0, mask := 0, bus := u.bus.record (byteSlots b) } := by
  obtain ⟨h0, h1, h2, h3, h4, h5, h6, h7⟩ := mask_selects b
  simp [writeByte, writeByteLoop, writeBit_eq, shiftMask, h0, h1, h2, h3, h4, h5, h6, h7, byteSlots, bitsLsbFirst,
    List.range_succ]

/-- Several bytes one after another. -/
theorem writeBytes_eq (bs : List Byte) (u : OwUnit) (h : bs ≠ []) :
    writeBytes bs u = { u with drive := false, timer := 0, mask := 0, bus := u.bus.record (bs.flatMap byteSlots) } := by
  induction bs generalizing u with
  | nil => exact absurd rfl h
  | cons b bs ih =>
    cases bs with
    | nil => simp [writeBytes, writeByte_eq]
    | cons c bs => rw [writeBytes, ih _ (by simp)]; simp [writeByte_eq]

/-- A sample is ORed in under the mask (R152). -/
theorem shiftIn_eq (s : Bit) (u : OwUnit) :
    shiftIn s u = { u with shift := u.shift ||| if s then u.mask else 0#8 } := by
  cases s <;> simp [shiftIn]

/-- The eight samples under the eight masks are the byte with these bits (R152, R109). -/
theorem assembled_byte (s0 s1 s2 s3 s4 s5 s6 s7 : Bit) :
    ((((((((if s0 then 1#8 else 0#8) ||| if s1 then 2#8 else 0#8) ||| if s2 then 4#8 else 0#8) |||
      if s3 then 8#8 else 0#8) ||| if s4 then 16#8 else 0#8) ||| if s5 then 32#8 else 0#8) |||
        if s6 then 64#8 else 0#8) ||| if s7 then 128#8 else 0#8) =
      byteOfBits [s0, s1, s2, s3, s4, s5, s6, s7] := by
  revert s0 s1 s2 s3 s4 s5 s6 s7; decide +kernel

/-- The byte receiver in closed form (R152): eight read slots, the first sample in bit 0. -/
theorem readByte_eq (u : OwUnit) :
    readByte u =
      { u with
        drive := false
        timer := 0
        mask := 0
        shift := byteOfBits (u.bus.upcoming 8)
        bus := (u.bus.afterDraws 8).record ((u.bus.upcoming 8).map .rd) } := by
  simp [readByte, readByteLoop, readBit_eq, shiftMask, shiftIn_eq, upcoming_succ, afterDraws_succ]
  exact assembled_byte ..

/-! ### The ROM reader -/

/-- The eight registers of the scratch buffer, each set once. -/
theorem scratch_set_all (v : Vector Byte 8) (a0 a1 a2 a3 a4 a5 a6 a7 : Byte) :
    ((((((((v.set 0 a0).set 1 a1).set 2 a2).set 3 a3).set 4 a4).set 5 a5).set 6 a6).set 7 a7) =
      #v[a0, a1, a2, a3, a4, a5, a6, a7] := by
  ext i hi
  have h : i = 0 ∨ i = 1 ∨ i = 2 ∨ i = 3 ∨ i = 4 ∨ i = 5 ∨ i = 6 ∨ i = 7 := by omega
  rcases h with h | h | h | h | h | h | h | h <;> subst h <;> simp

/-- The eight bytes as a list of registers. -/
theorem upcomingRom_eq (b : OwBus) :
    b.upcomingRom =
      #v[byteOfBits (b.upcoming 8), byteOfBits ((b.afterDraws 8).upcoming 8),
        byteOfBits ((b.afterDraws 16).upcoming 8), byteOfBits ((b.afterDraws 24).upcoming 8),
        byteOfBits ((b.afterDraws 32).upcoming 8), byteOfBits ((b.afterDraws 40).upcoming 8),
        byteOfBits ((b.afterDraws 48).upcoming 8), byteOfBits ((b.afterDraws 56).upcoming 8)] := by
  ext i hi
  have h : i = 0 ∨ i = 1 ∨ i = 2 ∨ i = 3 ∨ i = 4 ∨ i = 5 ∨ i = 6 ∨ i = 7 := by omega
  rcases h with h | h | h | h | h | h | h | h <;> subst h <;> simp [OwBus.upcomingRom]

/-- Sixty-four samples, eight at a time. -/
theorem upcoming_bytes (b : OwBus) :
    b.upcoming 64 =
      b.upcoming 8 ++ ((b.afterDraws 8).upcoming 8 ++ ((b.afterDraws 16).upcoming 8 ++
        ((b.afterDraws 24).upcoming 8 ++ ((b.afterDraws 32).upcoming 8 ++ ((b.afterDraws 40).upcoming 8 ++
          ((b.afterDraws 48).upcoming 8 ++ (b.afterDraws 56).upcoming 8)))))) := by
  rw [show (64 : Nat) = 8 + (8 + (8 + (8 + (8 + (8 + (8 + 8)))))) from rfl]
  simp only [upcoming_add, afterDraws_add]

/-- Eight bytes read into the scratch buffer. -/
theorem readScratch_eq (u : OwUnit) :
    readScratch [0, 1, 2, 3, 4, 5, 6, 7] u =
      { u with
        drive := false
        timer := 0
        mask := 0
        shift := u.bus.upcomingRom[7]
        scratch := u.bus.upcomingRom
        bus := (u.bus.afterDraws 64).record ((u.bus.upcoming 64).map .rd) } := by
  rw [upcoming_bytes, upcomingRom_eq, ← scratch_set_all u.scratch]
  simp [readScratch, readByte_eq, afterDraws_add] <;> rfl

theorem upcomingRom_record (es : List OwEvent) (b : OwBus) : (b.record es).upcomingRom = b.upcomingRom := by
  unfold OwBus.upcomingRom
  simp only [afterDraws_record, upcoming_record]

/-- The transfer of `ow.read_rom` in closed form (R174). -/
theorem romTransfer_eq (cmd : Byte) (u : OwUnit) :
    romTransfer cmd u =
      { u with
        drive := false
        timer := 0
        mask := 0
        shift := u.bus.upcomingRom[7]
        scratch := u.bus.upcomingRom
        crc := crc8 (u.bus.upcomingRom.toList.take 7)
        bus := (u.bus.afterDraws 64).record (byteSlots cmd ++ (u.bus.upcoming 64).map .rd) } := by
  rw [romTransfer, writeByte_eq, readScratch_eq]
  simp only [crcOfScratch, upcomingRom_record, upcoming_record, afterDraws_record, record_record]

/-- Unit OW after presence and the transfer of `ow.read_rom` (R174): the code in the scratch buffer, its CRC, and the
events on the line. -/
def OwUnit.afterRom (cmd : Byte) (u : OwUnit) : OwUnit :=
  { u with
    drive := false
    timer := 0
    mask := 0
    shift := u.bus.draw.2.upcomingRom[7]
    scratch := u.bus.draw.2.upcomingRom
    crc := crc8 (u.bus.draw.2.upcomingRom.toList.take 7)
    bus :=
      (u.bus.draw.2.afterDraws 64).record
        (.reset false :: byteSlots cmd ++ (u.bus.draw.2.upcoming 64).map .rd) }

/-- Presence and the transfer in one (R174). Later proofs keep `afterRom` folded: the kernel is slow on terms that
spell it out. -/
theorem romTransfer_detect (cmd : Byte) (u : OwUnit) (h : u.bus.draw.1 = false) :
    romTransfer cmd (detectPresence u).2 = u.afterRom cmd := by
  rw [detectPresence_eq, romTransfer_eq]
  simp only [upcomingRom_record, upcoming_record, afterDraws_record, record_record, h, OwUnit.afterRom,
    List.cons_append, List.nil_append]

/-- The end of `ow.read_rom` by the validity of the code (R173, R174). -/
theorem romResult_eq (s : State) (h : s.ow.crc = crc8 (s.ow.scratch.toList.take 7)) :
    romResult s =
      if romValid s.ow.scratch then finish 1 (memWriteFrom 0 s.ow.scratch.toList s) else raise .dataIntegrity s := by
  simp [romResult, romValid, h]

/-! ### Device selection -/

@[simp] theorem length_hbufBytes (m : List Host.Cell) (is : List Byte) (f : Nat) :
    (hbufBytes m is f).length = is.length := by
  induction is generalizing f with
  | nil => rfl
  | cons i is ih => simp [hbufBytes, ih]

theorem hbufBytes_append (m : List Host.Cell) (is js : List Byte) (f : Nat) :
    hbufBytes m (is ++ js) f = hbufBytes m is f ++ hbufBytes m js (freshAfter m is f) := by
  induction is generalizing f with
  | nil => rfl
  | cons i is ih => simp [hbufBytes, freshAfter, ih]

theorem freshAfter_append (m : List Host.Cell) (is js : List Byte) (f : Nat) :
    freshAfter m (is ++ js) f = freshAfter m js (freshAfter m is f) := by
  induction is generalizing f with
  | nil => rfl
  | cons i is ih => simp [freshAfter, ih]

/-- Bytes of hbuf sent one after another (R175): only the line and the count of free bytes change. -/
theorem writeHbufBytes_eq (is : List Byte) (s : State) :
    writeHbufBytes is s =
      { s with
        fresh := freshAfter s.hbuf is s.fresh
        ow := writeBytes (hbufBytes s.hbuf is s.fresh) s.ow } := by
  induction is generalizing s with
  | nil => rfl
  | cons i is ih => rw [writeHbufBytes, ih]; rfl

/-! ### Alarm search -/

/-- The two response bits in closed form (R177, R179). -/
theorem readResponses_eq (u : OwUnit) :
    readResponses u =
      { u with
        drive := false
        timer := 0
        b0 := u.bus.draw.1
        b1 := u.bus.draw.2.draw.1
        bus := (u.bus.afterDraws 2).record [.rd u.bus.draw.1, .rd u.bus.draw.2.draw.1] } := by
  simp [readResponses, readBit_eq, afterDraws_succ]

end Sys2Proof.Machine
end

