-- ==== Sys2Proof/Laws/Memory.lean ====
section
/-! SUPPORT. The laws of the host buffer: a read after a write, and that every memory operation keeps the canonical
form. -/

namespace Sys2Proof.Machine

namespace Memory

/-- A read after a write: the byte written at that address, every other address as before. -/
theorem read_write (m : List Host.Cell) (i j : Nat) (v : Byte) :
    read (write m i v) j = if j = i then some v else read m j := by
  induction m with
  | nil => simp [write, read, unlisted]
  | cons c m ih =>
    obtain ⟨a, w⟩ := c
    simp only [write]
    split
    · simp [read]
    · split
      · rename_i h1 h2
        subst h2
        simp only [read]
        split <;> rfl
      · rename_i h1 h2
        simp only [read, ih]
        split
        · rename_i h3; subst h3; simp [Ne.symm h2]
        · rfl

/-- A lower bound may be lowered. -/
theorem wfFrom_mono {lo lo' : Nat} (h : lo' ≤ lo) (m : List Host.Cell) (hm : wfFrom lo m = true) :
    wfFrom lo' m = true := by
  cases m with
  | nil => rfl
  | cons c m =>
    simp only [wfFrom, Bool.and_eq_true, decide_eq_true_eq] at *
    exact ⟨⟨by omega, hm.1.2⟩, hm.2⟩

/-- A write at an address of the buffer keeps the canonical form. -/
theorem wfFrom_write (m : List Host.Cell) (lo i : Nat) (v : Byte) (hlo : lo ≤ i) (hi : i < Config.hbufSize)
    (hm : wfFrom lo m = true) : wfFrom lo (write m i v) = true := by
  induction m generalizing lo with
  | nil => simp [write, wfFrom, hlo, hi]
  | cons c m ih =>
    obtain ⟨a, w⟩ := c
    simp only [wfFrom, Bool.and_eq_true, decide_eq_true_eq] at hm
    obtain ⟨⟨h1, h2⟩, h3⟩ := hm
    simp only [write]
    split
    · rename_i h
      simp [wfFrom, hlo, hi, h3, h2]; omega
    · split
      · rename_i h; subst h
        simp [wfFrom, hlo, hi, h3]
      · simp [wfFrom, h1, h2]
        exact ih (a + 1) (by omega) h3

/-- A write at an address of the buffer keeps the canonical form. -/
theorem wf_write (m : List Host.Cell) (i v : Byte) (hm : wf m = true) : wf (write m i.toNat v) = true :=
  wfFrom_write m 0 i.toNat v (Nat.zero_le _) i.isLt hm

/-- An address below the bound of a canonical memory is unlisted. -/
theorem read_below (m : List Host.Cell) (lo j : Nat) (hm : wfFrom lo m = true) (hj : j < lo) :
    read m j = none := by
  induction m generalizing lo with
  | nil => rfl
  | cons c m ih =>
    obtain ⟨a, w⟩ := c
    simp only [wfFrom, Bool.and_eq_true, decide_eq_true_eq] at hm
    simp only [read]
    rw [if_neg (by omega)]
    exact ih (a + 1) hm.2 (by omega)

/-- Canonical memories that read alike everywhere are equal. -/
theorem ext_of_wfFrom (m m' : List Host.Cell) (lo lo' : Nat) (hm : wfFrom lo m = true) (hm' : wfFrom lo' m' = true)
    (h : ∀ j, read m j = read m' j) : m = m' := by
  induction m generalizing m' lo lo' with
  | nil =>
    cases m' with
    | nil => rfl
    | cons c m' => have := h c.1; simp [read, unlisted] at this
  | cons c m ih =>
    obtain ⟨a, w⟩ := c
    cases m' with
    | nil => have := h a; simp [read, unlisted] at this
    | cons c' m' =>
      obtain ⟨a', w'⟩ := c'
      simp only [wfFrom, Bool.and_eq_true, decide_eq_true_eq] at hm hm'
      have ha : a = a' := by
        rcases Nat.lt_trichotomy a a' with hlt | heq | hlt
        · have := h a
          simp only [read, if_true] at this
          rw [if_neg (by omega), read_below m' (a' + 1) a hm'.2 (by omega)] at this
          simp at this
        · exact heq
        · have := h a'
          simp only [read, if_true] at this
          rw [if_neg (by omega), read_below m (a + 1) a' hm.2 (by omega)] at this
          simp at this
      subst ha
      have hw : w = w' := by have := h a; simpa [read] using this
      subst hw
      congr 1
      refine ih m' (a + 1) (a + 1) hm.2 hm'.2 fun j => ?_
      by_cases hj : j = a
      · subst hj
        rw [read_below m _ _ hm.2 (by omega), read_below m' _ _ hm'.2 (by omega)]
      · have := h j
        simpa [read, hj] using this

end Memory

/-- The byte at an index after a write. -/
theorem hbufByte_memWrite (s : State) (i j v : Byte) :
    (memWrite i v s).hbufByte j = if j = i then some v else s.hbufByte j := by
  simp only [State.hbufByte, memWrite_hbuf, Memory.read_write]
  by_cases h : j = i
  · simp [h]
  · simp [h, BitVec.toNat_inj]

@[simp] theorem hbufByte_accept (w : Word24) (s : State) (a : Byte) : (accept w s).hbufByte a = s.hbufByte a := rfl
@[simp] theorem hbufByte_finish (v : Byte) (s : State) (a : Byte) : (finish v s).hbufByte a = s.hbufByte a := rfl
@[simp] theorem hbufByte_raise (r : Reason) (s : State) (a : Byte) : (raise r s).hbufByte a = s.hbufByte a := rfl
@[simp] theorem hbufByte_hold (c : List TwOp) (s : State) (a : Byte) : (hold c s).hbufByte a = s.hbufByte a := rfl

/-- Only hbuf decides what a byte of hbuf reads as. -/
theorem hbufByte_congr {s t : State} (h : s.hbuf = t.hbuf) (a : Byte) : s.hbufByte a = t.hbufByte a := by
  simp only [State.hbufByte, h]

/-- The bytes after a run of writes that stays inside the buffer: the bytes written, in order, and every other byte as
before. -/
theorem hbufByte_memWriteFrom (i : Byte) (vs : List Byte) (s : State) (a : Byte) (h : i.toNat + vs.length ≤ 256) :
    (memWriteFrom i vs s).hbufByte a =
      if i.toNat ≤ a.toNat ∧ a.toNat < i.toNat + vs.length then vs[a.toNat - i.toNat]? else s.hbufByte a := by
  induction vs generalizing i s with
  | nil => rw [if_neg (by simp)]; rfl
  | cons v vs ih =>
    simp only [List.length_cons] at h
    rw [memWriteFrom]
    cases vs with
    | nil =>
      simp only [memWriteFrom, hbufByte_memWrite, List.length_singleton]
      by_cases ha : a = i
      · subst ha; simp
      · have : a.toNat ≠ i.toNat := fun h => ha (BitVec.eq_of_toNat_eq h)
        rw [if_neg ha, if_neg (by omega)]
    | cons w vs =>
      simp only [List.length_cons] at h
      have hi : (i + 1).toNat = i.toNat + 1 := by simp; omega
      rw [ih (i + 1) (memWrite i v s) (by simp only [List.length_cons]; omega), hi]
      by_cases ha : a = i
      · subst ha
        rw [if_neg (by omega), if_pos (by simp), hbufByte_memWrite, if_pos rfl]
        simp
      · have hne : a.toNat ≠ i.toNat := fun h => ha (BitVec.eq_of_toNat_eq h)
        by_cases hb : i.toNat + 1 ≤ a.toNat ∧ a.toNat < i.toNat + 1 + (w :: vs).length
        · simp only [List.length_cons] at hb
          rw [if_pos (by simpa using hb), if_pos (by simp only [List.length_cons]; omega),
            show a.toNat - i.toNat = a.toNat - (i.toNat + 1) + 1 by omega, List.getElem?_cons_succ]
        · rw [if_neg hb, if_neg (by simp only [List.length_cons] at hb ⊢; omega), hbufByte_memWrite, if_neg ha]

/-- Writes to hbuf and changes of unit TW do not meet. -/
theorem memWriteFrom_withTw (i : Byte) (vs : List Byte) (s : State) (u : TwUnit) :
    memWriteFrom i vs { s with tw := u } = { memWriteFrom i vs s with tw := u } := by
  induction vs generalizing i s with
  | nil => rfl
  | cons v vs ih => exact ih (i + 1) (memWrite i v s)

/-- A run of writes in two parts. -/
theorem memWriteFrom_append (i : Byte) (xs ys : List Byte) (s : State) :
    memWriteFrom i (xs ++ ys) s = memWriteFrom (i + BitVec.ofNat 8 xs.length) ys (memWriteFrom i xs s) := by
  induction xs generalizing i s with
  | nil => simp [memWriteFrom]
  | cons x xs ih =>
    simp only [List.cons_append, memWriteFrom, ih, List.length_cons]
    congr 1
    rw [BitVec.add_assoc]
    congr 1
    apply BitVec.eq_of_toNat_eq
    simp
    omega

/-- A run of writes keeps the canonical form. -/
theorem wf_memWriteFrom (i : Byte) (vs : List Byte) (s : State) (h : Memory.wf s.hbuf = true) :
    Memory.wf (memWriteFrom i vs s).hbuf = true := by
  induction vs generalizing i s with
  | nil => exact h
  | cons v vs ih => exact ih _ _ (Memory.wf_write _ _ _ h)

/-- The memory after reset is canonical. -/
theorem wf_reset : Memory.wf State.reset.hbuf = true := rfl

end Sys2Proof.Machine
end

