-- ==== Sys2Proof/Laws/Tw.lean ====
section
/-! SUPPORT. What the BIU, the flag wait and the sequencer do, once each: later proofs cite these and unfold neither
`biuStep` nor `runTw`. -/

namespace Sys2Proof.Machine

/-! ### The environment's draws -/

/-- A draw looks at the script and the count of free draws alone, and changes nothing else. -/
theorem twDraw_congr (b : TwBus) (w : Nat) (x : Bool) (k : Nat) (es : List TwEvent) :
    ({ b with waited := w, dead := x, stops := k, trace := es } : TwBus).draw =
      (b.draw.1, { b.draw.2 with waited := w, dead := x, stops := k, trace := es }) := by
  unfold TwBus.draw
  cases h : b.phases <;> rfl

/-- The fields a draw leaves alone. -/
theorem twDraw_fields (b : TwBus) :
    b.draw.2.waited = b.waited ∧ b.draw.2.dead = b.dead ∧ b.draw.2.stops = b.stops ∧ b.draw.2.trace = b.trace := by
  unfold TwBus.draw
  cases h : b.phases <;> exact ⟨rfl, rfl, rfl, rfl⟩

/-- The next draw of a script that has not run out. -/
theorem twDraw_cons {b : TwBus} {d : PhaseDraw} {ds : List PhaseDraw} (h : b.phases = d :: ds) :
    b.draw = (d, { b with phases := ds }) := by
  unfold TwBus.draw
  rw [h]

/-- Later draws look at the script and the count of free draws alone. -/
theorem completes_congr (xs : List (Byte × Byte)) (b b' c : TwBus) (hp : c.phases = b.phases) (hd : c.drawn = b.drawn)
    (h : b.completes xs b') :
    c.completes xs { c with phases := b'.phases, drawn := b'.drawn } := by
  induction xs generalizing b c with
  | nil =>
    simp only [TwBus.completes] at h ⊢
    subst h
    simp [← hp, ← hd]
  | cons x xs ih =>
    obtain ⟨st, d⟩ := x
    obtain ⟨h1, h2⟩ := h
    have hc : c = { b with waited := c.waited, dead := c.dead, stops := c.stops, trace := c.trace } := by
      cases c; cases b; simp_all
    have hdraw :
        c.draw =
          (b.draw.1, { b.draw.2 with waited := c.waited, dead := c.dead, stops := c.stops, trace := c.trace }) := by
      rw [hc]; exact twDraw_congr ..
    refine ⟨by rw [hdraw]; exact h1, ?_⟩
    have :=
      ih b.draw.2 { b.draw.2 with waited := c.waited, dead := c.dead, stops := c.stops, trace := c.trace } rfl rfl h2
    rw [hdraw]
    exact this

/-- A new phase starts with the script and the stops as they are. -/
@[simp] theorem newPhase_phases (b : TwBus) : b.newPhase.phases = b.phases := rfl
@[simp] theorem newPhase_drawn (b : TwBus) : b.newPhase.drawn = b.drawn := rfl
@[simp] theorem newPhase_waited (b : TwBus) : b.newPhase.waited = 0 := rfl
@[simp] theorem newPhase_dead (b : TwBus) : b.newPhase.dead = false := rfl
@[simp] theorem newPhase_stops (b : TwBus) : b.newPhase.stops = b.stops := rfl
@[simp] theorem newPhase_trace (b : TwBus) : b.newPhase.trace = b.trace := rfl
@[simp] theorem newPhase_after (b b' : TwBus) (es : List TwEvent) : b.newPhase.after b' es = b.after b' es := rfl

/-- The first draw of a new phase. -/
theorem newPhase_draw (b : TwBus) : b.newPhase.draw = (b.draw.1, b.draw.2.newPhase) := by
  unfold TwBus.draw TwBus.newPhase
  cases h : b.phases <;> simp

/-! ### One completed phase -/

/-- The unit after a phase that was over at the first poll: what the environment drew is `st`, `d`, and `b'` is what is
left of its draws. -/
def TwUnit.afterPhase (p : Params) (st d : Byte) (b' : TwBus) (u : TwUnit) : TwUnit :=
  { u with
    data := phaseData u d
    status := st
    flag := true
    owned := phaseOwned p { u with owned := u.ownedAfterStops } st
    req := .none
    bus := u.bus.after b' (phaseEvent u st d) }

/-- A request other than a stop begins a new phase (log 11). -/
theorem request_bus (r : Request) (s : State) (h : r ≠ .stop) : (request r s).tw.bus = s.tw.bus.newPhase := by
  cases r with
  | stop => exact absurd rfl h
  | send b => cases b <;> rfl
  | _ => rfl

/-- A request other than a stop clears the flag and latches a phase that ends with it (R205 to R207). -/
theorem request_pending (r : Request) (s : State) (h : r ≠ .stop) :
    (request r s).tw.flag = false ∧ (request r s).tw.req.pending = true := by
  cases r with
  | stop => exact absurd rfl h
  | send b => cases b <;> exact ⟨rfl, rfl⟩
  | start => exact ⟨rfl, rfl⟩
  | recv ack => cases ack <;> exact ⟨rfl, rfl⟩

/-- While a phase is pending and the flag is down, a step of the BIU is a step on that phase. -/
theorem biuStep_pending (p : Params) (u : TwUnit) (hf : u.flag = false) (hr : u.req.pending = true) :
    biuStep p u = biuPhase p u := by
  unfold biuStep
  rw [hf]
  cases h : u.req <;> simp_all [TwReq.pending]

/-- A phase that has been drawn never to complete stays as it is (R274). -/
theorem biuPhase_dead (p : Params) (u : TwUnit) (h : u.bus.dead = true) : biuPhase p u = u := by
  rw [biuPhase, if_pos h]

/-- A poll at which the phase is over: the flag is up (R204, R209). -/
theorem pollFlag_done (s : State) (st d : Byte) (b' : TwBus) (hf : s.tw.flag = false) (hr : s.tw.req.pending = true)
    (hl : s.tw.bus.dead = false) (hd : s.tw.bus.draw = (.done st d, b')) :
    pollFlag s = { s with tw := s.tw.afterPhase s.par st d b' } := by
  obtain ⟨h1, h2, h3, h4⟩ := twDraw_fields s.tw.bus
  rw [hd] at h1 h2 h3 h4
  simp only at h1 h2 h3 h4
  rw [pollFlag, biuStep_pending _ _ hf hr, biuPhase, if_neg (by simp [hl]), hd]
  cases h : s.tw.req <;>
    simp_all [completePhase, finishStops, TwUnit.afterPhase, TwBus.after, TwUnit.ownedAfterStops, phaseData,
      phaseOwned, phaseEvent]

/-- A poll at which the phase is not over yet: the stops still to come are on the bus, the flag stays down. -/
theorem pollFlag_later (s : State) (b' : TwBus) (hf : s.tw.flag = false) (hr : s.tw.req.pending = true)
    (hl : s.tw.bus.dead = false) (hd : s.tw.bus.draw = (.later, b')) :
    pollFlag s =
      { s with
        tw :=
          { s.tw with
            owned := s.tw.ownedAfterStops
            bus := { (s.tw.bus.after b' []) with waited := s.tw.bus.waited + 1 } } } := by
  obtain ⟨h1, h2, h3, h4⟩ := twDraw_fields s.tw.bus
  rw [hd] at h1 h2 h3 h4
  simp only at h1 h2 h3 h4
  rw [pollFlag, biuStep_pending _ _ hf hr, biuPhase, if_neg (by simp [hl]), hd]
  simp_all [finishStops, TwBus.after, TwUnit.ownedAfterStops]

/-- A poll at which the phase turns out never to complete: the flag stays down and nothing happens on the bus. -/
theorem pollFlag_never (s : State) (b' : TwBus) (hf : s.tw.flag = false) (hr : s.tw.req.pending = true)
    (hl : s.tw.bus.dead = false) (hd : s.tw.bus.draw = (.never, b')) :
    pollFlag s =
      { s with
        tw :=
          { s.tw with
            bus :=
              { s.tw.bus with
                phases := b'.phases
                drawn := b'.drawn
                dead := true
                waited := s.tw.bus.waited + 1 } } } := by
  obtain ⟨h1, h2, h3, h4⟩ := twDraw_fields s.tw.bus
  rw [hd] at h1 h2 h3 h4
  simp only at h1 h2 h3 h4
  rw [pollFlag, biuStep_pending _ _ hf hr, biuPhase, if_neg (by simp [hl]), hd]
  simp_all

/-- A poll of a phase that never completes: the poll is counted, nothing else happens (R274). -/
theorem pollFlag_dead (s : State) (hf : s.tw.flag = false) (hr : s.tw.req.pending = true)
    (hl : s.tw.bus.dead = true) :
    pollFlag s = { s with tw := { s.tw with bus := { s.tw.bus with waited := s.tw.bus.waited + 1 } } } := by
  rw [pollFlag, biuStep_pending _ _ hf hr, biuPhase_dead _ _ hl]
  simp [hf]

/-! ### A step of a command -/

/-- `Step(req, code)` where the phase is over at the first poll: the check decides (R210). -/
theorem runTw_twStep (r : Request) (c : StatusName) (rest : List TwOp) (s : State) (st d : Byte) (b' : TwBus)
    (hr : r ≠ .stop) (hd : s.tw.bus.draw = (.done st d, b')) :
    runTw (twStep r c ++ rest) s =
      if st = s.par.status c then
        runTw rest { request r s with tw := (request r s).tw.afterPhase s.par st d b' }
      else
        failTransaction .protocolMismatch
          { request r s with tw := (request r s).tw.afterPhase s.par st d b' } := by
  obtain ⟨h1, h2⟩ := request_pending r s hr
  have h3 : (request r s).tw.bus.draw = (.done st d, b'.newPhase) := by rw [request_bus r s hr, newPhase_draw, hd]
  have h4 := pollFlag_done (request r s) st d _ h1 h2 (by rw [request_bus r s hr]; rfl) h3
  have h5 : (request r s).tw.afterPhase (request r s).par st d b'.newPhase =
      (request r s).tw.afterPhase s.par st d b' := by
    rw [request_par]; rfl
  rw [h5] at h4
  simp only [twStep, List.cons_append, List.nil_append, runTw, h4]
  simp [TwUnit.afterPhase, statusIs]

/-- The first two parts of a chain of completed phases. -/
theorem completes_cons {st d : Byte} {xs : List (Byte × Byte)} {b b' : TwBus} (h : b.completes ((st, d) :: xs) b') :
    b.draw = (.done st d, b.draw.2) ∧ b.draw.2.completes xs b' :=
  ⟨Prod.ext h.1 rfl, h.2⟩

/-! ### Chains of completed phases -/

/-- From `b` on the environment gives these completed phases, and what is left of its draws then is that of `b'`. Only
the script and the count of free draws of the two buses matter. -/
def TwBus.Gives (b' : TwBus) (xs : List (Byte × Byte)) (b : TwBus) : Prop :=
  ∃ c : TwBus, b.completes xs c ∧ c.phases = b'.phases ∧ c.drawn = b'.drawn

theorem gives_of_completes {xs : List (Byte × Byte)} {b b' : TwBus} (h : b.completes xs b') : b'.Gives xs b :=
  ⟨_, h, rfl, rfl⟩

theorem gives_congr {xs : List (Byte × Byte)} {b b' c : TwBus} (h : b'.Gives xs b) (h1 : c.phases = b.phases)
    (h2 : c.drawn = b.drawn) : b'.Gives xs c := by
  obtain ⟨d, h, h3, h4⟩ := h
  exact ⟨_, completes_congr xs b _ c h1 h2 h, h3, h4⟩

theorem gives_nil {b b' : TwBus} (h : b'.Gives [] b) : b.phases = b'.phases ∧ b.drawn = b'.drawn := by
  obtain ⟨c, h, h3, h4⟩ := h
  have h : c = b := h
  subst h
  exact ⟨h3, h4⟩

theorem gives_cons {st d : Byte} {xs : List (Byte × Byte)} {b b' : TwBus} (h : b'.Gives ((st, d) :: xs) b) :
    b.draw = (.done st d, b.draw.2) ∧ b'.Gives xs b.draw.2 := by
  obtain ⟨c, h, h3, h4⟩ := h
  obtain ⟨h1, h2⟩ := completes_cons h
  exact ⟨h1, _, h2, h3, h4⟩

/-- Two chains one after the other: the stops are on the bus once, the events add up. -/
theorem after_after (b b1 b2 : TwBus) (e1 e2 : List TwEvent) : (b.after b1 e1).after b2 e2 = b.after b2 (e1 ++ e2) := by
  simp [TwBus.after]

/-- At the end of a chain the bus is the one the chain's statement names. -/
theorem after_eq {b c b' : TwBus} {es : List TwEvent} (h : b'.Gives [] (b.after c es)) : b.after c es = b.after b' es := by
  obtain ⟨h1, h2⟩ := gives_nil h
  simp only [TwBus.after] at h1 h2 ⊢
  rw [h1, h2]

/-- The state after a request whose phase was over at the first poll. -/
def State.phased (r : Request) (st d : Byte) (b' : TwBus) (s : State) : State :=
  { request r s with tw := (request r s).tw.afterPhase s.par st d b' }

@[simp] theorem phased_par (r : Request) (st d : Byte) (b' : TwBus) (s : State) : (s.phased r st d b').par = s.par := by
  simp [State.phased]

theorem phased_bus (r : Request) (st d : Byte) (b' : TwBus) (s : State) (hr : r ≠ .stop) :
    (s.phased r st d b').tw.bus = s.tw.bus.after b' (phaseEvent (request r s).tw st d) := by
  simp [State.phased, TwUnit.afterPhase, request_bus r s hr]

/-- A step of a command on the next phase of a chain: the check decides, and the rest of the chain is still to come. -/
theorem runTw_phase {r : Request} {st d : Byte} {xs : List (Byte × Byte)} {b' : TwBus} {s : State} (c : StatusName)
    (rest : List TwOp) (h : b'.Gives ((st, d) :: xs) s.tw.bus) (hr : r ≠ .stop) :
    ∃ b1 : TwBus, b'.Gives xs (s.phased r st d b1).tw.bus ∧
      runTw (twStep r c ++ rest) s =
        if st = s.par.status c then runTw rest (s.phased r st d b1)
        else failTransaction .protocolMismatch (s.phased r st d b1) := by
  obtain ⟨h1, h2⟩ := gives_cons h
  refine ⟨_, ?_, runTw_twStep r c rest s st d _ hr h1⟩
  rw [phased_bus _ _ _ _ _ hr]
  exact gives_congr h2 rfl rfl

/-- The step passes its check. -/
theorem runTw_phase_ok {r : Request} {st d : Byte} {xs : List (Byte × Byte)} {b' : TwBus} {s : State} (c : StatusName)
    (rest : List TwOp) (h : b'.Gives ((st, d) :: xs) s.tw.bus) (hr : r ≠ .stop) (hst : st = s.par.status c) :
    ∃ b1 : TwBus, b'.Gives xs (s.phased r st d b1).tw.bus ∧
      runTw (twStep r c ++ rest) s = runTw rest (s.phased r st d b1) := by
  obtain ⟨b1, h1, h2⟩ := runTw_phase c rest h hr
  rw [if_pos hst] at h2
  exact ⟨b1, h1, h2⟩

/-- The step fails its check. -/
theorem runTw_phase_bad {r : Request} {st d : Byte} {xs : List (Byte × Byte)} {b' : TwBus} {s : State} (c : StatusName)
    (rest : List TwOp) (h : b'.Gives ((st, d) :: xs) s.tw.bus) (hr : r ≠ .stop) (hst : st ≠ s.par.status c) :
    ∃ b1 : TwBus, b'.Gives xs (s.phased r st d b1).tw.bus ∧
      runTw (twStep r c ++ rest) s = failTransaction .protocolMismatch (s.phased r st d b1) := by
  obtain ⟨b1, h1, h2⟩ := runTw_phase c rest h hr
  rw [if_neg hst] at h2
  exact ⟨b1, h1, h2⟩

/-! ### Polls, all of them -/

/-- A poll of a pending phase: it is over, or the flag stays down and the engine keeps the bus if it held it. -/
theorem pollFlag_cases (s : State) (hf : s.tw.flag = false) (hr : s.tw.req.pending = true) :
    (∃ st d b', pollFlag s = { s with tw := s.tw.afterPhase s.par st d b' }) ∨
      (∃ (o : Bit) (b : TwBus), pollFlag s = { s with tw := { s.tw with owned := o, bus := b } } ∧
        (s.tw.holdsBus → o = true ∧ b.stops = 0)) := by
  cases hl : s.tw.bus.dead with
  | true => exact .inr ⟨s.tw.owned, _, pollFlag_dead s hf hr hl, fun h => ⟨h.1, h.2⟩⟩
  | false =>
    cases hd : s.tw.bus.draw with
    | mk x b' =>
      cases x with
      | done st d => exact .inl ⟨st, d, b', pollFlag_done s st d b' hf hr hl hd⟩
      | later =>
        refine .inr ⟨_, _, pollFlag_later s b' hf hr hl hd, fun h => ?_⟩
        simp [TwUnit.ownedAfterStops, TwBus.after, h.1, h.2]
      | never => exact .inr ⟨s.tw.owned, _, pollFlag_never s b' hf hr hl hd, fun h => ⟨h.1, h.2⟩⟩

/-! ### Whole commands -/

/-- Induction over a run of the sequencer: a relation between the code, the state it starts from and the state it ends
or holds in, which each micro-operation carries on. -/
theorem runTw_induction (P : List TwOp → State → State → Prop)
    (hnil : ∀ s, P [] s s)
    (hret : ∀ v rest s, P (.ret v :: rest) s (finish v s))
    (hadd : ∀ a rest s t, P rest { s with tw := { s.tw with addr := a } } t → P (.setAddr a :: rest) s t)
    (hst : ∀ a rest s t, P rest { s with tw := { s.tw with state := a } } t → P (.setState a :: rest) s t)
    (hidx : ∀ a rest s t, P rest { s with tw := { s.tw with idx := a } } t → P (.setIdx a :: rest) s t)
    (hreq : ∀ r rest s t, P rest (request r s) t → P (.request r :: rest) s t)
    (hsto : ∀ i rest s t, P rest (memWrite i s.tw.data s) t → P (.store i :: rest) s t)
    (hchk : ∀ c rest s t, statusIs c s = true → P rest s t → P (.check c :: rest) s t)
    (hbad : ∀ c rest s, statusIs c s = false → P (.check c :: rest) s (failTransaction .protocolMismatch s))
    (hwait : ∀ rest s t, (pollFlag s).tw.flag = true → P rest (pollFlag s) t → P (.wait :: rest) s t)
    (hexp : ∀ rest s, (pollFlag s).tw.flag = false → waitExpired s.par (pollFlag s).tw.bus.waited = true →
      P (.wait :: rest) s (failTransaction .timeout (pollFlag s)))
    (hhold : ∀ rest s, (pollFlag s).tw.flag = false → waitExpired s.par (pollFlag s).tw.bus.waited = false →
      P (.wait :: rest) s (hold (.wait :: rest) (pollFlag s)))
    (code : List TwOp) (s : State) : P code s (runTw code s) := by
  induction code generalizing s with
  | nil => exact hnil s
  | cons op rest ih =>
    cases op with
    | wait =>
      simp only [runTw]
      split
      · rename_i h; exact hwait _ _ _ h (ih _)
      · rename_i h
        split
        · rename_i h2; exact hexp _ _ (by simpa using h) h2
        · rename_i h2; exact hhold _ _ (by simpa using h) (by simpa using h2)
    | check c =>
      simp only [runTw]; split
      · rename_i h; exact hchk _ _ _ _ h (ih _)
      · rename_i h; exact hbad _ _ _ (by simpa using h)
    | ret v => exact hret ..
    | request r => exact hreq _ _ _ _ (ih _)
    | setAddr a => exact hadd _ _ _ _ (ih _)
    | setState a => exact hst _ _ _ _ (ih _)
    | setIdx a => exact hidx _ _ _ _ (ih _)
    | store i => exact hsto _ _ _ _ (ih _)

/-- What a run of the sequencer never touches: the command word, unit OW, the parameters and the ports. -/
theorem runTw_frame (code : List TwOp) (s : State) :
    (runTw code s).cmd = s.cmd ∧ (runTw code s).ow = s.ow ∧ (runTw code s).par = s.par ∧
      (runTw code s).host = s.host ∧ (runTw code s).hbRdata = s.hbRdata := by
  refine runTw_induction
    (fun _ s t => t.cmd = s.cmd ∧ t.ow = s.ow ∧ t.par = s.par ∧ t.host = s.host ∧ t.hbRdata = s.hbRdata)
    ?_ ?_ ?_ ?_ ?_ ?_ ?_ ?_ ?_ ?_ ?_ ?_ code s
  all_goals intros
  all_goals simp_all [failTransaction, pollFlag]

/-- A loop of `tw.write_str` in two parts. -/
theorem writeLoop_add (i m k : Nat) : writeLoop i (m + k) = writeLoop i m ++ writeLoop (i + m) k := by
  induction m generalizing i with
  | zero => simp [writeLoop]
  | succ m ih =>
    rw [Nat.succ_add]
    simp only [writeLoop, ih, List.append_assoc]
    rw [Nat.add_right_comm]
    rfl

/-- A loop of `tw.read_str` in two parts. -/
theorem readLoop_add (i m k : Nat) : readLoop i (m + k) = readLoop i m ++ readLoop (i + m) k := by
  induction m generalizing i with
  | zero => simp [readLoop]
  | succ m ih =>
    rw [Nat.succ_add]
    simp only [readLoop, ih, List.append_assoc]
    rw [Nat.add_right_comm]
    rfl

end Sys2Proof.Machine
end

