-- ==== Sys2Proof/Laws/Exec.lean ====
section
/-! SUPPORT. What `exec` can do, once per unit: later proofs about every command start from these and unfold no arm. -/

namespace Sys2Proof.Machine

/-- Everything a two-wire command that answers a next state can have done. -/
theorem tw_cases (i : Instr) (s t : State) (hi : i.isOw = false) (h : exec i s = .next t) :
    (i = .twEnable ∧ t = finish 0 { s with tw := enableUnit s.tw }) ∨
      (i = .twDisable ∧ s.tw.state = .idle ∧ s.tw.req = .none ∧ t = finish 0 { s with tw := disableUnit s.tw }) ∨
      (i = .twIsEnabled ∧ t = finish (bitByte s.tw.enabled) s) ∨
      (i = .twClose ∧ s.tw.enabled = true ∧ t = runTw closeCode s) ∨
      (∃ r, i = .twReadStr r 0 ∧ t = raise .illegal s) ∨
      (∃ need code, i.transfer = some (need, code) ∧ s.tw.enabled = true ∧ s.tw.state = need ∧ t = runTw code s) := by
  cases i <;> simp only [Instr.isOw, Bool.true_eq_false] at hi
  case twEnable => simp only [exec, execTwEnable, Host.Outcome.next.injEq] at h; exact .inl ⟨rfl, h.symm⟩
  case twDisable =>
    simp only [exec, execTwDisable] at h
    split at h
    · rename_i hm; simp [mayDisable] at hm; injection h with h; exact .inr (.inl ⟨rfl, hm.1, hm.2, h.symm⟩)
    · cases h
  case twIsEnabled =>
    simp only [exec, execTwIsEnabled, Host.Outcome.next.injEq] at h
    exact .inr (.inr (.inl ⟨rfl, h.symm⟩))
  case twClose =>
    simp only [exec, execTwClose, twCommand, refusalOf] at h
    by_cases he : s.tw.enabled = false
    · simp [he] at h
    · simp only [he] at h; injection h with h
      exact .inr (.inr (.inr (.inl ⟨rfl, by simpa using he, h.symm⟩)))
  case twReadStr r n =>
    simp only [exec, execTwReadStr, twCommand, refusalOf] at h
    by_cases hn : n = 0
    · subst hn; simp only [if_true] at h; injection h with h
      exact .inr (.inr (.inr (.inr (.inl ⟨_, rfl, h.symm⟩))))
    · simp only [hn, if_false] at h
      by_cases he : s.tw.enabled = false
      · simp [he] at h
      · by_cases hs : s.tw.state = .openW
        · simp only [he, hs, if_true] at h; injection h with h
          exact .inr (.inr (.inr (.inr (.inr
            ⟨_, _, by simp only [Instr.transfer, hn, if_false], by simpa using he, hs, h.symm⟩))))
        · simp [he, hs] at h
  all_goals
    simp only [exec, execTwOpen, execTwWriteByte, execTwWriteStr, execTwReadCh, twCommand, refusalOf] at h
    by_cases he : s.tw.enabled = false
    · simp [he] at h
    · refine .inr (.inr (.inr (.inr (.inr ⟨_, _, rfl, by simpa using he, ?_⟩))))
      by_cases hs : s.tw.state = .openW <;> by_cases hs' : s.tw.state = .idle <;> simp_all

/-- A transfer inside its precondition is a run of its code (R231). -/
theorem exec_transfer {i : Instr} {need : TwState} {code : List TwOp} {s : State}
    (h1 : i.transfer = some (need, code)) (h2 : s.tw.enabled = true) (h3 : s.tw.state = need) :
    exec i s = .next (runTw code s) := by
    cases i <;> simp only [Instr.transfer, reduceCtorEq, Option.some.injEq, Prod.mk.injEq] at h1
    case twReadStr r n =>
      split at h1
      · cases h1
      · rename_i hn
        simp only [Option.some.injEq, Prod.mk.injEq] at h1
        obtain ⟨rfl, rfl⟩ := h1
        simp only [exec, execTwReadStr]
        rw [if_neg hn]
        simp [twCommand, refusalOf, h2, h3]
    all_goals
      obtain ⟨rfl, rfl⟩ := h1
      simp [exec, execTwOpen, execTwWriteByte, execTwWriteStr, execTwReadCh, twCommand, refusalOf, h2, h3]

/-- How a single-wire command ends: with a result, or with one of the reasons R260 gives it. -/
theorem ow_cases (i : Instr) (s t : State) (hi : i.isOw = true) (h : exec i s = .next t) :
    ∃ s1 : State, s1.par = s.par ∧ s1.host = s.host ∧ s1.cmd = s.cmd ∧ ((∃ v, t = finish v s1) ∨
      (∃ r, t = raise r s1 ∧
        (r = .absence ∧ (i = .owDetectPresence ∨ i = .owReadRom ∨ i = .owAlarmSearch) ∨
          r = .dataIntegrity ∧ i = .owReadRom ∨ r = .unsupported ∧ i = .owSearchRom))) := by
  cases i <;> simp only [Instr.isOw, Bool.false_eq_true] at hi
  case owMatchRom =>
    simp only [exec, execOwMatchRom, Host.Outcome.next.injEq] at h
    rw [writeHbufBytes_eq] at h
    exact ⟨_, by exact rfl, by exact rfl, by exact rfl, .inl ⟨_, h.symm⟩⟩
  all_goals
    simp only [exec, execOwDetectPresence, execOwReadRom, execOwAlarmSearch, execOwWriteBit, execOwReadBit,
      execOwIsBusy, execOwWriteByte, execOwReadByte, execOwSkipRom, execOwSearchRom, readRomAfter, romResult,
      alarmAfter, alarmResult, presenceResult, Host.Outcome.next.injEq] at h
  all_goals subst h
  case owReadRom =>
    split
    · split
      · exact ⟨_, by rw [memWriteFrom_par], by rw [memWriteFrom_host], by rw [memWriteFrom_cmd], .inl ⟨_, rfl⟩⟩
      · exact ⟨_, by exact rfl, by exact rfl, by exact rfl, .inr ⟨_, rfl, by simp⟩⟩
    · exact ⟨_, by exact rfl, by exact rfl, by exact rfl, .inr ⟨_, rfl, by simp⟩⟩
  all_goals try split
  all_goals try split
  all_goals
    first
    | exact ⟨_, by exact rfl, by exact rfl, by exact rfl, .inl ⟨_, rfl⟩⟩
    | exact ⟨_, by exact rfl, by exact rfl, by exact rfl, .inr ⟨_, rfl, by simp⟩⟩

end Sys2Proof.Machine
end

