-- ==== Sys2Proof/Laws/PerInstr.lean ====
section
/-! SUPPORT. The family of statements made once per command: the fields of a command's word are its opcode, its operand
byte and its count, with `rsv` 0 (30_encoding.md R91, R92, R95). -/

namespace Sys2Proof.Laws.WordFields

/-- The four fields of the command's word. -/
def Statement (i : Instr) : Prop :=
  fieldRsv (encode i) = 0 ∧ fieldOpcode (encode i) = opcodeOf i ∧ fieldArg (encode i) = argOf i ∧
    fieldN (encode i) = countOf i

/-- Every word made of fields has them. -/
theorem of_fields (i : Instr) : Statement i :=
  ⟨fieldRsv_wordOf .., fieldOpcode_wordOf .., fieldArg_wordOf .., fieldN_wordOf ..⟩

theorem owDetectPresence : Statement (.owDetectPresence) := of_fields _
theorem owWriteBit (value : Bit) : Statement (.owWriteBit value) := of_fields _
theorem owReadBit : Statement (.owReadBit) := of_fields _
theorem owWriteByte (byte : Byte) : Statement (.owWriteByte byte) := of_fields _
theorem owReadByte : Statement (.owReadByte) := of_fields _
theorem owIsBusy : Statement (.owIsBusy) := of_fields _
theorem owReadRom : Statement (.owReadRom) := of_fields _
theorem owMatchRom : Statement (.owMatchRom) := of_fields _
theorem owSkipRom : Statement (.owSkipRom) := of_fields _
theorem owAlarmSearch : Statement (.owAlarmSearch) := of_fields _
theorem owSearchRom : Statement (.owSearchRom) := of_fields _
theorem twEnable : Statement (.twEnable) := of_fields _
theorem twDisable : Statement (.twDisable) := of_fields _
theorem twIsEnabled : Statement (.twIsEnabled) := of_fields _
theorem twOpen (address : BitVec 7) : Statement (.twOpen address) := of_fields _
theorem twClose : Statement (.twClose) := of_fields _
theorem twWriteByte (data : Byte) : Statement (.twWriteByte data) := of_fields _
theorem twWriteStr (n : Byte) : Statement (.twWriteStr n) := of_fields _
theorem twReadCh (reg : Byte) : Statement (.twReadCh reg) := of_fields _
theorem twReadStr (reg n : Byte) : Statement (.twReadStr reg n) := of_fields _

end Sys2Proof.Laws.WordFields
end

