-- ==== Sys2Proof/Laws/Step.lean ====
section
/-! SUPPORT. What a step does, by the input it takes, and runs of several steps. -/

namespace Sys2Proof.Machine

/-! ### A command word -/

/-- The stop of an earlier `tw.close` before a command on the single-wire line: none left, nothing else touched. -/
theorem settleStops_eq (u : TwUnit) :
    settleStops u =
      if u.bus.stops = 0 then u
      else
        { u with
          owned := false
          req := if u.req = .stop then .none else u.req
          bus := { u.bus with stops := 0, trace := u.bus.trace ++ List.replicate u.bus.stops .stop } } := by
  unfold settleStops
  cases h : u.bus.stops <;> simp [finishStops, h]

/-- What stands before a command's first access changes unit TW alone, and only before a command that uses the line. -/
theorem beforeCommand_eq (i : Instr) (s : State) :
    beforeCommand i s = { s with tw := if usesLine i then settleStops s.tw else s.tw } := by
  unfold beforeCommand
  split <;> rfl

theorem beforeCommand_of_tw {i : Instr} (s : State) (h : i.isOw = false) : beforeCommand i s = s := by
  cases i <;> simp [Instr.isOw] at h <;> rfl

@[simp] theorem beforeCommand_cmd (i : Instr) (s : State) : (beforeCommand i s).cmd = s.cmd := by rw [beforeCommand_eq]
@[simp] theorem beforeCommand_busy (i : Instr) (s : State) : (beforeCommand i s).busy = s.busy := by
  rw [beforeCommand_eq]
@[simp] theorem beforeCommand_resVal (i : Instr) (s : State) : (beforeCommand i s).resVal = s.resVal := by
  rw [beforeCommand_eq]
@[simp] theorem beforeCommand_resReason (i : Instr) (s : State) : (beforeCommand i s).resReason = s.resReason := by
  rw [beforeCommand_eq]
@[simp] theorem beforeCommand_hbuf (i : Instr) (s : State) : (beforeCommand i s).hbuf = s.hbuf := by
  rw [beforeCommand_eq]
@[simp] theorem beforeCommand_seq (i : Instr) (s : State) : (beforeCommand i s).seq = s.seq := by rw [beforeCommand_eq]
@[simp] theorem beforeCommand_ow (i : Instr) (s : State) : (beforeCommand i s).ow = s.ow := by rw [beforeCommand_eq]
@[simp] theorem beforeCommand_par (i : Instr) (s : State) : (beforeCommand i s).par = s.par := by rw [beforeCommand_eq]
@[simp] theorem beforeCommand_host (i : Instr) (s : State) : (beforeCommand i s).host = s.host := by
  rw [beforeCommand_eq]

/-- An accepted word that gives a next state: a decoded command, or an illegal word that ended at once. -/
theorem runWord_next {w : Word24} {s t : State} (h : runWord w s = .next t) :
    (∃ i, decode w = .instr i ∧ exec i (beforeCommand i (accept w s)) = .next t) ∨
      (∃ r, decode w = .illegal r ∧ t = raise .illegal (accept w s)) := by
  unfold runWord runDecoded beginWord at h
  cases hd : decode w with
  | instr i => rw [hd] at h; exact .inl ⟨i, rfl, h⟩
  | illegal r => rw [hd] at h; injection h with h; exact .inr ⟨r, rfl, h.symm⟩

/-- A command that a reset cuts short, where it gives a next state. -/
theorem cutOutcome_next {k : Nat} {s t : State} {o : Host.Outcome State Fault Refusal}
    (h : cutOutcome k s o = .next t) : ∃ n, o = .next n ∧ t = cutByReset k s n := by
  cases o <;> simp only [cutOutcome, reduceCtorEq] at h
  injection h with h
  exact ⟨_, rfl, h.symm⟩

/-! ### A holding sequencer -/

/-- While the sequencer holds, a step in which nothing is accepted resumes it. -/
theorem passTime_hold {s : State} {code : List TwOp} (h1 : s.busy = true) (h2 : s.seq = .hold code) :
    passTime s = runTw code s := by
  unfold passTime resume
  rw [h1, h2]
  rfl

/-- With nothing offered and no dead phase, a step resumes the sequencer. -/
theorem step_hold {s : State} {code : List TwOp} (hb : s.busy = true) (hs : s.seq = .hold code) (hh : s.host = [])
    (hn : s.tw.bus.dead = false) : step s = .next (runTw code s) := by
  rw [step, portStep, hh]
  simp only
  rw [if_neg (by simp [hung, hn]), passTime_hold hb hs]

/-! ### Runs -/

theorem run_next {k : Nat} {s t : State} (h : step s = .next t) :
    Sys2Proof.core.run (k + 1) s = Sys2Proof.core.run k t := by
  have e := Host.Core.run.eq_2 Sys2Proof.core s k
  have h' : Sys2Proof.core.step s = .next t := h
  rw [h'] at e
  exact e

theorem run_fault {k : Nat} {s : State} {f : Fault} (h : step s = .fault f) :
    Sys2Proof.core.run (k + 1) s = .fault f := by
  have e := Host.Core.run.eq_2 Sys2Proof.core s k
  have h' : Sys2Proof.core.step s = .fault f := h
  rw [h'] at e
  exact e

theorem run_refused {k : Nat} {s : State} {r : Refusal} (h : step s = .refused r) :
    Sys2Proof.core.run (k + 1) s = .refused r := by
  have e := Host.Core.run.eq_2 Sys2Proof.core s k
  have h' : Sys2Proof.core.step s = .refused r := h
  rw [h'] at e
  exact e

end Sys2Proof.Machine
end

