-- ==== Sys2Proof/Tests/Slice0.lean ====
section
/-! SUPPORT. The model's own tests. Expected values are those of spec/95_test_vectors.md (vector named in the comment) or
worked by hand from the rule named. The last part holds, for each statement that has hypotheses, a concrete state and
operands that meet them all. -/

namespace Sys2Proof.Tests

open Sys2Proof.Machine

/-! ### Small states and what a test looks at -/

/-- After reset, with a scripted single-wire line (95 section 0). -/
def onLine (levels : List Bit) : State :=
  { State.reset with ow := { OwUnit.reset with bus := { OwUnit.reset.bus with levels := levels } } }

/-- After reset and `tw.enable`, in this transaction state, with a scripted BIU and an address (95 section 2.5). -/
def onBus (st : TwState) (a : BitVec 7) (phases : List PhaseDraw) : State :=
  { State.reset with
    tw :=
      { TwUnit.reset with
        enabled := true
        pullup := true
        state := st
        addr := a
        owned := st == .openW || st == .openR
        bus := { TwUnit.reset.bus with phases := phases } } }

/-- The state with these bytes at hbuf[0], hbuf[1], ... -/
def withHbuf (bs : List Byte) (s : State) : State := memWriteFrom 0 bs s

/-- The state with this port input next. -/
def offered (x : Input) (s : State) : State := { s with host := [x] }

/-- The result of a command that ended. -/
def res : Host.Outcome State Fault Refusal → Option (Byte × Reason)
  | .next t => if t.busy then none else some (t.resVal, t.resReason)
  | .fault _ => none
  | .refused _ => none

/-- The single-wire events of a command. -/
def owSeen : Host.Outcome State Fault Refusal → List OwEvent
  | .next t => t.ow.bus.trace
  | .fault _ => []
  | .refused _ => []

/-- The two-wire events of a command. -/
def twSeen : Host.Outcome State Fault Refusal → List TwEvent
  | .next t => t.tw.bus.trace
  | .fault _ => []
  | .refused _ => []

/-- The first bytes of hbuf after a command. -/
def hbufSeen (n : Nat) : Host.Outcome State Fault Refusal → List (Option Byte)
  | .next t => (indexes n).map t.hbufByte
  | .fault _ => []
  | .refused _ => []

/-- The transaction state after a command. -/
def twStateSeen : Host.Outcome State Fault Refusal → Option TwState
  | .next t => some t.tw.state
  | .fault _ => none
  | .refused _ => none

/-- The bits of these bytes as samples, least significant first. -/
def samples (bs : List Byte) : List Bit := bs.flatMap bitsLsbFirst

/-- The source's example code (V1). -/
def exampleCode : List Byte := [0x28, 0x6e, 0x38, 0xdd, 0x06, 0x00, 0x00, 0x39]

/-! ### Well-formedness: the one check refuses its ill-formed term -/

theorem test_wf_refuses_zero_count : ¬ Instr.WellFormed (.twReadStr 0x10 0) := by decide
theorem test_wf_accepts_counts : Instr.WellFormed (.twReadStr 0x10 1) ∧ Instr.WellFormed (.twReadStr 0x10 255) := by
  decide

/-! ### Decoding: words of V60, V62, and the illegal ones of V61 -/

theorem test_decode_ow :
    decode 0x000000 = .instr .owDetectPresence ∧ decode 0x000001 = .instr (.owWriteBit false) ∧
      decode 0x000101 = .instr (.owWriteBit true) ∧ decode 0x000002 = .instr .owReadBit ∧
      decode 0x00CC03 = .instr (.owWriteByte 0xCC) ∧ decode 0x000004 = .instr .owReadByte ∧
      decode 0x000005 = .instr .owIsBusy ∧ decode 0x000006 = .instr .owReadRom ∧
      decode 0x000007 = .instr .owMatchRom ∧ decode 0x000008 = .instr .owSkipRom ∧
      decode 0x000009 = .instr .owAlarmSearch ∧ decode 0x00000A = .instr .owSearchRom := by decide

theorem test_decode_tw :
    decode 0x000010 = .instr .twEnable ∧ decode 0x000011 = .instr .twDisable ∧
      decode 0x000012 = .instr .twIsEnabled ∧ decode 0x006813 = .instr (.twOpen 0x68) ∧
      decode 0x000014 = .instr .twClose ∧ decode 0x003C15 = .instr (.twWriteByte 0x3C) ∧
      decode 0x020016 = .instr (.twWriteStr 2) ∧ decode 0x000217 = .instr (.twReadCh 0x02) ∧
      decode 0x070018 = .instr (.twReadStr 0x00 7) := by decide

theorem test_decode_ignored_fields :
    decode 0xFFFF00 = .instr .owDetectPresence ∧ decode 0x123406 = .instr .owReadRom ∧
      decode 0xFF0101 = .instr (.owWriteBit true) ∧ decode 0xFF7F13 = .instr (.twOpen 0x7F) ∧
      decode 0x00AB16 = .instr (.twWriteStr 0) ∧ decode 0xFFAB16 = .instr (.twWriteStr 255) ∧
      decode 0x990217 = .instr (.twReadCh 0x02) ∧ decode 0xFFFF14 = .instr .twClose := by decide

theorem test_decode_illegal :
    [0x000020, 0x000040, 0x000080, 0x0000E6].map decode = List.replicate 4 (.illegal .reservedField) ∧
      [0x00000B, 0x00000F, 0x000019, 0x00001F].map decode = List.replicate 4 (.illegal .reservedOpcode) ∧
      [0x000201, 0x00FF01].map decode = List.replicate 2 (.illegal .bitOperand) ∧
      [0x008013, 0x00FF13].map decode = List.replicate 2 (.illegal .addressOperand) ∧
      [0x000018, 0x001018].map decode = List.replicate 2 (.illegal .zeroCount) := by decide

theorem test_encode_words :
    encode (.owWriteByte 0xCC) = 0x00CC03 ∧ encode (.twOpen 0x68) = 0x006813 ∧ encode (.twWriteStr 2) = 0x020016 ∧
      encode (.twReadStr 0x00 7) = 0x070018 := by decide

theorem test_table_word : decodeTableWord 24 0x070018 = some (.twReadStr 0x00 7) ∧ decodeTableWord 24 0x18 = none := by
  decide

/-! ### Single-wire commands -/

/-- V25. -/
theorem test_detect_presence :
    res (exec .owDetectPresence (onLine [false])) = some (0x01, .none) ∧
      res (exec .owDetectPresence (onLine [true])) = some (0x00, .absence) ∧
      owSeen (exec .owDetectPresence (onLine [true])) = [.reset true] := by decide

/-- V20, V21. -/
theorem test_write_bit :
    owSeen (exec (.owWriteBit true) State.reset) = [.wr true] ∧
      owSeen (exec (.owWriteBit false) State.reset) = [.wr false] ∧
      res (exec (.owWriteBit true) State.reset) = some (0x00, .none) := by decide

/-- V20: the line is low from 0 to 1 and then released; V22: low to 1, sampled at 14, over at 59. -/
theorem test_bit_waves :
    (writeBit true OwUnit.reset).bus.marks = [⟨0, .low⟩, ⟨1, .release⟩] ∧
      (readBit (onLine [true]).ow).2.bus.marks = [⟨0, .low⟩, ⟨1, .release⟩, ⟨14, .sample true⟩] ∧
      (readBit (onLine [true]).ow).2.bus.clock = 59 := by decide

/-- V22. -/
theorem test_read_bit :
    res (exec .owReadBit (onLine [true])) = some (0x01, .none) ∧
      res (exec .owReadBit (onLine [false])) = some (0x00, .none) := by decide

/-- V23: 0xA5. -/
theorem test_write_byte :
    owSeen (exec (.owWriteByte 0xA5) State.reset) =
      [.wr true, .wr false, .wr true, .wr false, .wr false, .wr true, .wr false, .wr true] := by decide

/-- V24. -/
theorem test_read_byte :
    res (exec .owReadByte (onLine [true, false, false, false, true, false, false, true])) = some (0x91, .none) ∧
      res (exec .owReadByte (onLine [false, false, false, false, false, false, false, true])) =
        some (0x80, .none) := by decide

/-- V26. -/
theorem test_is_busy :
    res (exec .owIsBusy (onLine [false])) = some (0x01, .none) ∧
      res (exec .owIsBusy (onLine [true])) = some (0x00, .none) := by decide

/-- V10, V11, V12, V13, V17: the CRC, and not the one of another constant. -/
theorem test_crc :
    crc8Update 0x00 0x01 = 0x5E ∧ crc8Update 0x00 0x80 = 0x8C ∧ crc8Update 0x00 0x28 = 0xE1 ∧
      crc8 (exampleCode.take 7) = 0x39 ∧ crc8 (List.replicate 7 0xFF) = 0x14 ∧
      crc8 [0x01, 0x02, 0x03, 0x04, 0x05, 0x06, 0x07] = 0x0F := by decide +kernel

/-- V1 and V9. -/
theorem test_read_rom :
    hbufSeen 8 (exec .owReadRom (onLine (false :: samples exampleCode))) = exampleCode.map some ∧
      res (exec .owReadRom (onLine (false :: samples (exampleCode.take 7 ++ [0x3A])))) =
        some (0x00, .dataIntegrity) := by decide +kernel

/-- V36: no device, nothing but the reset event. -/
theorem test_read_rom_absent :
    owSeen (exec .owReadRom (onLine [true])) = [.reset true] ∧
      res (exec .owReadRom (onLine [true])) = some (0x00, .absence) := by decide

/-- V38: the command byte, then the bytes of hbuf. -/
theorem test_match_rom :
    owSeen (exec .owMatchRom (withHbuf exampleCode State.reset)) = ((0x55 :: exampleCode).flatMap byteSlots) := by
  decide +kernel

/-- V39. -/
theorem test_skip_rom_search_rom :
    owSeen (exec .owSkipRom State.reset) =
        [.wr false, .wr false, .wr true, .wr true, .wr false, .wr false, .wr true, .wr true] ∧
      res (exec .owSearchRom State.reset) = some (0x00, .unsupported) ∧
      owSeen (exec .owSearchRom State.reset) = [] := by decide

/-- V30, V31. -/
theorem test_alarm_search_answers :
    res (exec .owAlarmSearch (onLine [false, true, true])) = some (0x00, .none) ∧
      owSeen (exec .owAlarmSearch (onLine [false, false, true])) =
        .reset false :: byteSlots 0xEC ++ [.rd false, .rd true, .wr false] := by decide

/-- V32, V33. -/
theorem test_alarm_search_writes :
    owSeen (exec .owAlarmSearch (onLine [false, true, false])) =
        .reset false :: byteSlots 0xEC ++ [.rd true, .rd false, .wr true] ∧
      owSeen (exec .owAlarmSearch (onLine [false, false, false])) =
        .reset false :: byteSlots 0xEC ++ [.rd false, .rd false, .wr true] := by decide

/-! ### Two-wire commands -/

/-- V40. -/
theorem test_enable_disable :
    res (exec .twIsEnabled State.reset) = some (0x00, .none) ∧
      res (exec .twEnable State.reset) = some (0x00, .none) ∧
      res (exec .twIsEnabled (onBus .idle 0 [])) = some (0x01, .none) ∧
      res (exec .twDisable (onBus .idle 0 [])) = some (0x00, .none) := by decide

/-- V42, V44. -/
theorem test_open :
    twSeen (exec (.twOpen 0x50) (onBus .idle 0 [.done 0x08 0, .done 0x18 0])) = [.start 0x08, .tx 0xA0 0x18] ∧
      res (exec (.twOpen 0x50) (onBus .idle 0 [.done 0x08 0, .done 0x18 0])) = some (0x01, .none) ∧
      twSeen (exec (.twOpen 0x27) (onBus .idle 0 [.done 0x08 0, .done 0x20 0])) = [.start 0x08, .tx 0x4E 0x20] ∧
      twStateSeen (exec (.twOpen 0x27) (onBus .idle 0 [.done 0x08 0, .done 0x20 0])) = some .failed := by decide

/-- V43: a repeated-start code is not the start code. -/
theorem test_open_start_code :
    res (exec (.twOpen 0x50) (onBus .idle 0 [.done 0x10 0])) = some (0x00, .protocolMismatch) ∧
      twSeen (exec (.twOpen 0x50) (onBus .idle 0 [.done 0x10 0])) = [.start 0x10] := by decide

/-- V45, V46. -/
theorem test_tw_write_byte :
    res (exec (.twWriteByte 0x3C) (onBus .openW 0x50 [.done 0x28 0])) = some (0x01, .none) ∧
      twSeen (exec (.twWriteByte 0x3C) (onBus .openW 0x50 [.done 0x30 0])) = [.tx 0x3C 0x30] ∧
      twStateSeen (exec (.twWriteByte 0x3C) (onBus .openW 0x50 [.done 0x30 0])) = some .failed := by decide

/-- V47, V48. -/
theorem test_write_str :
    twSeen (exec (.twWriteStr 3)
        (withHbuf [0x00, 0x7F, 0x80] (onBus .openW 0x50 [.done 0x28 0, .done 0x28 0, .done 0x28 0]))) =
        [.tx 0x00 0x28, .tx 0x7F 0x28, .tx 0x80 0x28] ∧
      twSeen (exec (.twWriteStr 3)
        (withHbuf [0x00, 0x7F, 0x80] (onBus .openW 0x50 [.done 0x28 0, .done 0x30 0, .done 0x28 0]))) =
        [.tx 0x00 0x28, .tx 0x7F 0x30] := by decide

/-- V49. -/
theorem test_write_str_nothing :
    res (exec (.twWriteStr 0) (onBus .openW 0x50 [])) = some (0x01, .none) ∧
      twSeen (exec (.twWriteStr 0) (onBus .openW 0x50 [])) = [] := by decide

/-- V50. -/
theorem test_read_ch :
    twSeen (exec (.twReadCh 0x02)
        (onBus .openW 0x50 [.done 0x28 0, .done 0x10 0, .done 0x40 0, .done 0x58 0x42])) =
        [.tx 0x02 0x28, .start 0x10, .tx 0xA1 0x40, .rx false 0x42 0x58] ∧
      hbufSeen 1 (exec (.twReadCh 0x02)
        (onBus .openW 0x50 [.done 0x28 0, .done 0x10 0, .done 0x40 0, .done 0x58 0x42])) = [some 0x42] := by decide

/-- V51 (d): the byte arrived, but not with the data NACK status. -/
theorem test_read_ch_discards :
    hbufSeen 1 (exec (.twReadCh 0x02)
        (onBus .openW 0x50 [.done 0x28 0, .done 0x10 0, .done 0x40 0, .done 0x50 0x42])) = [none] := by decide

/-- V52. -/
theorem test_read_str :
    twSeen (exec (.twReadStr 0x00 3)
        (onBus .openW 0x50
          [.done 0x28 0, .done 0x10 0, .done 0x40 0, .done 0x50 0x11, .done 0x50 0x22, .done 0x58 0x33])) =
        [.tx 0x00 0x28, .start 0x10, .tx 0xA1 0x40, .rx true 0x11 0x50, .rx true 0x22 0x50, .rx false 0x33 0x58] ∧
      hbufSeen 4 (exec (.twReadStr 0x00 3)
        (onBus .openW 0x50
          [.done 0x28 0, .done 0x10 0, .done 0x40 0, .done 0x50 0x11, .done 0x50 0x22, .done 0x58 0x33])) =
        [some 0x11, some 0x22, some 0x33, none] := by decide

/-- V54: two bytes kept, the byte of the failed phase not written. -/
theorem test_read_str_failure :
    hbufSeen 4 (exec (.twReadStr 0x00 4)
        (withHbuf [0xAA, 0xAA, 0xAA, 0xAA]
          (onBus .openW 0x50
            [.done 0x28 0, .done 0x10 0, .done 0x40 0, .done 0x50 0x11, .done 0x50 0x22, .done 0x38 0x33]))) =
        [some 0x11, some 0x22, some 0xAA, some 0xAA] := by decide

/-- Enabled and idle, with the stop of a `tw.close` still to come. -/
def closing (phases : List PhaseDraw) : State :=
  { onBus .idle 0x50 phases with
    tw :=
      { (onBus .idle 0x50 phases).tw with
        req := .stop
        owned := true
        bus := { (onBus .idle 0x50 phases).tw.bus with stops := 1 } } }

/-- V55, and the stop of R208 in the next step. -/
theorem test_close :
    res (exec .twClose (onBus .openR 0x50 [])) = some (0x00, .none) ∧
      twStateSeen (exec .twClose (onBus .failed 0x50 [])) = some .idle ∧
      twSeen (step (closing [])) = [.stop] := by decide

/-- V56: the start after a pending stop comes after it on the bus. -/
theorem test_close_then_open :
    twSeen (exec (.twOpen 0x50) (closing [.done 0x08 0, .done 0x18 0])) =
      [.stop, .start 0x08, .tx 0xA0 0x18] := by decide

/-- R79 (c): the stop is on the two-wire bus before the first action on the single-wire line, so a reset right there finds
it on the bus; a command without accesses leaves it where it is. -/
theorem test_close_then_single_wire :
    twSeen (step (offered (.offerThenReset 0x000101 0) (closing []))) = [.stop] ∧
      owSeen (step (offered (.offerThenReset 0x000101 0) (closing []))) = [] ∧
      twSeen (step (offered (.offer 0x000101) (closing []))) = [.stop] ∧
      twSeen (step (offered (.offer 0x00000A) (closing []))) = [] := by decide

/-- V57: the hang. -/
theorem test_hang :
    res (exec (.twOpen 0x50) (onBus .idle 0 [.never])) = none ∧
      twSeen (exec (.twOpen 0x50) (onBus .idle 0 [.never])) = [] := by decide

/-- R209: a wait within a finite bound holds, whatever an earlier wait that timed out has left. -/
theorem test_wait_counts_afresh :
    let left : TwBus := { TwUnit.reset.bus with phases := [.later], waited := 7, dead := true }
    res (exec (.twWriteByte 0x3C)
        { onBus .openW 0x50 [] with
          par := { Params.spec with twTimeout := some 1 }
          tw := { (onBus .openW 0x50 []).tw with bus := left } }) = none := by decide

/-! ### Steps -/

/-- The draws of phases that have not been requested outlive a reset (20_memory.md R68). -/
theorem test_reset_keeps_draws :
    (engineReset (onBus .idle 0 [.never, .later])).tw.bus.phases = [.never, .later] := by decide

/-- V61: an illegal word ends at once. -/
theorem test_illegal_step : res (step (offered (.offer 0x00000B) State.reset)) = some (0x00, .illegal) := by decide

/-- The word that `withFetchWord` places is the next one to run (V39). -/
theorem test_with_fetch_word :
    res (step (State.reset.withFetchWord 24 0x00000A)) = some (0x00, .unsupported) := by decide

/-! ### Witnesses: for each statement with hypotheses, a state and operands that meet them -/

theorem witness_CrcFoldsByteByByte : [0x28, 0x6E].foldl crc8Update 0x00 = [0x28, 0x6E].foldl crc8Update 0x00 := rfl

theorem witness_DecodeOfEncode : Instr.WellFormed (.twReadStr 0xFF 255) := by decide

theorem witness_IllegalWordsEndAtOnce :
    (offered (.offer 0x00000B) State.reset).busy = false ∧
      (offered (.offer 0x00000B) State.reset).host = .offer 0x00000B :: [] ∧
      decode 0x00000B = .illegal .reservedOpcode := by decide

theorem witness_StepRunsTheOfferedCommand :
    (((offered (.offer 0x000010) State.reset).busy = false ∧
        (offered (.offer 0x000010) State.reset).host = .offer 0x000010 :: [] ∧
        decode 0x000010 = .instr .twEnable) ∧ usesLine .twEnable = false) ∧
      ((offered (.offer 0x000101) (closing [])).busy = false ∧
        (offered (.offer 0x000101) (closing [])).host = .offer 0x000101 :: [] ∧
        decode 0x000101 = .instr (.owWriteBit true)) ∧
      usesLine (.owWriteBit true) = true ∧ (offered (.offer 0x000101) (closing [])).tw.bus.stops ≠ 0 ∧
      (offered (.offer 0x000101) (closing [])).tw.req = .stop := by
  decide

/-- The engine holding inside `tw.open`. -/
def holding (ds : List PhaseDraw) : State :=
  hold (.wait :: (openCode 0x50).drop 3)
    { onBus .idle 0x50 ds with tw := { (onBus .idle 0x50 ds).tw with req := .start } }

theorem witness_OfferWhileBusyHasNoEffect :
    (offered (.offer 0x000010) (holding [])).busy = true ∧
      (offered (.offer 0x000010) (holding [])).host = .offer 0x000010 :: [] := by decide

theorem witness_ResultsStableUntilACommandEnds :
    ∃ t, step (offered (.offer 0x00000A) State.reset) = .next t ∧
      (t.resVal ≠ (offered (.offer 0x00000A) State.reset).resVal ∨
        t.resReason ≠ (offered (.offer 0x00000A) State.reset).resReason) :=
  ⟨_, rfl, by decide⟩

theorem witness_StepKeepsParameters : ∃ t, step (offered (.offer 0x000101) State.reset) = .next t := ⟨_, rfl⟩

theorem witness_ResetInputEndsEverything : (offered .reset (holding [.never])).host = .reset :: [] := by decide

/-- The state in which a reset cuts this command word short. -/
def cutting (w : Word24) (k : Nat) (s : State) : State := offered (.offerThenReset w k) s

theorem witness_ResetCutsACommandShort :
    (∀ k : Nat, ∃ t, (cutting 0x000101 k State.reset).busy = false ∧
      (cutting 0x000101 k State.reset).host = .offerThenReset 0x000101 k :: [] ∧
      decode 0x000101 = .instr (.owWriteBit true) ∧
      exec (.owWriteBit true)
          (beforeCommand (.owWriteBit true)
            { cutting 0x000101 k State.reset with host := [], cmd := 0x000101, busy := true }) = .next t ∧
      t.ow.bus.trace = (cutting 0x000101 k State.reset).ow.bus.trace ++ [.wr true] ∧
      t.tw.bus.trace = State.reset.tw.bus.trace ++ [] ∧ (Instr.owWriteBit true).isOw = true) ∧
      ∀ k : Nat, ∃ t, (cutting 0x003C15 k (onBus .openW 0x50 [.done 0x28 0])).busy = false ∧
        (cutting 0x003C15 k (onBus .openW 0x50 [.done 0x28 0])).host = .offerThenReset 0x003C15 k :: [] ∧
        decode 0x003C15 = .instr (.twWriteByte 0x3C) ∧
        exec (.twWriteByte 0x3C)
            (beforeCommand (.twWriteByte 0x3C)
              { cutting 0x003C15 k (onBus .openW 0x50 [.done 0x28 0]) with
                host := []
                cmd := 0x003C15
                busy := true }) = .next t ∧
        t.ow.bus.trace = State.reset.ow.bus.trace ++ [] ∧
        t.tw.bus.trace = State.reset.tw.bus.trace ++ [.tx 0x3C 0x28] ∧ (Instr.twWriteByte 0x3C).isOw = false :=
  ⟨fun _ => ⟨_, rfl, rfl, by decide, rfl, rfl, rfl, rfl⟩, fun _ => ⟨_, rfl, rfl, by decide, rfl, rfl, rfl, rfl⟩⟩

theorem witness_DelayCountsTheTimerDown : 0 < 1024 ∧ 1023 < 1024 := by decide

theorem witness_MaskLoopRunsEightTimes : ({ OwUnit.reset with mask := 0x01 } : OwUnit).mask = 0x01 := by decide

theorem witness_LoopbackReturnsTheByte :
    ∃ t, exec (.owWriteByte 0xA5) State.reset = .next t ∧
      t.ow.bus.trace =
        State.reset.ow.bus.trace ++ [true, false, true, false, false, true, false, true].map OwEvent.wr :=
  ⟨_, rfl, by decide⟩

theorem witness_ReadRomWritesOnlyAValidCode :
    (∃ t, exec .owReadRom (onLine (false :: samples exampleCode)) = .next t ∧ t.resReason = .none) ∧
      (∃ t, exec .owReadRom (onLine [true]) = .next t ∧ t.resReason ≠ .none) ∧ 8 ≤ (0x08 : Byte).toNat :=
  ⟨⟨_, rfl, by decide +kernel⟩, ⟨_, rfl, by decide⟩, by decide⟩

theorem witness_SingleWireWaveform :
    ∃ t, Instr.isOw (.owWriteBit false) = true ∧ exec (.owWriteBit false) State.reset = .next t ∧
      State.reset.ow.drive = false := ⟨_, rfl, rfl, rfl⟩

theorem witness_SingleWireDurations :
    (∃ t, exec .owMatchRom State.reset = .next t) ∧
      (∃ t, exec .owReadRom (onLine [true]) = .next t ∧ t.resReason = .absence) ∧
      (∃ t, exec .owReadRom (onLine (false :: samples exampleCode)) = .next t ∧ t.resReason ≠ .absence) ∧
      (∃ t, exec .owAlarmSearch (onLine [true]) = .next t ∧ t.resReason = .absence) ∧
      (∃ t, exec .owAlarmSearch (onLine [false, true, true]) = .next t ∧ t.resReason ≠ .absence ∧
        (t.ow.b0 && t.ow.b1) = true) ∧
      ∃ t, exec .owAlarmSearch (onLine [false, false, true]) = .next t ∧ t.resReason ≠ .absence ∧
        (t.ow.b0 && t.ow.b1) = false :=
  ⟨⟨_, rfl⟩, ⟨_, rfl, by decide⟩, ⟨_, rfl, by decide +kernel⟩, ⟨_, rfl, by decide⟩,
    ⟨_, rfl, by decide, by decide⟩, _, rfl, by decide, by decide⟩

theorem witness_SingleWireFrame : ∃ t, Instr.isOw .owReadByte = true ∧ exec .owReadByte State.reset = .next t :=
  ⟨_, rfl, rfl⟩

theorem witness_SingleWireIgnoresTwoWire :
    ∃ t, Instr.isOw .owSkipRom = true ∧ exec .owSkipRom State.reset = .next t := ⟨_, rfl, rfl⟩

theorem witness_DisableBetweenTransactions :
    (State.reset.tw.state = .idle ∧ State.reset.tw.req = .none) ∧
      ((onBus .openW 0x50 []).tw.state ≠ .idle ∨ (onBus .openW 0x50 []).tw.req ≠ .none) := by decide

theorem witness_TransactionsRefusedOutsideTheirState :
    Instr.transfer (.twWriteByte 0x3C) = some (.openW, writeByteCode 0x3C) ∧ State.reset.tw.enabled = false ∧
      (onBus .idle 0 []).tw.enabled = true ∧ (onBus .idle 0 []).tw.state ≠ .openW ∧
      (onBus .openW 0x50 []).tw.enabled = true ∧ (onBus .openW 0x50 []).tw.state = .openW := by decide

/-- The bus with nothing left in its script. -/
def spent : TwBus := TwUnit.reset.bus

theorem witness_OpenSucceeds :
    (onBus .idle 0 [.done 0x08 0, .done 0x18 0]).tw.enabled = true ∧
      (onBus .idle 0 [.done 0x08 0, .done 0x18 0]).tw.state = .idle ∧
      (onBus .idle 0 [.done 0x08 0, .done 0x18 0]).tw.bus.completes
        [((onBus .idle 0 []).par.stStart, 0), ((onBus .idle 0 []).par.stSlawAck, 0)] spent :=
  ⟨rfl, rfl, rfl, rfl, rfl⟩

theorem witness_OpenStopsAtAFailedCheck :
    ((onBus .idle 0 [.done 0x10 0]).tw.enabled = true ∧ (onBus .idle 0 [.done 0x10 0]).tw.state = .idle ∧
        (onBus .idle 0 [.done 0x10 0]).tw.bus.completes [(0x10, 0)] spent ∧
        (0x10 : Byte) ≠ (onBus .idle 0 []).par.stStart) ∧
      ((onBus .idle 0 [.done 0x08 0, .done 0x20 0]).tw.bus.completes
          [((onBus .idle 0 []).par.stStart, 0), (0x20, 0)] spent ∧
        (0x20 : Byte) ≠ (onBus .idle 0 []).par.stSlawAck) :=
  ⟨⟨rfl, rfl, ⟨rfl, rfl⟩, by decide⟩, ⟨rfl, rfl, rfl⟩, by decide⟩

theorem witness_CloseFromAnyState :
    State.reset.tw.enabled = false ∧ (onBus .failed 0x50 []).tw.enabled = true := by decide

theorem witness_BiuFinishesTheStop :
    (offered .idle (closing [])).busy = false ∧ (offered .idle (closing [])).host = .idle :: [] ∧
      (offered .idle (closing [])).tw.bus.stops = 0 + 1 ∧ (offered .idle (closing [])).tw.req = .stop := by decide

theorem witness_TwWriteByteOutcomes :
    (onBus .openW 0x50 [.done 0x28 0]).tw.enabled = true ∧ (onBus .openW 0x50 [.done 0x28 0]).tw.state = .openW ∧
      (onBus .openW 0x50 [.done 0x28 0]).tw.bus.completes [(0x28, 0)] spent ∧
      (onBus .openW 0x50 [.done 0x30 0]).tw.bus.completes [(0x30, 0)] spent :=
  ⟨rfl, rfl, ⟨rfl, rfl⟩, rfl, rfl⟩

theorem witness_WriteStrSucceeds :
    ((onBus .openW 0x50 [.done 0x28 0, .done 0x28 0]).tw.enabled = true ∧
        (onBus .openW 0x50 [.done 0x28 0, .done 0x28 0]).tw.state = .openW ∧
        ([0, 0] : List Byte).length = (0x02 : Byte).toNat ∧
        (onBus .openW 0x50 [.done 0x28 0, .done 0x28 0]).tw.bus.completes
          (([0, 0] : List Byte).map fun d => ((onBus .openW 0x50 []).par.stTxDataAck, d)) spent) ∧
      (onBus .openW 0x50 []).tw.enabled = true ∧ (onBus .openW 0x50 []).tw.state = .openW ∧
      ([] : List Byte).length = (0x00 : Byte).toNat ∧
      (onBus .openW 0x50 []).tw.bus.completes
        (([] : List Byte).map fun d => ((onBus .openW 0x50 []).par.stTxDataAck, d)) spent :=
  ⟨⟨rfl, rfl, rfl, rfl, rfl, rfl⟩, rfl, rfl, rfl, rfl⟩

theorem witness_WriteStrStopsAtTheFirstMismatch :
    (onBus .openW 0x50 [.done 0x28 0, .done 0x30 0]).tw.enabled = true ∧
      (onBus .openW 0x50 [.done 0x28 0, .done 0x30 0]).tw.state = .openW ∧ 1 < (0x03 : Byte).toNat ∧
      ([0] : List Byte).length = 1 ∧ (0x30 : Byte) ≠ (onBus .openW 0x50 []).par.stTxDataAck ∧
      (onBus .openW 0x50 [.done 0x28 0, .done 0x30 0]).tw.bus.completes
        (([0] : List Byte).map (fun d => ((onBus .openW 0x50 []).par.stTxDataAck, d)) ++ [(0x30, 0)]) spent :=
  ⟨rfl, rfl, by decide, rfl, by decide, rfl, rfl, rfl⟩

theorem witness_ReadChSucceeds :
    (onBus .openW 0x50 [.done 0x28 0, .done 0x10 0, .done 0x40 0, .done 0x58 0x42]).tw.enabled = true ∧
      (onBus .openW 0x50 [.done 0x28 0, .done 0x10 0, .done 0x40 0, .done 0x58 0x42]).tw.state = .openW ∧
      (onBus .openW 0x50 [.done 0x28 0, .done 0x10 0, .done 0x40 0, .done 0x58 0x42]).tw.bus.completes
        (readDraws (onBus .openW 0x50 []).par 0 0 0 [] 0x42) spent :=
  ⟨rfl, rfl, rfl, rfl, rfl, rfl, rfl⟩

/-- In `OpenW`, with the draws of a read of two bytes, and of one. -/
def readingTwo : State :=
  onBus .openW 0x50 [.done 0x28 0, .done 0x10 0, .done 0x40 0, .done 0x50 0x11, .done 0x58 0x42]
def readingOne : State := onBus .openW 0x50 [.done 0x28 0, .done 0x10 0, .done 0x40 0, .done 0x58 0x42]

theorem witness_ReadStrSucceeds :
    (readingTwo.tw.enabled = true ∧ readingTwo.tw.state = .openW ∧ ([0x11] : List Byte).length + 1 = (0x02 : Byte).toNat ∧
        readingTwo.tw.bus.completes (readDraws readingTwo.par 0 0 0 [0x11] 0x42) spent) ∧
      readingOne.tw.enabled = true ∧ readingOne.tw.state = .openW ∧ ([] : List Byte).length + 1 = (0x01 : Byte).toNat ∧
      readingOne.tw.bus.completes (readDraws readingOne.par 0 0 0 [] 0x42) spent :=
  ⟨⟨rfl, rfl, rfl, rfl, rfl, rfl, rfl, rfl, rfl⟩, rfl, rfl, rfl, rfl, rfl, rfl, rfl, rfl⟩

theorem witness_ReadFailsWhileAddressing :
    ((onBus .openW 0x50 [.done 0x30 0]).tw.enabled = true ∧ (onBus .openW 0x50 [.done 0x30 0]).tw.state = .openW ∧
        (onBus .openW 0x50 [.done 0x30 0]).tw.bus.completes [(0x30, 0)] spent ∧
        (0x30 : Byte) ≠ (onBus .openW 0x50 []).par.stTxDataAck) ∧
      ((onBus .openW 0x50 [.done 0x28 0, .done 0x08 0]).tw.bus.completes
          [((onBus .openW 0x50 []).par.stTxDataAck, 0), (0x08, 0)] spent ∧
        (0x08 : Byte) ≠ (onBus .openW 0x50 []).par.stRepStart) ∧
      ((onBus .openW 0x50 [.done 0x28 0, .done 0x10 0, .done 0x48 0]).tw.bus.completes
          [((onBus .openW 0x50 []).par.stTxDataAck, 0), ((onBus .openW 0x50 []).par.stRepStart, 0), (0x48, 0)]
          spent ∧
        (0x48 : Byte) ≠ (onBus .openW 0x50 []).par.stSlarAck) ∧
      (Instr.twReadStr 0x02 1 = .twReadStr 0x02 1 ∧ (1 : Byte) ≠ 0) :=
  ⟨⟨rfl, rfl, ⟨rfl, rfl⟩, by decide⟩, ⟨⟨rfl, rfl, rfl⟩, by decide⟩, ⟨⟨rfl, rfl, rfl, rfl⟩, by decide⟩, rfl, by decide⟩

theorem witness_ReadStrKeepsTheBytesBeforeAFailure :
    (onBus .openW 0x50 [.done 0x28 0, .done 0x10 0, .done 0x40 0, .done 0x38 0]).tw.enabled = true ∧
      (onBus .openW 0x50 [.done 0x28 0, .done 0x10 0, .done 0x40 0, .done 0x38 0]).tw.state = .openW ∧
      ([] : List Byte).length < (0x02 : Byte).toNat ∧
      (0x38 : Byte) ≠
        (if ([] : List Byte).length + 1 = (0x02 : Byte).toNat then (onBus .openW 0x50 []).par.stRxDataNack
        else (onBus .openW 0x50 []).par.stRxDataAck) ∧
      (onBus .openW 0x50 [.done 0x28 0, .done 0x10 0, .done 0x40 0, .done 0x38 0]).tw.bus.completes
        ([((onBus .openW 0x50 []).par.stTxDataAck, 0), ((onBus .openW 0x50 []).par.stRepStart, 0),
            ((onBus .openW 0x50 []).par.stSlarAck, 0)] ++
          ([] : List Byte).map (fun d => ((onBus .openW 0x50 []).par.stRxDataAck, d)) ++ [(0x38, 0)]) spent :=
  ⟨rfl, rfl, by decide, by decide, rfl, rfl, rfl, rfl, rfl⟩

theorem witness_ReadChDiscardsAMismatchedByte :
    (onBus .openW 0x50 [.done 0x28 0, .done 0x10 0, .done 0x40 0, .done 0x50 0x42]).tw.enabled = true ∧
      (onBus .openW 0x50 [.done 0x28 0, .done 0x10 0, .done 0x40 0, .done 0x50 0x42]).tw.state = .openW ∧
      (0x50 : Byte) ≠ (onBus .openW 0x50 []).par.stRxDataNack ∧
      (onBus .openW 0x50 [.done 0x28 0, .done 0x10 0, .done 0x40 0, .done 0x50 0x42]).tw.bus.completes
        [((onBus .openW 0x50 []).par.stTxDataAck, 0), ((onBus .openW 0x50 []).par.stRepStart, 0),
          ((onBus .openW 0x50 []).par.stSlarAck, 0), (0x50, 0x42)] spent :=
  ⟨rfl, rfl, by decide, rfl, rfl, rfl, rfl, rfl⟩

theorem witness_TransferHoldsUntilTheFlag :
    ∀ x : PhaseDraw, x = .later ∨ x = .never →
      (Instr.transfer (.twWriteStr 1) = some (.openW, writeStrCode 1) ∧ Instr.twWriteStr 1 ≠ .twWriteStr 0 ∧
          (onBus .openW 0x50 [x]).tw.enabled = true ∧ (onBus .openW 0x50 [x]).tw.state = .openW ∧
          (onBus .openW 0x50 [x]).par.twTimeout = none ∧ (onBus .openW 0x50 [x]).tw.bus.phases = x :: []) ∧
        (offered (.offer 0x000014) (holding [x])).busy = true ∧
        (offered (.offer 0x000014) (holding [x])).seq = .hold (.wait :: (openCode 0x50).drop 3) ∧
        (offered (.offer 0x000014) (holding [x])).tw.flag = false ∧
        (offered (.offer 0x000014) (holding [x])).tw.req.pending = true ∧
        (offered (.offer 0x000014) (holding [x])).tw.bus.dead = false ∧
        (offered (.offer 0x000014) (holding [x])).par.twTimeout = none ∧
        (offered (.offer 0x000014) (holding [x])).tw.bus.phases = x :: [] ∧
        (offered (.offer 0x000014) (holding [x])).host = .offer 0x000014 :: [] ∧
        Input.ordinary (.offer 0x000014) = true :=
  fun _ _ => ⟨⟨rfl, by decide, rfl, rfl, rfl, rfl⟩, rfl, rfl, rfl, rfl, rfl, rfl, rfl, rfl, rfl⟩

theorem witness_DelaysAreInvisible :
    ∃ t, Instr.transfer (.twWriteByte 0x3C) = some (.openW, writeByteCode 0x3C) ∧
      (onBus .openW 0x50 [.later, .done 0x28 0]).par.twTimeout = none ∧
      (onBus .openW 0x50 [.later, .done 0x28 0]).host = [] ∧
      (PhaseDraw.never ∉ [PhaseDraw.later, .done 0x28 0]) ∧
      (onBus .openW 0x50 [.later, .done 0x28 0]).tw.bus.phases = [.later, .done 0x28 0] ∧
      exec (.twWriteByte 0x3C)
          { onBus .openW 0x50 [.later, .done 0x28 0] with
            tw :=
              { (onBus .openW 0x50 [.later, .done 0x28 0]).tw with
                bus :=
                  { (onBus .openW 0x50 [.later, .done 0x28 0]).tw.bus with
                    phases := withoutDelays [.later, .done 0x28 0] } } } =
        .next t ∧
      t.busy = false :=
  ⟨_, rfl, rfl, rfl, by decide, rfl, rfl, by decide⟩

/-- A hung machine. -/
def dead : State :=
  { holding [] with tw := { (holding []).tw with bus := { (holding []).tw.bus with dead := true } } }

/-- A hung machine, with one command word still to be offered. -/
def stuck : State := offered (.offer 0x000014) dead

theorem stuck_hung : Hung stuck := ⟨rfl, rfl, ⟨_, rfl⟩, rfl, rfl, rfl⟩

theorem witness_HungForEver :
    ∃ t, Hung stuck ∧ stuck.host.all Input.ordinary = true ∧ Sys2Proof.core.run 1 stuck = .next t :=
  ⟨_, stuck_hung, rfl, rfl⟩

theorem witness_FaultsOnlyWhenHung : Hung dead ∧ dead.host = [] ∧ step dead = .fault .hung :=
  ⟨⟨rfl, rfl, ⟨_, rfl⟩, rfl, rfl, rfl⟩, rfl, rfl⟩

theorem witness_FiniteTimeout :
    ∀ x : PhaseDraw, x = .never ∨ x = .later → ∀ bound : Nat, bound = 0 ∨ bound = 1 →
      (∃ s : State, s.busy = true ∧ s.seq = .hold (.wait :: (openCode 0x50).drop 3) ∧ s.tw.flag = false ∧
        s.tw.req.pending = true ∧ s.tw.bus.phases = x :: [] ∧ s.par.twTimeout = some bound ∧ s.host = [] ∧
        s.tw.bus.waited = 0) ∧
        ∃ s : State, Instr.transfer (.twWriteByte 0x3C) = some (.openW, writeByteCode 0x3C) ∧
          Instr.twWriteByte 0x3C ≠ .twWriteStr 0 ∧ s.tw.enabled = true ∧ s.tw.state = .openW ∧
          s.par.twTimeout = some bound ∧ s.tw.bus.phases = x :: [] :=
  fun x _ bound _ =>
    ⟨⟨{ holding [x] with par := { Params.spec with twTimeout := some bound } }, rfl, rfl, rfl, rfl, rfl, rfl, rfl, rfl⟩,
      { onBus .openW 0x50 [x] with par := { Params.spec with twTimeout := some bound } }, rfl, by decide, rfl, rfl, rfl,
      rfl⟩

theorem witness_OnlyCloseStops :
    ∃ t, exec (.twWriteByte 0x3C) (onBus .openW 0x50 [.done 0x30 0]) = .next t ∧ Instr.twWriteByte 0x3C ≠ .twClose ∧
      t.resReason = .protocolMismatch ∧ t.busy = false ∧ (Instr.transfer (.twWriteByte 0x3C)).isSome = true :=
  ⟨_, rfl, by decide, by decide, by decide, by decide⟩

theorem witness_CloseRecovers :
    (onBus .failed 0x50 []).tw.enabled = true ∧ (onBus .failed 0x50 []).tw.state = .failed ∧
      Instr.transfer (.twOpen 0x50) = some (.idle, openCode 0x50) := by decide

theorem witness_ReasonsByCommand :
    (∃ t, Instr.WellFormed .owDetectPresence ∧ (onLine [true]).par.twTimeout = none ∧
        exec .owDetectPresence (onLine [true]) = .next t ∧ t.busy = false ∧ t.resReason = .absence) ∧
      (∃ t, exec (.twWriteByte 0x3C) (onBus .openW 0x50 [.done 0x30 0]) = .next t ∧ t.busy = false ∧
        t.resReason = .protocolMismatch) ∧
      (∃ t, exec .owReadRom (onLine (false :: samples (List.replicate 8 0xFF))) = .next t ∧ t.busy = false ∧
        t.resReason = .dataIntegrity) ∧
      ∃ t, exec .owSearchRom State.reset = .next t ∧ t.busy = false ∧ t.resReason = .unsupported :=
  ⟨⟨_, by decide, rfl, rfl, by decide, by decide⟩, ⟨_, rfl, by decide, by decide⟩,
    ⟨_, rfl, by decide +kernel, by decide +kernel⟩, _, rfl, by decide, by decide⟩

theorem witness_TwoWireFrame :
    ∃ t, Instr.isOw (.twReadStr 0x00 1) = false ∧
      exec (.twReadStr 0x00 1) (onBus .openW 0x50 [.done 0x28 0, .done 0x10 0, .done 0x40 0, .done 0x58 0x42]) =
        .next t ∧ (0x01 : Byte).toNat ≤ (0x01 : Byte).toNat :=
  ⟨_, rfl, rfl, by decide⟩

theorem witness_TwoWireIgnoresSingleWire :
    ∃ t, Instr.isOw .twIsEnabled = false ∧ exec .twIsEnabled State.reset = .next t := ⟨_, rfl, rfl⟩

/-- In `OpenW` after a successful `tw.open`, with these draws. -/
def opened (phases : List PhaseDraw) : State :=
  { onBus .openW 0x50 phases with tw := { (onBus .openW 0x50 phases).tw with status := 0x18 } }

theorem witness_BehavingBiuPassesTheChecks :
    (Instr.transfer (.twOpen 0x50) = some (.idle, openCode 0x50) ∧ Params.Distinct Params.spec ∧
        Params.spec.dirWrite ≠ Params.spec.dirRead ∧
        (onBus .idle 0 [.done 0x08 0, .done 0x18 0]).tw.ownedAfterStops = false ∧
        FollowsTable (openCode 0x50) (onBus .idle 0 [.done 0x08 0, .done 0x18 0])) ∧
      Instr.transfer (.twReadStr 0x02 2) = some (.openW, readStrCode 0x02 2) ∧
      (opened []).tw.ownedAfterStops = true ∧ (opened []).tw.status = (opened []).par.stSlawAck ∧
      FollowsTable (readStrCode 0x02 2)
        (opened [.done 0x28 0, .done 0x10 0, .done 0x40 0, .done 0x50 0x11, .done 0x58 0x42]) :=
  ⟨⟨rfl, by decide, by decide, rfl, ⟨_, _, rfl, rfl⟩, ⟨_, _, rfl, rfl⟩, trivial⟩, rfl, rfl, rfl, ⟨_, _, rfl, rfl⟩,
    ⟨_, _, rfl, rfl⟩, ⟨_, _, rfl, rfl⟩, ⟨_, _, rfl, rfl⟩, ⟨_, _, rfl, rfl⟩, trivial⟩

theorem witness_HostAccess :
    (State.reset.busy = false ∧
        ({ State.reset with host := [.hostWrite 0xFF 0x42, .hostRead 0xFF] } : State).host =
          .hostWrite 0xFF 0x42 :: .hostRead 0xFF :: []) ∧
      (offered (.hostRead 0x00) (holding [])).busy = true ∧
      (offered (.hostRead 0x00) (holding [])).host = .hostRead 0x00 :: [] := by decide

theorem witness_StepKeepsInv :
    ∃ t, Invariant (offered (.offer 0x000010) State.reset) ∧
      step (offered (.offer 0x000010) State.reset) = .next t :=
  ⟨_, by
    constructor <;> simp [offered, State.reset, OwUnit.reset, TwUnit.reset, Params.spec, TwReq.pending]
    rfl, rfl⟩

end Sys2Proof.Tests
end

section
/-! ## The frame of the single-wire commands (10_state.md R49, 20_memory.md R63) -/

namespace Sys2Proof.Machine

/-- What a single-wire command leaves as it was (R49): everything outside unit OW and the host buffer, and the registers
its rule does not name. The line stays released, the timer at rest and hbuf canonical. -/
structure OwFrame (i : Instr) (s t : State) : Prop where
  tw : t.tw = s.tw
  cmd : t.cmd = s.cmd
  par : t.par = s.par
  host : t.host = s.host
  hbRdata : t.hbRdata = s.hbRdata
  released : s.ow.drive = false → t.ow.drive = false
  timer : s.ow.timer = 0 → t.ow.timer = 0
  memory : Memory.wf s.hbuf = true → Memory.wf t.hbuf = true
  rom : i ≠ .owReadRom → t.ow.scratch = s.ow.scratch ∧ t.ow.crc = s.ow.crc ∧ t.hbuf = s.hbuf
  shift : i ≠ .owReadRom → i ≠ .owReadByte → t.ow.shift = s.ow.shift
  responses : i ≠ .owAlarmSearch → t.ow.b0 = s.ow.b0 ∧ t.ow.b1 = s.ow.b1
  mask : (i = .owDetectPresence ∨ (∃ v, i = .owWriteBit v) ∨ i = .owReadBit ∨ i = .owIsBusy ∨ i = .owSearchRom) →
    t.ow.mask = s.ow.mask

/-- The end of `ow.read_rom` writes hbuf alone, and keeps it canonical. -/
theorem romResult_frame (s : State) :
    (romResult s).ow = s.ow ∧ (romResult s).tw = s.tw ∧ (romResult s).cmd = s.cmd ∧ (romResult s).par = s.par ∧
      (romResult s).host = s.host ∧ (romResult s).hbRdata = s.hbRdata ∧
      (Memory.wf s.hbuf = true → Memory.wf (romResult s).hbuf = true) := by
  unfold romResult
  split
  · simpa using wf_memWriteFrom 0 s.ow.scratch.toList s
  · simp

theorem owReadRom_frame (s : State) : OwFrame .owReadRom s
    (readRomAfter (detectPresence s.ow).1 { s with ow := (detectPresence s.ow).2 }) := by
  unfold readRomAfter
  split
  · obtain ⟨how, htw, hcmd, hpar, hhost, hrd, hwf⟩ := romResult_frame
      { s with ow := romTransfer s.par.cmdReadRom (detectPresence s.ow).2 }
    exact
      { tw := htw, cmd := hcmd, par := hpar, host := hhost, hbRdata := hrd, memory := hwf
        released := fun _ => by rw [how, romTransfer_eq]
        timer := fun _ => by rw [how, romTransfer_eq]
        rom := by simp
        shift := by simp
        responses := fun _ => by rw [how, romTransfer_eq, detectPresence_eq]; exact ⟨rfl, rfl⟩
        mask := by simp }
  · constructor <;> simp [detectPresence_eq]

theorem owAlarmSearch_frame (s : State) : OwFrame .owAlarmSearch s
    (alarmAfter (detectPresence s.ow).1 { s with ow := (detectPresence s.ow).2 }) := by
  unfold alarmAfter alarmResult
  rw [detectPresence_eq, writeByte_eq, readResponses_eq]
  split
  · split
    · constructor <;> simp
    · rw [writeBit_eq]
      constructor <;> simp
  · constructor <;> simp

theorem owDetectPresence_frame (s : State) : OwFrame .owDetectPresence s
    (presenceResult (detectPresence s.ow).1 { s with ow := (detectPresence s.ow).2 }) := by
  unfold presenceResult
  rw [detectPresence_eq]
  split
  · constructor <;> simp
  · constructor <;> simp

theorem exec_owFrame {i : Instr} {s t : State} (hi : i.isOw = true) (h : exec i s = .next t) : OwFrame i s t := by
  cases i with
  | owReadRom => injection h with h; exact h ▸ owReadRom_frame s
  | owAlarmSearch => injection h with h; exact h ▸ owAlarmSearch_frame s
  | owDetectPresence => injection h with h; exact h ▸ owDetectPresence_frame s
  | owMatchRom =>
    injection h with h
    subst h
    rw [writeHbufBytes_eq, writeBytes_eq _ _ (by simp [hbufBytes]), writeByte_eq]
    constructor <;> simp
  | owWriteBit _ | owReadBit | owWriteByte _ | owReadByte | owIsBusy | owSkipRom | owSearchRom =>
    injection h with h
    subst h
    constructor <;> simp [writeBit_eq, readBit_eq, writeByte_eq, readByte_eq]
  | twEnable | twDisable | twIsEnabled | twOpen _ | twClose | twWriteByte _ | twWriteStr _ | twReadCh _ | twReadStr _ _ =>
    cases hi

/-- A single-wire command always ends: with a result, or with result 0 and a reason other than `Timeout` (R260). -/
theorem exec_ow_ends {i : Instr} {s t : State} (hi : i.isOw = true) (h : exec i s = .next t) :
    t.busy = false ∧ t.seq = .idle ∧ (t.resReason ≠ .none → t.resVal = 0) ∧ t.resReason ≠ .timeout := by
  obtain ⟨s1, -, -, -, ⟨v, rfl⟩ | ⟨r, rfl, hr⟩⟩ := ow_cases i s t hi h
  · simp
  · refine ⟨rfl, rfl, fun _ => rfl, ?_⟩
    rcases hr with ⟨rfl, -⟩ | ⟨rfl, -⟩ | ⟨rfl, -⟩ <;> simp

/-- Settles O29, from the frame of each single-wire command. -/
theorem singleWireFrame : Obligations.SingleWireFrame := by
  intro i s t hi h
  have f := exec_owFrame hi h
  refine ⟨f.tw, f.cmd, f.par, f.host, f.hbRdata, fun hrom => ?_, f.responses, f.mask⟩
  obtain ⟨hscratch, hcrc, hhbuf⟩ := f.rom hrom
  exact ⟨hscratch, hcrc, hbufByte_congr hhbuf, f.shift hrom⟩

end Sys2Proof.Machine
end

section
/-! ## The frame of the two-wire commands (10_state.md R49, 20_memory.md R63) -/

namespace Sys2Proof.Machine

/-- What a run of two-wire pseudocode leaves as it was besides `runTw_frame`: the enables, and each register and byte
that no micro-operation of the code writes (R49). -/
structure TwFrame (code : List TwOp) (s t : State) : Prop where
  enabled : t.tw.enabled = s.tw.enabled
  pullup : t.tw.pullup = s.tw.pullup
  addr : (∀ a, .setAddr a ∉ code) → t.tw.addr = s.tw.addr
  idx : (∀ i, .setIdx i ∉ code) → t.tw.idx = s.tw.idx
  hbuf : ∀ a : Byte, .store a ∉ code → t.hbufByte a = s.hbufByte a

/-- The registers that only a command's own writes change: neither a request nor a phase of the BIU does. -/
theorem request_tw_kept (r : Request) (s : State) :
    (request r s).tw.enabled = s.tw.enabled ∧ (request r s).tw.pullup = s.tw.pullup ∧
      (request r s).tw.addr = s.tw.addr ∧ (request r s).tw.idx = s.tw.idx := by
  cases r with
  | send b => cases b <;> simp [request, sendByte, biuSend]
  | _ => simp [request, biuStart, biuRecv, biuStop]

theorem biuPhase_kept (p : Params) (u : TwUnit) :
    (biuPhase p u).enabled = u.enabled ∧ (biuPhase p u).pullup = u.pullup ∧ (biuPhase p u).addr = u.addr ∧
      (biuPhase p u).idx = u.idx := by
  unfold biuPhase
  split
  · simp
  · split <;> simp [completePhase, finishStops]

theorem pollFlag_tw_kept (s : State) :
    (pollFlag s).tw.enabled = s.tw.enabled ∧ (pollFlag s).tw.pullup = s.tw.pullup ∧
      (pollFlag s).tw.addr = s.tw.addr ∧ (pollFlag s).tw.idx = s.tw.idx := by
  unfold pollFlag biuStep
  split
  · simp
  · split <;> simp [biuPhase_kept]

/-- Where unit TW and hbuf stay, so does all of the frame. -/
theorem TwFrame.of_eq (code : List TwOp) {s t : State} (htw : t.tw = s.tw) (hhbuf : t.hbuf = s.hbuf) :
    TwFrame code s t :=
  ⟨by rw [htw], by rw [htw], fun _ => by rw [htw], fun _ => by rw [htw], fun a _ => hbufByte_congr hhbuf a⟩

/-- The frame of a micro-operation and that of the code after it. -/
theorem TwFrame.cons {op : TwOp} {rest : List TwOp} {s s1 t : State} (h : TwFrame [op] s s1) (hr : TwFrame rest s1 t) :
    TwFrame (op :: rest) s t where
  enabled := hr.enabled.trans h.enabled
  pullup := hr.pullup.trans h.pullup
  addr hn := (hr.addr fun a ha => hn a (.tail _ ha)).trans (h.addr fun a ha => hn a (by simp_all))
  idx hn := (hr.idx fun a ha => hn a (.tail _ ha)).trans (h.idx fun a ha => hn a (by simp_all))
  hbuf a hn := (hr.hbuf a fun ha => hn (.tail _ ha)).trans (h.hbuf a fun ha => hn (by simp_all))

theorem request_twFrame (r : Request) (s : State) : TwFrame [.request r] s (request r s) := by
  obtain ⟨henabled, hpullup, haddr, hidx⟩ := request_tw_kept r s
  exact ⟨henabled, hpullup, fun _ => haddr, fun _ => hidx, fun a _ => hbufByte_congr (request_hbuf r s) a⟩

theorem pollFlag_twFrame (s : State) : TwFrame [.wait] s (pollFlag s) := by
  obtain ⟨henabled, hpullup, haddr, hidx⟩ := pollFlag_tw_kept s
  exact ⟨henabled, hpullup, fun _ => haddr, fun _ => hidx, fun _ _ => rfl⟩

theorem store_twFrame (i v : Byte) (s : State) : TwFrame [.store i] s (memWrite i v s) where
  enabled := rfl
  pullup := rfl
  addr _ := rfl
  idx _ := rfl
  hbuf a ha := by rw [hbufByte_memWrite, if_neg (by simpa using ha)]

theorem failTransaction_twFrame (code : List TwOp) (r : Reason) (s : State) :
    TwFrame code s (failTransaction r s) := ⟨rfl, rfl, fun _ => rfl, fun _ => rfl, fun _ _ => rfl⟩

/-- What a run of the sequencer leaves, by what its code writes. -/
theorem runTw_twFrame (code : List TwOp) (s : State) : TwFrame code s (runTw code s) := by
  refine runTw_induction TwFrame ?nil ?ret ?setAddr ?setState ?setIdx ?request ?store ?check ?mismatch ?wait ?expired
    ?hold code s
  case nil => exact fun s => .of_eq [] rfl rfl
  case ret => exact fun v rest s => .of_eq _ rfl rfl
  case setAddr =>
    exact fun a rest s t => .cons ⟨rfl, rfl, fun hn => absurd (.head _) (hn a), fun _ => rfl, fun _ _ => rfl⟩
  case setState => exact fun a rest s t => .cons ⟨rfl, rfl, fun _ => rfl, fun _ => rfl, fun _ _ => rfl⟩
  case setIdx =>
    exact fun a rest s t => .cons ⟨rfl, rfl, fun _ => rfl, fun hn => absurd (.head _) (hn a), fun _ _ => rfl⟩
  case request => exact fun r rest s t => .cons (request_twFrame r s)
  case store => exact fun i rest s t => .cons (store_twFrame i _ s)
  case check => exact fun c rest s t _ => .cons (.of_eq _ rfl rfl)
  case mismatch => exact fun c rest s _ => failTransaction_twFrame _ _ s
  case wait => exact fun rest s t _ => .cons (pollFlag_twFrame s)
  case expired => exact fun rest s _ _ => .cons (pollFlag_twFrame s) (failTransaction_twFrame rest _ _)
  case hold => exact fun rest s _ _ => .cons (pollFlag_twFrame s) (.of_eq rest rfl rfl)

theorem enableUnit_kept (u : TwUnit) : (enableUnit u).addr = u.addr ∧ (enableUnit u).idx = u.idx := by
  unfold enableUnit
  split <;> exact ⟨rfl, rfl⟩

/-! ### What the pseudocode of the transfers writes -/

theorem writeLoop_writes (k i : Nat) :
    (∀ a, .setAddr a ∉ writeLoop i k) ∧ ∀ a, .store a ∉ writeLoop i k := by
  induction k generalizing i with
  | zero => simp [writeLoop]
  | succ k ih => simp [writeLoop, twStep, ih]

/-- The loop of `tw.read_str` stores at the indexes it counts through. -/
theorem readLoop_writes (k i : Nat) :
    (∀ a, .setAddr a ∉ readLoop i k) ∧
      ∀ a : Byte, .store a ∈ readLoop i k → ∃ j, i ≤ j ∧ j < i + k ∧ a = BitVec.ofNat 8 j := by
  induction k generalizing i with
  | zero => simp [readLoop]
  | succ k ih =>
    obtain ⟨haddr, hstore⟩ := ih (i + 1)
    refine ⟨by simp [readLoop, twStep, haddr], fun a ha => ?_⟩
    simp only [readLoop, twStep, List.cons_append, List.nil_append, List.mem_cons, reduceCtorEq, false_or,
      TwOp.store.injEq] at ha
    rcases ha with rfl | ha
    · exact ⟨i, by omega, by omega, rfl⟩
    · obtain ⟨j, hj, hk, rfl⟩ := hstore a ha
      exact ⟨j, by omega, by omega, rfl⟩

/-- What each transfer's pseudocode writes (44_tw_transactions.md R232, R234 to R237). -/
theorem transfer_writes (i : Instr) (need : TwState) (code : List TwOp) :
    i.transfer = some (need, code) →
    ((∀ a, i ≠ .twOpen a) → ∀ a, .setAddr a ∉ code) ∧
      ((∀ n, i ≠ .twWriteStr n) → (∀ r n, i ≠ .twReadStr r n) → ∀ a, .setIdx a ∉ code) ∧
      ∀ a : Byte,
        (match i with
          | .twReadCh _ => a ≠ 0
          | .twReadStr _ n => n.toNat ≤ a.toNat
          | _ => True) → .store a ∉ code := by
  intro h
  cases i <;> simp only [Instr.transfer, reduceCtorEq, Option.some.injEq, Prod.mk.injEq] at h
  case twOpen a => obtain ⟨-, rfl⟩ := h; simp [openCode, twStep]
  case twWriteByte d => obtain ⟨-, rfl⟩ := h; simp [writeByteCode, twStep]
  case twWriteStr n => obtain ⟨-, rfl⟩ := h; simp [writeStrCode, writeLoop_writes]
  case twReadCh r => obtain ⟨-, rfl⟩ := h; simp [readChCode, selectCode, lastByteCode, twStep]
  case twReadStr r n =>
    obtain ⟨hn, -, rfl⟩ : n ≠ 0 ∧ _ := by simpa using h
    obtain ⟨haddr, hstore⟩ := readLoop_writes (n.toNat - 1) 0
    have hpos : n.toNat ≠ 0 := fun h0 => hn (BitVec.eq_of_toNat_eq h0)
    refine ⟨by simp [readStrCode, selectCode, lastByteCode, twStep, haddr], by simp, fun a ha hmem => ?_⟩
    have ha : n.toNat ≤ a.toNat := ha
    simp only [readStrCode, selectCode, lastByteCode, twStep, List.mem_append, List.mem_cons, reduceCtorEq, false_or,
      or_false, TwOp.store.injEq, List.not_mem_nil] at hmem
    rcases hmem with hmem | rfl
    · obtain ⟨j, -, hj, rfl⟩ := hstore a hmem
      simp at ha
      omega
    · simp at ha
      omega

/-- Settles O55: a transfer by what its pseudocode writes, the other commands by their closed forms. -/
theorem twoWireFrame : Obligations.TwoWireFrame := by
  intro i s t hi h
  rcases tw_cases i s t hi h with ⟨rfl, rfl⟩ | ⟨rfl, -, -, rfl⟩ | ⟨rfl, rfl⟩ | ⟨rfl, -, rfl⟩ | ⟨r, rfl, rfl⟩ |
    ⟨need, code, htr, -, -, rfl⟩
  · obtain ⟨haddr, hidx⟩ := enableUnit_kept s.tw
    exact ⟨rfl, rfl, rfl, rfl, rfl, fun _ => haddr, fun _ _ => hidx, fun hn => absurd rfl hn, fun _ _ => rfl⟩
  · exact ⟨rfl, rfl, rfl, rfl, rfl, fun _ => rfl, fun _ _ => rfl, fun _ hn => absurd rfl hn, fun _ _ => rfl⟩
  · exact ⟨rfl, rfl, rfl, rfl, rfl, fun _ => rfl, fun _ _ => rfl, fun _ _ => ⟨rfl, rfl⟩, fun _ _ => rfl⟩
  · exact ⟨rfl, rfl, rfl, rfl, rfl, fun _ => rfl, fun _ _ => rfl, fun _ _ => ⟨rfl, rfl⟩, fun _ _ => rfl⟩
  · exact ⟨rfl, rfl, rfl, rfl, rfl, fun _ => rfl, fun _ _ => rfl, fun _ _ => ⟨rfl, rfl⟩, fun _ _ => rfl⟩
  · obtain ⟨hcmd, how, hpar, hhost, hrd⟩ := runTw_frame code s
    obtain ⟨haddr, hidx, hstore⟩ := transfer_writes i need code htr
    have f := runTw_twFrame code s
    exact ⟨how, hcmd, hpar, hhost, hrd, fun hn => f.addr (haddr hn), fun hw hr => f.idx (hidx hw hr),
      fun _ _ => ⟨f.enabled, f.pullup⟩, fun a ha => f.hbuf a (hstore a ha)⟩

end Sys2Proof.Machine
end

section
/-! ## What a step can do, and what it leaves (10_state.md R21 to R23, R45, R48) -/

namespace Sys2Proof.Machine

/-! ### One step, by the input it takes -/

theorem step_nil {s : State} (hs : s.host = []) : step s = if hung s then .fault .hung else .next (passTime s) := by
  rw [step, portStep, hs]

theorem step_cons {s : State} {x : Input} {rest : List Input} (hs : s.host = x :: rest) :
    step s = inputStep x { s with host := rest } := by
  rw [step, portStep, hs]

theorem hostWrite_of_idle (a v : Byte) {s : State} (hb : s.busy = false) :
    hostWrite a v s = .next (memWrite a v s) := by
  rw [hostWrite, if_neg (by simp [hb])]

theorem hostRead_of_idle (a : Byte) {s : State} (hb : s.busy = false) :
    hostRead a s = .next { (memRead a s).2 with hbRdata := (memRead a s).1 } := by
  rw [hostRead, if_neg (by simp [hb])]

/-- Every way a step answers a next state (10_state.md R48; log 6). -/
inductive StepCase (s : State) : State → Prop
  /-- Nothing is accepted: the sequencer resumes, or the BIU finishes a stop. -/
  | pass (rest : List Input)
      (quiet : s.host = [] ∨ s.host = .idle :: rest ∨ s.busy = true ∧ ∃ w, s.host = .offer w :: rest) :
      StepCase s (passTime { s with host := rest })
  | word {t : State} (w : Word24) (rest : List Input) (offered : s.host = .offer w :: rest) (ready : s.busy = false)
      (runs : runWord w { s with host := rest } = .next t) : StepCase s t
  | hostWrite (a v : Byte) (rest : List Input) (input : s.host = .hostWrite a v :: rest) (ready : s.busy = false) :
      StepCase s (memWrite a v { s with host := rest })
  | hostRead (a : Byte) (rest : List Input) (input : s.host = .hostRead a :: rest) (ready : s.busy = false) :
      StepCase s
        { (memRead a { s with host := rest }).2 with hbRdata := (memRead a { s with host := rest }).1 }
  /-- A reset, the cut short command's included: the parameters are all that is asked of the state it is asserted in. -/
  | reset (c : State) (rest : List Input)
      (input : s.host = .reset :: rest ∨ ∃ w k, s.host = .offerThenReset w k :: rest) (par : c.par = s.par) :
      StepCase s (engineReset c)

/-- No command writes a parameter. -/
theorem exec_par {i : Instr} {s t : State} (h : exec i s = .next t) : t.par = s.par := by
  cases hi : i.isOw with
  | true => exact (exec_owFrame hi h).par
  | false =>
    obtain ⟨-, -, hpar, -⟩ := twoWireFrame i s t hi h
    exact hpar

/-- Nor does an accepted word, legal or illegal. -/
theorem runWord_par {w : Word24} {s t : State} (h : runWord w s = .next t) : t.par = s.par := by
  obtain ⟨i, -, h⟩ | ⟨r, -, rfl⟩ := runWord_next h
  · rw [exec_par h, beforeCommand_par, accept_par]
  · rfl

theorem step_cases {s t : State} (h : step s = .next t) : StepCase s t := by
  cases hs : s.host with
  | nil =>
    have hself : { s with host := [] } = s := by rw [← hs]
    have hpass := StepCase.pass (s := s) [] (.inl hs)
    rw [step_nil hs] at h
    split at h
    · cases h
    · injection h with h
      rwa [hself, h] at hpass
  | cons x rest =>
    rw [step_cons hs] at h
    generalize hs0 : ({ s with host := rest } : State) = s0 at h
    simp only [inputStep, hostWrite, hostRead] at h
    cases hb : s0.busy with
    | true =>
      cases x <;> simp only [hb, if_true, reduceCtorEq] at h <;> injection h with h <;> subst h <;> subst hs0
      case idle => exact .pass rest (.inr (.inl hs))
      case offer w => exact .pass rest (.inr (.inr ⟨hb, w, hs⟩))
      case reset => exact .reset _ rest (.inl hs) rfl
      case offerThenReset w k => exact .reset _ rest (.inr ⟨w, k, hs⟩) rfl
    | false =>
      cases x <;> simp only [hb, Bool.false_eq_true, if_false] at h
      case offer w => subst hs0; exact .word w rest hs hb h
      case offerThenReset w k =>
        obtain ⟨n, hn, rfl⟩ := cutOutcome_next h
        subst hs0
        exact .reset _ rest (.inr ⟨w, k, hs⟩) ((runWord_par hn).trans rfl)
      all_goals injection h with h; subst h; subst hs0
      case idle => exact .pass rest (.inr (.inl hs))
      case hostWrite a v => exact .hostWrite a v rest hs hb
      case hostRead a => exact .hostRead a rest hs hb
      case reset => exact .reset _ rest (.inl hs) rfl

/-- A step in which nothing is accepted leaves `cmd`, unit OW, the parameters and the port inputs still to come. -/
theorem passTime_frame (s : State) :
    (passTime s).cmd = s.cmd ∧ (passTime s).ow = s.ow ∧ (passTime s).par = s.par ∧ (passTime s).host = s.host := by
  unfold passTime resume
  split
  · split
    · exact ⟨rfl, rfl, rfl, rfl⟩
    · obtain ⟨hcmd, how, hpar, hhost, -⟩ := runTw_frame _ s
      exact ⟨hcmd, how, hpar, hhost⟩
  · exact ⟨rfl, rfl, rfl, rfl⟩

/-- Settles O8, by what a step can do. -/
theorem stepKeepsParameters : Obligations.StepKeepsParameters := by
  intro s t h
  cases step_cases h with
  | pass rest =>
    obtain ⟨-, -, hpar, -⟩ := passTime_frame { s with host := rest }
    exact hpar
  | word w rest _ _ hrun => exact (runWord_par hrun).trans rfl
  | hostWrite => rfl
  | hostRead => rfl
  | reset c rest _ hpar => exact hpar

/-! ### When the result registers change -/

/-- The command has ended, or the result registers are as they were. -/
def EndedOrSameResult (s t : State) : Prop :=
  t.busy = false ∧ t.seq = .idle ∨ t.resVal = s.resVal ∧ t.resReason = s.resReason

theorem runTw_endedOrSameResult (code : List TwOp) (s : State) : EndedOrSameResult s (runTw code s) := by
  refine runTw_induction (fun _ => EndedOrSameResult) ?nil ?ret ?setAddr ?setState ?setIdx ?request ?store ?check
    ?mismatch ?wait ?expired ?hold code s
  case nil => exact fun s => .inr ⟨rfl, rfl⟩
  case ret => exact fun v rest s => .inl ⟨rfl, rfl⟩
  case mismatch => exact fun c rest s _ => .inl ⟨rfl, rfl⟩
  case expired => exact fun rest s _ _ => .inl ⟨rfl, rfl⟩
  case hold => exact fun rest s _ _ => .inr ⟨rfl, rfl⟩
  case request =>
    intro r rest s t h
    rwa [EndedOrSameResult, request_resVal, request_resReason] at h
  all_goals intros; assumption

theorem exec_endedOrSameResult {i : Instr} {s t : State} (h : exec i s = .next t) : EndedOrSameResult s t := by
  cases hi : i.isOw with
  | true =>
    obtain ⟨hbusy, hseq, -⟩ := exec_ow_ends hi h
    exact .inl ⟨hbusy, hseq⟩
  | false =>
    rcases tw_cases i s t hi h with ⟨-, rfl⟩ | ⟨-, -, -, rfl⟩ | ⟨-, rfl⟩ | ⟨-, -, rfl⟩ | ⟨r, -, rfl⟩ |
      ⟨need, code, -, -, -, rfl⟩
    case inr.inr.inr.inr.inr => exact runTw_endedOrSameResult code s
    all_goals exact .inl ⟨rfl, rfl⟩

theorem runWord_endedOrSameResult {w : Word24} {s t : State} (h : runWord w s = .next t) : EndedOrSameResult s t := by
  obtain ⟨i, -, h⟩ | ⟨r, -, rfl⟩ := runWord_next h
  · have hexec := exec_endedOrSameResult h
    rwa [EndedOrSameResult, beforeCommand_resVal, beforeCommand_resReason] at hexec
  · exact .inl ⟨rfl, rfl⟩

/-- With nothing accepted the result changes only at the end of a command that was in flight. -/
theorem passTime_endedOrSameResult (s : State) :
    s.busy = true ∧ (passTime s).busy = false ∧ (passTime s).seq = .idle ∨
      (passTime s).resVal = s.resVal ∧ (passTime s).resReason = s.resReason := by
  unfold passTime
  cases hb : s.busy with
  | false => exact .inr ⟨rfl, rfl⟩
  | true =>
    unfold resume
    cases hq : s.seq with
    | idle => exact .inr ⟨rfl, rfl⟩
    | hold rest =>
      obtain hend | hsame := runTw_endedOrSameResult rest s
      · exact .inl ⟨rfl, hend⟩
      · exact .inr hsame

/-- While a command is in flight and no access or reset comes, `res_valid` says that it has ended. -/
theorem resValid_of_quiet {s t : State} {rest : List Input} (hb : s.busy = true)
    (quiet : s.host = [] ∨ s.host = .idle :: rest ∨ s.busy = true ∧ ∃ w, s.host = .offer w :: rest) :
    resValid s t = !t.busy := by
  rcases quiet with hs | hs | ⟨-, w, hs⟩ <;> simp [resValid, hs, hb]

/-- Settles O7: of the inputs, only a resumed sequencer, an accepted word and a reset write the result registers. -/
theorem resultsStableUntilACommandEnds : Obligations.ResultsStableUntilACommandEnds := by
  intro s t h hchange
  cases step_cases h with
  | pass rest quiet =>
    obtain ⟨hb, hbusy, hseq⟩ | ⟨hval, hreason⟩ := passTime_endedOrSameResult { s with host := rest }
    · have hb : s.busy = true := hb
      exact ⟨hbusy, hseq, .inl ⟨by rw [resValid_of_quiet hb quiet, hbusy]; rfl, .inl hb⟩⟩
    · exact absurd hchange (by simp [hval, hreason])
  | word w rest hs _ hrun =>
    obtain ⟨hbusy, hseq⟩ | ⟨hval, hreason⟩ := runWord_endedOrSameResult hrun
    · exact ⟨hbusy, hseq, .inl ⟨by simp [resValid, hs, hbusy], .inr ⟨w, rest, hs⟩⟩⟩
    · exact absurd hchange (by simp [hval, hreason])
  | hostWrite => simp at hchange
  | hostRead => simp at hchange
  | reset c rest hs => exact ⟨rfl, rfl, .inr ⟨rest, hs⟩⟩

/-! ### Offered words, the host's accesses, reset -/

/-- Settles O5: acceptance, then `settleStops` where the command uses the line. -/
theorem stepRunsTheOfferedCommand : Obligations.StepRunsTheOfferedCommand := by
  intro s w rest i hb hs hd
  have hstep : step s = exec i (beforeCommand i (accept w { s with host := rest })) := by
    rw [step_cons hs, inputStep, if_neg (by simp [hb]), runWord, beginWord, hd]
    rfl
  rw [hstep, beforeCommand_eq, accept_tw, settleStops_eq]
  refine ⟨fun hquiet => ?_, fun hline hstops hreq => ?_⟩
  · rcases hquiet with hline | hstops
    · simp [hline, accept]
    · simp [hstops, accept]
  · simp [hline, hstops, hreq, accept]

/-- Settles O6: while busy an offer is a step in which nothing is accepted. -/
theorem offerWhileBusyHasNoEffect : Obligations.OfferWhileBusyHasNoEffect := by
  intro s w rest hb hs
  have hstep : step s = .next (passTime { s with host := rest }) := by
    rw [step_cons hs, inputStep, if_pos hb]
  obtain ⟨hcmd, how, -, hhost⟩ := passTime_frame { s with host := rest }
  exact ⟨hstep.trans rfl, _, hstep, hcmd, hhost, how⟩

/-- Settles O58, by the read-after-write law of hbuf. -/
theorem hostAccess : Obligations.HostAccess := by
  intro s a v rest
  refine ⟨fun hb hs => ?_, fun hb hs => ?_⟩
  · let t := memWrite a v { s with host := .hostRead a :: rest }
    have hwritten : t.hbufByte a = some v := by simp [t, hbufByte_memWrite]
    have hread : memRead a { t with host := rest } = (v, { t with host := rest }) := memRead_of_some _ _ _ hwritten
    refine ⟨t, { t with host := rest, hbRdata := v }, ?_, hwritten, fun b hne => ?_, ?_, rfl⟩
    · rw [step_cons hs]
      exact hostWrite_of_idle a v hb
    · exact (hbufByte_memWrite ..).trans (if_neg hne)
    · rw [step_cons rfl]
      exact (hostRead_of_idle (s := { t with host := rest }) a hb).trans (by rw [hread])
  · rcases hs with hs | hs
    · rw [step_cons hs]
      exact if_pos hb
    · rw [step_cons hs]
      exact if_pos hb

/-- Settles O9. -/
theorem resetState : Obligations.ResetState :=
  ⟨rfl, rfl, rfl, rfl, fun _ => rfl, rfl, rfl, rfl, rfl, rfl, rfl, rfl, rfl⟩

end Sys2Proof.Machine
end

section
/-! ## The invariant

Between two micro-operations of a command either no phase is pending (`Ready`) or the sequencer is about to wait for the
one that is (`Waiting`). The invariant is `Ready` while the engine is idle and `Waiting` while it holds. -/

namespace Sys2Proof.Machine

/-- What holds of the engine between any two micro-operations: the part of `Invariant` that speaks of neither `busy`,
`seq`, the latch nor the flag. -/
structure Steady (s : State) : Prop where
  unbounded : s.par.twTimeout = none
  memory : Memory.wf s.hbuf = true
  released : s.ow.drive = false
  timer : s.ow.timer = 0
  failZero : s.resReason ≠ .none → s.resVal = 0
  noTimeout : s.resReason ≠ .timeout
  pullup : s.tw.pullup = s.tw.enabled
  openOwned : s.tw.state = .openW ∨ s.tw.state = .openR → s.tw.holdsBus

/-- No phase is pending but a stop. Every command begins in such a state, and ends in one. -/
structure Ready (s : State) : Prop extends Steady s where
  disabledIdle : s.tw.enabled = false → s.tw.state = .idle ∧ s.tw.req = .none
  noPhase : s.tw.req.pending = false
  stopReq : s.tw.req = .stop ↔ s.tw.bus.stops ≠ 0

/-- The sequencer is at a `WaitFlag`, the flag is down and the phase is pending. -/
structure Waiting (s : State) : Prop extends Steady s where
  enabled : s.tw.enabled = true
  flagDown : s.tw.flag = false
  pending : s.tw.req.pending = true

/-! ### Between the invariant and its two parts -/

theorem Invariant.ready {s : State} (h : Invariant s) (hq : s.seq = .idle) : Ready s :=
  { h with
    noPhase := h.idleReq hq
    stopReq := by rw [h.stopReq, h.idleReq hq]; simp }

theorem Ready.invariant {s : State} (h : Ready s) (hb : s.busy = false) (hq : s.seq = .idle) : Invariant s :=
  { h with
    busyHolds := by simp [hb, hq]
    idleReq := fun _ => h.noPhase
    stopReq := by rw [h.stopReq, h.noPhase]; simp
    holdPoint := by simp [hq]
    holdOwned := by simp [hq]
    holdStart := by simp [hq] }

theorem Invariant.waiting {s : State} {rest : List TwOp} (h : Invariant s) (hq : s.seq = .hold rest) : Waiting s := by
  obtain ⟨-, hflag, hpending⟩ := h.holdPoint rest hq
  have henabled : s.tw.enabled = true := by
    cases he : s.tw.enabled with
    | true => rfl
    | false =>
      obtain ⟨-, hreq⟩ := h.disabledIdle he
      rw [hreq] at hpending
      cases hpending
  exact { h with enabled := henabled, flagDown := hflag, pending := hpending }

/-- A pending phase is no stop. -/
theorem ne_stop_of_pending {r : TwReq} (h : r.pending = true) : r ≠ .stop := by
  rintro rfl
  cases h

/-- Holding at `WaitFlag` before `Check(c)`: before the check of a start `tw.open` waits for that start, before any other
check the bus is owned. -/
theorem Waiting.invariant_hold {s : State} {c : StatusName} {rest : List TwOp} (h : Waiting s)
    (hp : HoldPoint (.wait :: .check c :: rest)) (hrest : .check .start ∉ rest)
    (howned : c ≠ .start → s.tw.holdsBus) (hstart : c = .start → s.tw.req = .start) :
    Invariant (hold (.wait :: .check c :: rest) s) :=
  { h with
    busyHolds := by simp
    disabledIdle := by simp [h.enabled]
    idleReq := by simp
    stopReq := by simp [h.pending, ne_stop_of_pending h.pending]
    holdPoint := fun r hr => by cases hr; exact ⟨hp, h.flagDown, h.pending⟩
    holdOwned := fun r hr hn => by cases hr; exact howned (by rintro rfl; simp at hn)
    holdStart := fun r hr hm => by
      cases hr
      obtain rfl : c = .start := by simpa [hrest, eq_comm] using hm
      exact ⟨hstart rfl, rest, rfl⟩ }

/-! ### What keeps `Ready` -/

/-- The part of `Ready` that speaks of unit TW. -/
theorem Ready.withTw {s : State} (h : Ready s) {u : TwUnit} (hpullup : u.pullup = u.enabled)
    (hdisabled : u.enabled = false → u.state = .idle ∧ u.req = .none) (hphase : u.req.pending = false)
    (hstop : u.req = .stop ↔ u.bus.stops ≠ 0) (hopen : u.state = .openW ∨ u.state = .openR → u.holdsBus) :
    Ready { s with tw := u } :=
  { h with
    pullup := hpullup
    disabledIdle := hdisabled
    noPhase := hphase
    stopReq := hstop
    openOwned := hopen }

/-- A command that ends leaves the invariant, whatever its result. -/
theorem Ready.invariant_finish {s : State} (h : Ready s) (v : Byte) : Invariant (finish v s) :=
  Ready.invariant { h with failZero := fun hr => absurd rfl hr, noTimeout := by simp } rfl rfl

theorem Ready.invariant_raise {s : State} (h : Ready s) {r : Reason} (hr : r ≠ .timeout) : Invariant (raise r s) :=
  Ready.invariant { h with failZero := fun _ => rfl, noTimeout := hr } rfl rfl

theorem Ready.memWrite {s : State} (h : Ready s) (i v : Byte) : Ready (memWrite i v s) :=
  { h with memory := Memory.wf_write _ _ _ h.memory }

theorem Ready.invariant_mismatch {s : State} (h : Ready s) (he : s.tw.enabled = true) :
    Invariant (failTransaction .protocolMismatch s) :=
  Ready.invariant_raise
    (h.withTw (u := { s.tw with state := .failed }) h.pullup (by simp [he]) h.noPhase h.stopReq (by simp)) (by simp)

/-- On an owned bus the transaction state may be any. -/
theorem Ready.withState {s : State} (h : Ready s) (he : s.tw.enabled = true) (ho : s.tw.holdsBus) (t : TwState) :
    Ready { s with tw := { s.tw with state := t } } :=
  h.withTw (u := { s.tw with state := t }) h.pullup (by simp [he]) h.noPhase h.stopReq fun _ => ho

/-- Where a stop is to come the latch is the stop's, and no transaction is open. -/
theorem Ready.stopToCome {s : State} (h : Ready s) (hs : s.tw.bus.stops ≠ 0) :
    s.tw.req = .stop ∧ s.tw.enabled = true ∧ ¬(s.tw.state = .openW ∨ s.tw.state = .openR) := by
  have hreq := h.stopReq.mpr hs
  refine ⟨hreq, ?_, fun ho => hs (h.openOwned ho).2⟩
  cases he : s.tw.enabled with
  | true => rfl
  | false =>
    obtain ⟨-, hnone⟩ := h.disabledIdle he
    exact absurd (hreq.symm.trans hnone) (by decide)

theorem Ready.settleStops {s : State} (h : Ready s) : Ready { s with tw := settleStops s.tw } := by
  rw [settleStops_eq]
  split
  · exact h
  · rename_i hs
    obtain ⟨hreq, henabled, hclosed⟩ := h.stopToCome hs
    exact h.withTw h.pullup (by simp [henabled]) (by simp [hreq, TwReq.pending]) (by simp [hreq])
      fun ho => absurd ho hclosed

theorem Ready.beforeCommand {s : State} (h : Ready s) (i : Instr) : Ready (beforeCommand i s) := by
  rw [beforeCommand_eq]
  split
  · exact h.settleStops
  · exact h

theorem Ready.biuFinishStop {s : State} (h : Ready s) : Ready { s with tw := biuFinishStop s.tw } := by
  unfold Machine.biuFinishStop
  cases hs : s.tw.bus.stops with
  | zero => exact h
  | succ k =>
    obtain ⟨hreq, henabled, hclosed⟩ := h.stopToCome (by simp [hs])
    refine h.withTw h.pullup (by simp [henabled]) ?_ ?_ fun ho => absurd ho hclosed
    · cases k <;> simp [hreq, TwReq.pending]
    · cases k <;> simp [hreq]

/-! ### A phase: request, wait, check -/

/-- No request but a stop takes the bus away, and none changes the transaction state. -/
theorem request_transaction (r : Request) (s : State) (hr : r ≠ .stop) :
    (request r s).tw.state = s.tw.state ∧ ((request r s).tw.holdsBus ↔ s.tw.holdsBus) := by
  cases r with
  | stop => exact absurd rfl hr
  | send b => cases b <;> exact ⟨rfl, .rfl⟩
  | start | recv ack => exact ⟨rfl, .rfl⟩

theorem Ready.request {s : State} (h : Ready s) (he : s.tw.enabled = true) {r : Request} (hr : r ≠ .stop) :
    Waiting (request r s) := by
  obtain ⟨hflag, hpending⟩ := request_pending r s hr
  obtain ⟨henabled, hpullup, -⟩ := request_tw_kept r s
  obtain ⟨hstate, hbus⟩ := request_transaction r s hr
  exact
    { unbounded := by rw [request_par]; exact h.unbounded
      memory := by rw [request_hbuf]; exact h.memory
      released := by rw [request_ow]; exact h.released
      timer := by rw [request_ow]; exact h.timer
      failZero := by rw [request_resReason, request_resVal]; exact h.failZero
      noTimeout := by rw [request_resReason]; exact h.noTimeout
      pullup := by rw [hpullup, henabled]; exact h.pullup
      enabled := henabled.trans he
      flagDown := hflag
      pending := hpending
      openOwned := by rw [hstate, hbus]; exact h.openOwned }

/-- A completed phase leaves the engine on the bus if it was, and a start that reports its code puts it there (R205). -/
theorem afterPhase_holdsBus {p : Params} {st d : Byte} {b' : TwBus} {u : TwUnit}
    (h : u.holdsBus ∨ u.req = .start ∧ st = p.stStart) : (u.afterPhase p st d b').holdsBus := by
  refine ⟨?_, rfl⟩
  rcases h with ⟨howned, hstops⟩ | ⟨hreq, hst⟩
  · cases hr : u.req <;> simp [TwUnit.afterPhase, phaseOwned, TwUnit.ownedAfterStops, howned, hstops, hr]
  · simp [TwUnit.afterPhase, phaseOwned, hreq, hst]

theorem Waiting.afterPhase {s : State} (h : Waiting s) (st d : Byte) (b' : TwBus) :
    Ready { s with tw := s.tw.afterPhase s.par st d b' } :=
  { h with
    disabledIdle := by simp [TwUnit.afterPhase, h.enabled]
    noPhase := rfl
    stopReq := by simp [TwUnit.afterPhase, TwBus.after]
    openOwned := fun ho => afterPhase_holdsBus (.inl (h.openOwned ho)) }

theorem Waiting.withBus {s : State} (h : Waiting s) {o : Bit} {b : TwBus}
    (hb : s.tw.holdsBus → o = true ∧ b.stops = 0) :
    Waiting { s with tw := { s.tw with owned := o, bus := b } } :=
  { h with openOwned := fun ho => hb (h.openOwned ho) }

/-- `WaitFlag` and `Check(c)`: the sequencer holds, the check fails, or the rest runs on an owned bus. -/
theorem Waiting.invariant_runTw {s : State} {c : StatusName} {rest : List TwOp} (h : Waiting s)
    (hp : HoldPoint (.wait :: .check c :: rest)) (hrest : .check .start ∉ rest)
    (howned : c ≠ .start → s.tw.holdsBus) (hstart : c = .start → s.tw.req = .start)
    (hnext : ∀ s1, Ready s1 → s1.tw.enabled = true → s1.tw.holdsBus → Invariant (runTw rest s1)) :
    Invariant (runTw (.wait :: .check c :: rest) s) := by
  simp only [runTw]
  rcases pollFlag_cases s h.flagDown h.pending with ⟨st, d, b', hpoll⟩ | ⟨o, b, hpoll, hb⟩
  · have hready := h.afterPhase st d b'
    rw [hpoll, if_pos (by rfl)]
    split
    · rename_i hst
      have hst : st = s.par.status c := eq_of_beq hst
      refine hnext _ hready h.enabled (afterPhase_holdsBus ?_)
      by_cases hc : c = .start
      · exact .inr ⟨hstart hc, by rw [hst, hc]; rfl⟩
      · exact .inl (howned hc)
    · exact hready.invariant_mismatch h.enabled
  · rw [hpoll, if_neg (by simp [h.flagDown]), if_neg (by simp [waitExpired, h.unbounded])]
    exact (h.withBus hb).invariant_hold hp hrest (fun hc => hb (howned hc)) hstart

/-! ### The pseudocode of the transfers -/

/-- Pseudocode that runs on an owned bus: phases, each one a request, its wait and the check of a status other than
START, with register and buffer writes between them, and a return at the end. -/
inductive OwnedCode : List TwOp → Prop
  | ret (v : Byte) : OwnedCode [.ret v]
  | phase {r : Request} {c : StatusName} {rest : List TwOp} (hr : r ≠ .stop) (hc : c ≠ .start) (h : OwnedCode rest) :
      OwnedCode (.request r :: .wait :: .check c :: rest)
  | setState (t : TwState) {rest : List TwOp} (h : OwnedCode rest) : OwnedCode (.setState t :: rest)
  | setIdx (i : Byte) {rest : List TwOp} (h : OwnedCode rest) : OwnedCode (.setIdx i :: rest)
  | store (i : Byte) {rest : List TwOp} (h : OwnedCode rest) : OwnedCode (.store i :: rest)

theorem OwnedCode.noStart {code : List TwOp} (h : OwnedCode code) : .check .start ∉ code := by
  induction h with
  | ret => simp
  | phase _ hc _ ih => simpa [eq_comm] using ⟨hc, ih⟩
  | setState _ _ ih | setIdx _ _ ih | store _ _ ih => simpa using ih

theorem ownedCode_lastByte (i : Byte) : OwnedCode (lastByteCode i) :=
  .phase (by simp) (by simp) (.store _ (.ret _))

theorem ownedCode_select (reg : Byte) {rest : List TwOp} (h : OwnedCode rest) : OwnedCode (selectCode reg ++ rest) :=
  .phase (by simp) (by simp) (.phase (by simp) (by simp) (.phase (by simp) (by simp) (.setState _ h)))

theorem ownedCode_writeLoop (k i : Nat) {rest : List TwOp} (h : OwnedCode rest) :
    OwnedCode (writeLoop i k ++ rest) := by
  induction k generalizing i with
  | zero => exact h
  | succ k ih => exact .setIdx _ (.phase (by simp) (by simp) (ih _))

theorem ownedCode_readLoop (k i : Nat) {rest : List TwOp} (h : OwnedCode rest) :
    OwnedCode (readLoop i k ++ rest) := by
  induction k generalizing i with
  | zero => exact h
  | succ k ih => exact .setIdx _ (.phase (by simp) (by simp) (.store _ (ih _)))

/-- The shape of each transfer's pseudocode by its "from" state (44_tw_transactions.md R230): from `OpenW` all of it
runs on an owned bus, from `Idle` what comes after the start does. -/
theorem transfer_shape {i : Instr} {need : TwState} {code : List TwOp} (h : i.transfer = some (need, code)) :
    need = .openW ∧ OwnedCode code ∨
      ∃ a rest, code = .setAddr a :: .request .start :: .wait :: .check .start :: rest ∧ OwnedCode rest := by
  cases i <;> simp only [Instr.transfer, reduceCtorEq, Option.some.injEq, Prod.mk.injEq] at h
  case twOpen a =>
    obtain ⟨-, rfl⟩ := h
    exact .inr ⟨a, _, rfl, .phase (by simp) (by simp) (.setState _ (.ret _))⟩
  case twWriteByte d =>
    obtain ⟨rfl, rfl⟩ := h
    exact .inl ⟨rfl, .phase (by simp) (by simp) (.ret _)⟩
  case twWriteStr n =>
    obtain ⟨rfl, rfl⟩ := h
    exact .inl ⟨rfl, ownedCode_writeLoop _ _ (.ret _)⟩
  case twReadCh r =>
    obtain ⟨rfl, rfl⟩ := h
    exact .inl ⟨rfl, ownedCode_select _ (ownedCode_lastByte _)⟩
  case twReadStr r n =>
    obtain ⟨-, rfl, rfl⟩ : n ≠ 0 ∧ _ := by simpa using h
    refine .inl ⟨rfl, ?_⟩
    rw [readStrCode, List.append_assoc]
    exact ownedCode_select _ (ownedCode_readLoop _ _ (ownedCode_lastByte _))

/-- A `WaitFlag` inside such code stands before a check, and such code follows. -/
theorem OwnedCode.at_wait {code more : List TwOp} (h : OwnedCode code) (hs : .wait :: more <:+ code) :
    ∃ c rest, more = .check c :: rest ∧ OwnedCode rest := by
  induction h with
  | ret => simp [List.suffix_cons_iff] at hs
  | @phase r c rest _ _ h ih =>
    rw [List.suffix_cons_iff, List.suffix_cons_iff, List.suffix_cons_iff] at hs
    rcases hs with hs | hs | hs | hs
    · cases hs
    · injection hs with _ hs
      exact ⟨c, rest, hs, h⟩
    · cases hs
    · exact ih hs
  | setState _ _ ih | setIdx _ _ ih | store _ _ ih =>
    rw [List.suffix_cons_iff] at hs
    exact ih (hs.resolve_left (by simp))

/-- Where the sequencer can hold, a check comes after the wait, and then code that runs on an owned bus. -/
theorem holdPoint_shape {code : List TwOp} (h : HoldPoint code) :
    ∃ c rest, code = .wait :: .check c :: rest ∧ OwnedCode rest := by
  obtain ⟨⟨i, need, full, htr, hs⟩, more, rfl⟩ := h
  have hmore : ∃ c rest, more = .check c :: rest ∧ OwnedCode rest := by
    rcases transfer_shape htr with ⟨-, hcode⟩ | ⟨a, rest, rfl, hrest⟩
    · exact hcode.at_wait hs
    · rw [List.suffix_cons_iff, List.suffix_cons_iff, List.suffix_cons_iff, List.suffix_cons_iff] at hs
      rcases hs with hs | hs | hs | hs | hs
      · cases hs
      · cases hs
      · injection hs with _ hs
        exact ⟨_, rest, hs, hrest⟩
      · cases hs
      · exact hrest.at_wait hs
  obtain ⟨c, rest, rfl, hrest⟩ := hmore
  exact ⟨c, rest, rfl, hrest⟩

/-- What is left of a transfer's pseudocode. -/
def LeftOfTransfer (code : List TwOp) : Prop := ∃ i need full, Instr.transfer i = some (need, full) ∧ code <:+ full

theorem LeftOfTransfer.tail {op : TwOp} {code : List TwOp} (h : LeftOfTransfer (op :: code)) : LeftOfTransfer code := by
  obtain ⟨i, need, full, htr, hs⟩ := h
  exact ⟨i, need, full, htr, (List.suffix_cons op code).trans hs⟩

/-! ### Runs keep the invariant -/

/-- The rest of a transfer on an owned bus ends or holds in a state with the invariant. -/
theorem OwnedCode.invariant_runTw {code : List TwOp} (hc : OwnedCode code) (hl : LeftOfTransfer code) {s : State}
    (h : Ready s) (he : s.tw.enabled = true) (ho : s.tw.holdsBus) : Invariant (runTw code s) := by
  induction hc generalizing s with
  | ret v => exact h.invariant_finish v
  | @phase r c rest hr hne hc ih =>
    refine (h.request he hr).invariant_runTw ⟨hl.tail, _, rfl⟩ hc.noStart (fun _ => ?_) (fun h => absurd h hne)
      fun s1 => ih hl.tail.tail.tail
    exact (request_transaction r s hr).2.mpr ho
  | setState t _ ih => exact ih hl.tail (h.withState he ho t) he ho
  | setIdx i _ ih => exact ih hl.tail { h with } he ho
  | store i _ ih => exact ih hl.tail (h.memWrite i s.tw.data) he ho

/-- A transfer inside its precondition keeps the invariant. -/
theorem Ready.invariant_transfer {i : Instr} {need : TwState} {code : List TwOp} {s : State} (h : Ready s)
    (htr : i.transfer = some (need, code)) (he : s.tw.enabled = true) (hs : s.tw.state = need) :
    Invariant (runTw code s) := by
  have hl : LeftOfTransfer code := ⟨i, need, code, htr, List.suffix_rfl⟩
  rcases transfer_shape htr with ⟨rfl, hcode⟩ | ⟨a, rest, rfl, hrest⟩
  · exact hcode.invariant_runTw hl h he (h.openOwned (.inl hs))
  · have haddr : Ready { s with tw := { s.tw with addr := a } } := { h with }
    exact (haddr.request (r := .start) he (by simp)).invariant_runTw ⟨hl.tail.tail, _, rfl⟩ hrest.noStart
      (fun hn => absurd rfl hn) (fun _ => rfl) fun s1 => hrest.invariant_runTw hl.tail.tail.tail.tail

/-- So does a sequencer that resumes where it holds. -/
theorem Invariant.runTw_hold {code : List TwOp} {s : State} (h : Invariant s) (hq : s.seq = .hold code) :
    Invariant (runTw code s) := by
  obtain ⟨hp, -, -⟩ := h.holdPoint code hq
  obtain ⟨c, rest, rfl, hrest⟩ := holdPoint_shape hp
  have hl : LeftOfTransfer (.wait :: .check c :: rest) := hp.1
  refine (h.waiting hq).invariant_runTw hp hrest.noStart (fun hc => ?_) (fun hc => ?_)
    fun s1 => hrest.invariant_runTw hl.tail.tail
  · exact h.holdOwned _ hq (by simpa [eq_comm] using ⟨hc, hrest.noStart⟩)
  · exact (h.holdStart _ hq (by simp [hc])).1

/-- `tw.close` requests a stop, and leaves it to the BIU (R233). -/
theorem Ready.invariant_close {s : State} (h : Ready s) (he : s.tw.enabled = true) : Invariant (runTw closeCode s) :=
  Ready.invariant_finish
    (h.withTw (u := { biuStop s.tw with state := .idle }) h.pullup (by simp [biuStop, he]) rfl (by simp [biuStop])
      (by simp)) 0

theorem Ready.enableUnit {s : State} (h : Ready s) : Ready { s with tw := enableUnit s.tw } := by
  unfold Machine.enableUnit
  split
  · exact h
  · exact h.withTw rfl (by simp) h.noPhase h.stopReq h.openOwned

/-- A single-wire command leaves unit TW alone, the line released, the timer at rest and hbuf canonical. -/
theorem OwFrame.ready {i : Instr} {s t : State} (f : OwFrame i s t) (h : Ready s)
    (hzero : t.resReason ≠ .none → t.resVal = 0) (hno : t.resReason ≠ .timeout) : Ready t where
  unbounded := by rw [f.par]; exact h.unbounded
  memory := f.memory h.memory
  released := f.released h.released
  timer := f.timer h.timer
  failZero := hzero
  noTimeout := hno
  pullup := by rw [f.tw]; exact h.pullup
  disabledIdle := by rw [f.tw]; exact h.disabledIdle
  noPhase := by rw [f.tw]; exact h.noPhase
  stopReq := by rw [f.tw]; exact h.stopReq
  openOwned := by rw [f.tw]; exact h.openOwned

/-- Every command takes a state between commands to one with the invariant. -/
theorem Ready.invariant_exec {i : Instr} {s t : State} (h : Ready s) (hx : exec i s = .next t) : Invariant t := by
  cases hi : i.isOw with
  | true =>
    obtain ⟨hbusy, hseq, hzero, hno⟩ := exec_ow_ends hi hx
    exact ((exec_owFrame hi hx).ready h hzero hno).invariant hbusy hseq
  | false =>
    rcases tw_cases i s t hi hx with ⟨-, rfl⟩ | ⟨-, hidle, hnone, rfl⟩ | ⟨-, rfl⟩ | ⟨-, he, rfl⟩ | ⟨r, -, rfl⟩ |
      ⟨need, code, htr, he, hs, rfl⟩
    · exact h.enableUnit.invariant_finish 0
    · exact (h.withTw (u := disableUnit s.tw) rfl (fun _ => ⟨hidle, hnone⟩) h.noPhase h.stopReq
        h.openOwned).invariant_finish 0
    · exact h.invariant_finish _
    · exact h.invariant_close he
    · exact h.invariant_raise (by simp)
    · exact h.invariant_transfer htr he hs

theorem Ready.invariant_runWord {w : Word24} {s t : State} (h : Ready s) (hw : runWord w s = .next t) :
    Invariant t := by
  have haccept : Ready (accept w s) := { h with }
  obtain ⟨i, -, hx⟩ | ⟨r, -, rfl⟩ := runWord_next hw
  · exact (haccept.beforeCommand i).invariant_exec hx
  · exact haccept.invariant_raise (by simp)

/-! ### Steps keep the invariant -/

/-- What the outside world has still to offer is no part of the invariant. -/
theorem Invariant.withHost {s : State} (h : Invariant s) (rest : List Input) : Invariant { s with host := rest } :=
  { h with }

theorem Invariant.seq_idle {s : State} (h : Invariant s) (hb : s.busy = false) : s.seq = .idle := by
  cases hq : s.seq with
  | idle => rfl
  | hold rest => exact absurd (hb.symm.trans (h.busyHolds.mpr (by simp [hq]))) (by decide)

theorem passTime_idle {s : State} (hb : s.busy = false) : passTime s = { s with tw := biuFinishStop s.tw } := by
  rw [passTime, if_neg (by simp [hb])]

theorem Invariant.passTime {s : State} (h : Invariant s) : Invariant (passTime s) := by
  cases hb : s.busy with
  | false =>
    have hq := h.seq_idle hb
    rw [passTime_idle hb]
    exact (h.ready hq).biuFinishStop.invariant hb hq
  | true =>
    cases hq : s.seq with
    | idle => exact absurd hq (h.busyHolds.mp hb)
    | hold code =>
      rw [passTime_hold hb hq]
      exact h.runTw_hold hq

/-- A reset leaves the invariant whatever was going on (70_reset_and_hazards.md R300, R301). -/
theorem invariant_engineReset {s : State} (h : s.par.twTimeout = none) : Invariant (engineReset s) :=
  have hready : Ready (engineReset s) :=
    { unbounded := h
      memory := rfl
      released := rfl
      timer := rfl
      failZero := fun hr => absurd rfl hr
      noTimeout := by simp [engineReset, State.reset]
      pullup := rfl
      disabledIdle := fun _ => ⟨rfl, rfl⟩
      noPhase := rfl
      stopReq := by simp [engineReset, TwUnit.reset]
      openOwned := by simp [engineReset, TwUnit.reset] }
  hready.invariant rfl rfl

/-- Settles O60, by what a step can do: while busy it resumes the sequencer, while idle every input begins between
commands. -/
theorem stepKeepsInv : Obligations.StepKeepsInv := by
  intro s t h hstep
  cases step_cases hstep with
  | pass rest => exact (h.withHost rest).passTime
  | word w rest _ hb hrun => exact ((h.withHost rest).ready (h.seq_idle hb)).invariant_runWord hrun
  | hostWrite a v rest _ hb =>
    exact (((h.withHost rest).ready (h.seq_idle hb)).memWrite a v).invariant hb (h.seq_idle hb)
  | hostRead a rest _ hb =>
    have hready := h.ready (h.seq_idle hb)
    exact Ready.invariant { hready with } hb (h.seq_idle hb)
  | reset c rest _ hpar => exact invariant_engineReset (by rw [hpar]; exact h.unbounded)

/-- Settles O59: the state after reset is what a reset makes of it. -/
theorem resetMeetsInv : Obligations.ResetMeetsInv := invariant_engineReset (s := State.reset) rfl

end Sys2Proof.Machine
end

section
/-! ## The two-wire commands and unit OW (20_memory.md R63) -/

namespace Sys2Proof.Machine

/-! ### Another unit OW under the sequencer -/

/-- A send reads its byte from hbuf, the parameters or unit TW, so a request is the same over any unit OW. -/
theorem request_withOw (r : Request) (s : State) (u : OwUnit) :
    request r { s with ow := u } = { request r s with ow := u } := by
  cases r with
  | send b => cases b <;> rfl
  | start | recv _ | stop => rfl

/-- So is a run of two-wire pseudocode: every branch it takes is decided by unit TW and the parameters. -/
theorem runTw_withOw (code : List TwOp) (s : State) (u : OwUnit) :
    runTw code { s with ow := u } = { runTw code s with ow := u } := by
  induction code generalizing s with
  | nil => rfl
  | cons op rest ih =>
    cases op with
    | ret v => rfl
    | setAddr a => exact ih { s with tw := { s.tw with addr := a } }
    | setState a => exact ih { s with tw := { s.tw with state := a } }
    | setIdx i => exact ih { s with tw := { s.tw with idx := i } }
    | store i => exact ih (memWrite i s.tw.data s)
    | request r => simp only [runTw, request_withOw, ih]
    | check c =>
      have hstatus : statusIs c { s with ow := u } = statusIs c s := rfl
      simp only [runTw, hstatus, ih]
      split <;> rfl
    | wait =>
      have hpoll : pollFlag { s with ow := u } = { pollFlag s with ow := u } := rfl
      simp only [runTw, hpoll, ih]
      split
      · rfl
      · split <;> rfl

/-- Settles O56: a command that runs pseudocode by the run of the sequencer, the others by their closed forms. -/
theorem twoWireIgnoresSingleWire : Obligations.TwoWireIgnoresSingleWire := by
  intro i s t u hi h
  rcases tw_cases i s t hi h with ⟨rfl, rfl⟩ | ⟨rfl, hidle, hnone, rfl⟩ | ⟨rfl, rfl⟩ | ⟨rfl, he, rfl⟩ |
    ⟨r, rfl, rfl⟩ | ⟨need, code, htr, he, hs, rfl⟩
  · rfl
  · exact if_pos (by simp [mayDisable, hidle, hnone])
  · rfl
  · simp only [exec, execTwClose, twCommand, refusalOf, he, runTw_withOw]
    rfl
  · rfl
  · rw [exec_transfer (s := { s with ow := u }) htr he hs, runTw_withOw]

end Sys2Proof.Machine
end

section
/-! ## The decoder and the encoder (30_encoding.md R90 to R100) -/

namespace Sys2Proof

/-! ### The fields of a word -/

/-- R91: the four fields are the whole word. -/
theorem word_eq_iff_fields (w v : Word24) :
    w = v ↔ fieldRsv w = fieldRsv v ∧ fieldOpcode w = fieldOpcode v ∧ fieldArg w = fieldArg v ∧
      fieldN w = fieldN v := by
  refine ⟨fun h => by simp [h], fun ⟨hrsv, hop, harg, hn⟩ => BitVec.eq_of_getLsbD_eq fun k hk => ?_⟩
  have bit {len start : Nat} (h : w.extractLsb' start len = v.extractLsb' start len) (h1 : start ≤ k)
      (h2 : k < start + len) : w.getLsbD k = v.getLsbD k := by
    have := congrArg (·.getLsbD (k - start)) h
    simpa [BitVec.getLsbD_extractLsb', show k - start < len by omega, show start + (k - start) = k by omega] using this
  by_cases h5 : k < 5
  · exact bit hop (by omega) (by omega)
  by_cases h8 : k < 8
  · exact bit hrsv (by omega) (by omega)
  by_cases h16 : k < 16
  · exact bit harg (by omega) (by omega)
  · exact bit hn (by omega) (by omega)

/-- The operand byte as far as the command's format uses it (R92, R99). -/
def usedArg : Instr → Byte → Byte
  | .owWriteBit _, arg | .owWriteByte _, arg | .twOpen _, arg | .twWriteByte _, arg | .twReadCh _, arg
  | .twReadStr _ _, arg => arg
  | _, _ => 0

/-- The count as far as the command's format uses it (R92, R99). -/
def usedCount : Instr → Byte → Byte
  | .twWriteStr _, n | .twReadStr _ _, n => n
  | _, _ => 0

/-- The used bits of a word, field by field: all of `cmd[7:0]`, and the operands of the format. -/
theorem fields_and_usedBits (w : Word24) (i : Instr) :
    fieldRsv (w &&& usedBits i) = fieldRsv w ∧ fieldOpcode (w &&& usedBits i) = fieldOpcode w ∧
      fieldArg (w &&& usedBits i) = usedArg i (fieldArg w) ∧ fieldN (w &&& usedBits i) = usedCount i (fieldN w) := by
  have all3 (x : BitVec 3) : x &&& 7#3 = x := BitVec.and_allOnes
  have all5 (x : BitVec 5) : x &&& 31#5 = x := BitVec.and_allOnes
  have all8 (x : Byte) : x &&& 255#8 = x := BitVec.and_allOnes
  cases i <;>
    simp [fieldRsv, fieldOpcode, fieldArg, fieldN, BitVec.extractLsb'_and, usedBits, usedArg, usedCount, all3, all5,
      all8]

/-- A word agrees with a command's encoding on the used bits exactly when `cmd[7:0]` and the used operands do. -/
theorem used_eq_encode_iff (w : Word24) (i : Instr) :
    w &&& usedBits i = encode i ↔ fieldRsv w = 0 ∧ fieldOpcode w = opcodeOf i ∧
      usedArg i (fieldArg w) = argOf i ∧ usedCount i (fieldN w) = countOf i := by
  obtain ⟨hrsv, hop, harg, hn⟩ := Laws.WordFields.of_fields i
  obtain ⟨hrsv', hop', harg', hn'⟩ := fields_and_usedBits w i
  rw [word_eq_iff_fields, hrsv, hop, harg, hn, hrsv', hop', harg', hn']

/-! ### The operands of the three constrained formats -/

theorem decodeBit_bitByte (v : Bit) : decodeBit (bitByte v) = .instr (.owWriteBit v) := by cases v <;> rfl

theorem decodeAddress_zeroExtend (a : BitVec 7) : decodeAddress (a.zeroExtend 8) = .instr (.twOpen a) := by
  have htop : (a.zeroExtend 8).getLsbD 7 = false := by simp
  have hlow : (a.zeroExtend 8).extractLsb' 0 7 = a := by
    ext k hk
    simp [show k < 8 by omega, BitVec.getLsbD_eq_getElem hk]
  rw [decodeAddress, htop, hlow]
  rfl

theorem decodeBit_eq_instr {arg : Byte} {i : Instr} (h : decodeBit arg = .instr i) :
    ∃ v, i = .owWriteBit v ∧ bitByte v = arg := by
  have hbyte : ∀ b : Byte, b.extractLsb' 1 7 = 0 → bitByte (b.getLsbD 0) = b := by decide
  unfold decodeBit at h
  split at h
  · injection h with h
    exact ⟨_, h.symm, hbyte arg ‹_›⟩
  · cases h

theorem decodeAddress_eq_instr {arg : Byte} {i : Instr} (h : decodeAddress arg = .instr i) :
    ∃ a : BitVec 7, i = .twOpen a ∧ a.zeroExtend 8 = arg := by
  have hbyte : ∀ b : Byte, ¬b.getLsbD 7 → (b.extractLsb' 0 7).zeroExtend 8 = b := by decide
  unfold decodeAddress at h
  split at h
  · cases h
  · injection h with h
    exact ⟨_, h.symm, hbyte arg ‹_›⟩

theorem decodeReadStr_eq_instr {arg n : Byte} {i : Instr} (h : decodeReadStr arg n = .instr i) :
    i = .twReadStr arg n ∧ n ≠ 0 := by
  unfold decodeReadStr at h
  split at h
  · cases h
  · injection h with h
    exact ⟨h.symm, ‹_›⟩

/-! ### The opcode table -/

/-- The table gives back a well-formed command from its own fields (R95, R96). -/
theorem decodeOpcode_of_fields (i : Instr) (h : i.WellFormed) :
    decodeOpcode (opcodeOf i).toNat (argOf i) (countOf i) = .instr i := by
  cases i with
  | owWriteBit v => exact decodeBit_bitByte v
  | twOpen a => exact decodeAddress_zeroExtend a
  | twReadStr reg n => exact if_neg (bne_iff_ne.mp h)
  | _ => rfl

/-- R99: at a command's opcode the table looks at nothing but the operands its format uses. -/
theorem decodeOpcode_used (i : Instr) (arg n : Byte) :
    decodeOpcode (opcodeOf i).toNat (usedArg i arg) (usedCount i n) = decodeOpcode (opcodeOf i).toNat arg n := by
  cases i <;> rfl

/-- A command the table gives is well-formed, and its fields are the ones looked up. -/
theorem decodeOpcode_eq_instr {op : Nat} {arg n : Byte} {i : Instr} (h : decodeOpcode op arg n = .instr i) :
    i.WellFormed ∧ op = (opcodeOf i).toNat ∧ usedArg i arg = argOf i ∧ usedCount i n = countOf i := by
  unfold decodeOpcode at h
  split at h
  -- the opcodes 0x01, 0x13, 0x18, whose rows check an operand, and the reserved ones
  case h_2 => obtain ⟨v, rfl, rfl⟩ := decodeBit_eq_instr h; exact ⟨rfl, rfl, rfl, rfl⟩
  case h_15 => obtain ⟨a, rfl, rfl⟩ := decodeAddress_eq_instr h; exact ⟨rfl, rfl, rfl, rfl⟩
  case h_20 =>
    obtain ⟨rfl, hn⟩ := decodeReadStr_eq_instr h
    exact ⟨bne_iff_ne.mpr hn, rfl, rfl, rfl⟩
  case h_21 => cases h
  all_goals
    injection h with h
    subst h
    exact ⟨rfl, rfl, rfl, rfl⟩

/-! ### Words -/

/-- Settles O1: the fields of the encoding (`WordFields.of_fields`) and the table on them. -/
theorem decodeOfEncode : Obligations.DecodeOfEncode := by
  intro i hi
  obtain ⟨hrsv, hop, harg, hn⟩ := Laws.WordFields.of_fields i
  rw [decode, if_pos hrsv, hop, harg, hn, decodeOpcode_of_fields i hi]

/-- Settles O2: the table gives a command from its used fields alone, and only from them. -/
theorem decodeReadsExactlyTheUsedBits : Obligations.DecodeReadsExactlyTheUsedBits := by
  intro w i
  rw [used_eq_encode_iff]
  constructor
  · intro h
    rw [decode] at h
    split at h
    · obtain ⟨hwf, hop, harg, hn⟩ := decodeOpcode_eq_instr h
      exact ⟨hwf, ‹_›, BitVec.eq_of_toNat_eq hop, harg, hn⟩
    · cases h
  · rintro ⟨hwf, hrsv, hop, harg, hn⟩
    rw [decode, if_pos hrsv, hop, ← decodeOpcode_used, harg, hn, decodeOpcode_of_fields i hwf]

/-- Settles O4, by evaluation of the decoder. -/
theorem specWordsDecode : Obligations.SpecWordsDecode := by
  unfold Obligations.SpecWordsDecode
  decide

/-! ### Illegal words (R97) -/

theorem decodeBit_illegal_iff (arg : Byte) : (∃ r, decodeBit arg = .illegal r) ↔ arg.extractLsb' 1 7 ≠ 0 := by
  unfold decodeBit
  split <;> simp_all

theorem decodeAddress_illegal_iff (arg : Byte) :
    (∃ r, decodeAddress arg = .illegal r) ↔ arg.extractLsb' 7 1 ≠ 0 := by
  have htop : arg.getLsbD 7 = true ↔ arg.extractLsb' 7 1 ≠ 0 := by revert arg; decide
  rw [← htop, decodeAddress]
  split <;> simp_all

theorem decodeReadStr_illegal_iff (arg n : Byte) : (∃ r, decodeReadStr arg n = .illegal r) ↔ n = 0 := by
  unfold decodeReadStr
  split <;> simp_all

/-- The opcodes that the table rejects, reserved or for an operand. -/
theorem decodeOpcode_illegal_iff {op : Nat} (hop : op ≤ 0x1F) (arg n : Byte) :
    (∃ r, decodeOpcode op arg n = .illegal r) ↔
      0x0B ≤ op ∧ op ≤ 0x0F ∨ 0x19 ≤ op ∧ op ≤ 0x1F ∨ op = 0x01 ∧ arg.extractLsb' 1 7 ≠ 0 ∨
        op = 0x13 ∧ arg.extractLsb' 7 1 ≠ 0 ∨ op = 0x18 ∧ n = 0 := by
  unfold decodeOpcode
  split
  -- the opcodes 0x01, 0x13, 0x18, whose rows check an operand, and the reserved ones
  case h_2 => simp [decodeBit_illegal_iff]
  case h_15 => simp [decodeAddress_illegal_iff]
  case h_20 => simp [decodeReadStr_illegal_iff]
  case h_21 =>
    simp only [imp_false] at *
    have hreserved : 0x0B ≤ op ∧ op ≤ 0x0F ∨ 0x19 ≤ op ∧ op ≤ 0x1F := by omega
    exact iff_of_true ⟨_, rfl⟩ (hreserved.imp_right .inl)
  all_goals simp

theorem decode_illegal_iff (w : Word24) :
    (∃ r, decode w = .illegal r) ↔
      fieldRsv w ≠ 0 ∨ ∃ r, decodeOpcode (fieldOpcode w).toNat (fieldArg w) (fieldN w) = .illegal r := by
  unfold decode
  split <;> simp_all

/-- The bits of `arg` are bits of the word (R91). -/
theorem extractLsb'_fieldArg (w : Word24) {start len : Nat} (h : start + len ≤ 8) :
    (fieldArg w).extractLsb' start len = w.extractLsb' (8 + start) len := by
  ext k hk
  simp [fieldArg, show start + k < 8 by omega, Nat.add_assoc]

/-- An illegal word offered to an idle engine ends at once (R97). -/
theorem step_illegal {s : Machine.State} {w : Word24} {rest : List Machine.Input} {r : IllegalWord}
    (hb : s.busy = false) (hs : s.host = .offer w :: rest) (hd : decode w = .illegal r) :
    Machine.step s = .next (Machine.raise .illegal (Machine.accept w { s with host := rest })) := by
  rw [Machine.step_cons hs, Machine.inputStep, if_neg (by simp [hb]), Machine.runWord, Machine.beginWord, hd]
  rfl

/-- Settles O3: the two checks of the decoder, then what `runDecoded` does with a rejected word. -/
theorem illegalWordsEndAtOnce : Obligations.IllegalWordsEndAtOnce := by
  intro w
  refine ⟨?_, fun s rest hb hs ⟨r, hd⟩ => step_illegal hb hs hd⟩
  have hop : (fieldOpcode w).toNat ≤ 0x1F := Nat.le_of_lt_succ (fieldOpcode w).isLt
  rw [decode_illegal_iff, decodeOpcode_illegal_iff hop, extractLsb'_fieldArg w (by omega),
    extractLsb'_fieldArg w (by omega)]
  simp only [← BitVec.toNat_inj (x := w.extractLsb' 0 5)]
  rfl

/-- Settles O34: the meaning looks at the count before anything else. -/
theorem readStrOfNothingIsIllegal : Obligations.ReadStrOfNothingIsIllegal := fun _ _ => rfl

end Sys2Proof
end

section
/-! ## What single-wire commands put on the line (30_encoding.md R105 to R109, 20_memory.md R66, R67) -/

namespace Sys2Proof.Machine

/-- The levels sampled in events one after another. -/
def samplesOf (es : List OwEvent) : List Bit := es.filterMap OwEvent.sampled

@[simp] theorem samplesOf_append (es fs : List OwEvent) : samplesOf (es ++ fs) = samplesOf es ++ samplesOf fs :=
  List.filterMap_append

/-- A write slot has no sample. -/
@[simp] theorem samplesOf_byteSlots (b : Byte) : samplesOf (byteSlots b) = [] := by
  simp [samplesOf, byteSlots, OwEvent.sampled]

@[simp] theorem samplesOf_flatMap_byteSlots (bs : List Byte) : samplesOf (bs.flatMap byteSlots) = [] := by
  induction bs with
  | nil => rfl
  | cons b bs ih => simp [ih]

/-- A read slot has its own. -/
@[simp] theorem samplesOf_map_rd (levels : List Bit) : samplesOf (levels.map .rd) = levels := by
  induction levels with
  | nil => rfl
  | cons l ls ih => simpa [samplesOf, OwEvent.sampled] using ih

/-- From `u` to `v` these events are put on the line, with the levels the environment gives at their samples, and a line
that was released is released again. -/
structure PutsOnLine (es : List OwEvent) (u v : OwUnit) : Prop where
  samples : samplesOf es = u.bus.upcoming (samplesOf es).length
  bus : v.bus = (u.bus.afterDraws (samplesOf es).length).record es
  released : u.drive = false → v.drive = false

namespace PutsOnLine

theorem nil (u : OwUnit) : PutsOnLine [] u u := ⟨rfl, by simp [samplesOf], id⟩

theorem append {es fs : List OwEvent} {u v w : OwUnit} (h : PutsOnLine es u v) (k : PutsOnLine fs v w) :
    PutsOnLine (es ++ fs) u w where
  samples := by
    rw [samplesOf_append, List.length_append, upcoming_add, ← h.samples]
    congr 1
    rw [k.samples, h.bus]
    simp
  bus := by rw [k.bus, h.bus, samplesOf_append]; simp [afterDraws_add]
  released hu := k.released (h.released hu)

/-- From the closed form of an operation that takes `k` samples. -/
theorem of_closedForm {es : List OwEvent} {u v : OwUnit} (k : Nat) (hsamples : samplesOf es = u.bus.upcoming k)
    (hbus : v.bus = (u.bus.afterDraws k).record es) (hdrive : v.drive = false) : PutsOnLine es u v := by
  have hk : (samplesOf es).length = k := by rw [hsamples, length_upcoming]
  exact ⟨by rw [hk, hsamples], by rw [hk, hbus], fun _ => hdrive⟩

end PutsOnLine

/-! ### The operations -/

theorem writeBit_putsOnLine (v : Bit) (u : OwUnit) : PutsOnLine [.wr v] u (writeBit v u) :=
  .of_closedForm 0 rfl (by rw [writeBit_eq]; simp) (by rw [writeBit_eq])

theorem writeByte_putsOnLine (b : Byte) (u : OwUnit) : PutsOnLine (byteSlots b) u (writeByte b u) :=
  .of_closedForm 0 (samplesOf_byteSlots b) (by rw [writeByte_eq]; simp) (by rw [writeByte_eq])

theorem writeBytes_putsOnLine {bs : List Byte} (h : bs ≠ []) (u : OwUnit) :
    PutsOnLine (bs.flatMap byteSlots) u (writeBytes bs u) :=
  .of_closedForm 0 (samplesOf_flatMap_byteSlots bs) (by rw [writeBytes_eq bs u h]; simp) (by rw [writeBytes_eq bs u h])

theorem readBit_putsOnLine (u : OwUnit) : PutsOnLine [.rd u.bus.draw.1] u (readBit u).2 :=
  .of_closedForm 1 (by rw [upcoming_succ]; rfl) (by rw [readBit_eq, afterDraws_succ]; simp) (by rw [readBit_eq])

theorem detectPresence_putsOnLine (u : OwUnit) : PutsOnLine [.reset u.bus.draw.1] u (detectPresence u).2 :=
  .of_closedForm 1 (by rw [upcoming_succ]; rfl) (by rw [detectPresence_eq, afterDraws_succ]; simp)
    (by rw [detectPresence_eq])

theorem readByte_putsOnLine (u : OwUnit) : PutsOnLine ((u.bus.upcoming 8).map .rd) u (readByte u) :=
  .of_closedForm 8 (samplesOf_map_rd _) (by rw [readByte_eq]) (by rw [readByte_eq])

theorem romTransfer_putsOnLine (cmd : Byte) (u : OwUnit) :
    PutsOnLine (byteSlots cmd ++ (u.bus.upcoming 64).map .rd) u (romTransfer cmd u) :=
  .of_closedForm 64 (by simp) (by rw [romTransfer_eq]) (by rw [romTransfer_eq])

theorem readResponses_putsOnLine (u : OwUnit) :
    PutsOnLine [.rd u.bus.draw.1, .rd u.bus.draw.2.draw.1] u (readResponses u) :=
  .of_closedForm 2 (by simp only [upcoming_succ]; rfl) (by rw [readResponses_eq]) (by rw [readResponses_eq])

/-! ### The commands -/

theorem presenceResult_ow (present : Bit) (s : State) : (presenceResult present s).ow = s.ow := by
  cases present <;> rfl

theorem readRomAfter_putsOnLine (present : Bit) (s : State) : ∃ es, PutsOnLine es s.ow (readRomAfter present s).ow := by
  cases present with
  | false => exact ⟨[], .nil s.ow⟩
  | true =>
    obtain ⟨how, -⟩ := romResult_frame { s with ow := romTransfer s.par.cmdReadRom s.ow }
    refine ⟨byteSlots s.par.cmdReadRom ++ (s.ow.bus.upcoming 64).map .rd, ?_⟩
    rw [readRomAfter, if_pos rfl, how]
    exact romTransfer_putsOnLine s.par.cmdReadRom s.ow

theorem alarmResult_putsOnLine (s : State) : ∃ es, PutsOnLine es s.ow (alarmResult s).ow := by
  unfold alarmResult
  split
  · exact ⟨[], .nil s.ow⟩
  · exact ⟨_, writeBit_putsOnLine _ s.ow⟩

theorem alarmAfter_putsOnLine (present : Bit) (s : State) : ∃ es, PutsOnLine es s.ow (alarmAfter present s).ow := by
  cases present with
  | false => exact ⟨[], .nil s.ow⟩
  | true =>
    obtain ⟨es, hes⟩ := alarmResult_putsOnLine { s with ow := readResponses (writeByte s.par.cmdAlarmSearch s.ow) }
    exact ⟨_, ((writeByte_putsOnLine _ s.ow).append (readResponses_putsOnLine _)).append hes⟩

/-- Every single-wire command puts events on the line (20_memory.md R67). -/
theorem exec_putsOnLine {i : Instr} {s t : State} (hi : i.isOw = true) (h : exec i s = .next t) :
    ∃ es, PutsOnLine es s.ow t.ow := by
  cases i with
  | owDetectPresence =>
    injection h with h; subst h
    refine ⟨[.reset s.ow.bus.draw.1], ?_⟩
    rw [presenceResult_ow]
    exact detectPresence_putsOnLine s.ow
  | owWriteBit v => injection h with h; subst h; exact ⟨_, writeBit_putsOnLine v s.ow⟩
  | owReadBit | owIsBusy => injection h with h; subst h; exact ⟨_, readBit_putsOnLine s.ow⟩
  | owWriteByte b => injection h with h; subst h; exact ⟨_, writeByte_putsOnLine b s.ow⟩
  | owReadByte => injection h with h; subst h; exact ⟨_, readByte_putsOnLine s.ow⟩
  | owSkipRom => injection h with h; subst h; exact ⟨_, writeByte_putsOnLine _ s.ow⟩
  | owReadRom =>
    injection h with h; subst h
    obtain ⟨es, hes⟩ := readRomAfter_putsOnLine (detectPresence s.ow).1 { s with ow := (detectPresence s.ow).2 }
    exact ⟨_, (detectPresence_putsOnLine s.ow).append hes⟩
  | owMatchRom =>
    injection h with h; subst h
    rw [writeHbufBytes_eq]
    exact ⟨_, (writeByte_putsOnLine _ s.ow).append (writeBytes_putsOnLine (by simp [hbufBytes]) _)⟩
  | owAlarmSearch =>
    injection h with h; subst h
    obtain ⟨es, hes⟩ := alarmAfter_putsOnLine (detectPresence s.ow).1 { s with ow := (detectPresence s.ow).2 }
    exact ⟨_, (detectPresence_putsOnLine s.ow).append hes⟩
  | owSearchRom => injection h with h; subst h; exact ⟨[], .nil s.ow⟩
  | twEnable | twDisable | twIsEnabled | twOpen _ | twClose | twWriteByte _ | twWriteStr _ | twReadCh _
  | twReadStr _ _ => cases hi

/-- Settles O27: `PutsOnLine`, read field by field. -/
theorem singleWireWaveform : Obligations.SingleWireWaveform := by
  intro i s t hi h
  obtain ⟨es, hsamples, hbus, hreleased⟩ := exec_putsOnLine hi h
  exact ⟨es, by rw [hbus]; rfl, by rw [hbus]; rfl, by rw [hbus]; rfl,
    ⟨hsamples, by rw [hbus]; rfl, by rw [hbus]; rfl⟩, hreleased⟩

end Sys2Proof.Machine
end

section
/-! ## The single-wire delay and the one-slot commands (40_ow_bit_timing.md R133 to R135, 41_ow_presence_bytes.md R153) -/

namespace Sys2Proof.Machine

/-- The load fits into the ten bits of `ow_timer`, so the count takes every microsecond asked for (R133). -/
theorem delayByTimer_eq_delayUs {t : Nat} (ht : t < 1024) (u : OwUnit) : delayByTimer t u = delayUs t u := by
  have htick : t / Config.tick = t := Nat.div_one t
  have hload : (BitVec.ofNat 10 t).toNat = t := by rw [BitVec.toNat_ofNat]; exact Nat.mod_eq_of_lt ht
  rw [delayByTimer, htick, owCountDown_eq t _ hload]
  rfl

/-- Settles O12: a loaded timer counts down to 0 in as many ticks as it holds (`owCountDown_eq`). -/
theorem delayCountsTheTimerDown : Obligations.DelayCountsTheTimerDown := by
  intro t u ht
  rw [delayByTimer_eq_delayUs ht]
  exact ⟨rfl, rfl⟩

theorem exec_owWriteBit (v : Bit) (s : State) :
    exec (.owWriteBit v) s = .next (finish 0 { s with ow := writeBit v s.ow }) := rfl

theorem exec_owReadBit (s : State) :
    exec .owReadBit s = .next (finish (bitByte (readBit s.ow).1) { s with ow := (readBit s.ow).2 }) := rfl

theorem exec_owIsBusy (s : State) :
    exec .owIsBusy s = .next (finish (bitByte (!(readBit s.ow).1)) { s with ow := (readBit s.ow).2 }) := rfl

/-- The complement of a bit as a result byte (R153). -/
theorem bitByte_not (b : Bit) : bitByte (!b) = if b then 0x00 else 0x01 := by cases b <;> rfl

/-- Settles O13: the closed forms of the slots (`writeBit_eq`, `readBit_eq`) in the three meanings. -/
theorem bitCommandsTakeOneSlot : Obligations.BitCommandsTakeOneSlot := by
  intro v s level t
  refine ⟨?_, ?_, ?_⟩
  · rw [exec_owWriteBit, writeBit_eq]
  · rw [exec_owReadBit, readBit_eq]
    rfl
  · rw [exec_owIsBusy, readBit_eq, bitByte_not]

end Sys2Proof.Machine
end

section
/-! ## Presence and bytes on the single wire (41_ow_presence_bytes.md R150 to R152, R154, R155) -/

namespace Sys2Proof.Machine

/-! ### The mask loop (R154) -/

/-- The loop both byte operations run: turns while the mask is not 0, the first argument bounding the loop tests. -/
def maskLoop (turn : OwUnit → OwUnit) : Nat → OwUnit → OwUnit
  | 0, u => u
  | k + 1, u => if u.mask = 0 then u else maskLoop turn k (turn u)

/-- One turn of `WriteByte` (R151). -/
def writeTurn (b : Byte) (u : OwUnit) : OwUnit := shiftMask (writeBit (b &&& u.mask != 0) u)

/-- One turn of `ReadByte` (R152). -/
def readTurn (u : OwUnit) : OwUnit := shiftMask (shiftIn (readBit u).1 (readBit u).2)

theorem writeByteLoop_eq_maskLoop (b : Byte) (k : Nat) (u : OwUnit) :
    writeByteLoop b k u = maskLoop (writeTurn b) k u := by
  induction k generalizing u with
  | zero => rfl
  | succ k ih => rw [writeByteLoop, maskLoop, ih]; rfl

theorem readByteLoop_eq_maskLoop (k : Nat) (u : OwUnit) : readByteLoop k u = maskLoop readTurn k u := by
  induction k generalizing u with
  | zero => rfl
  | succ k ih => rw [readByteLoop, maskLoop, ih]; rfl

/-- What the loop needs of a turn: the mask moves up one bit, and one slot is on the line. -/
structure MaskTurn (turn : OwUnit → OwUnit) : Prop where
  mask : ∀ u, (turn u).mask = u.mask <<< 1
  slots : ∀ u, (turn u).bus.trace.length = u.bus.trace.length + 1

theorem maskTurn_writeTurn (b : Byte) : MaskTurn (writeTurn b) where
  mask u := by simp [writeTurn, shiftMask, writeBit_eq]
  slots u := by simp [writeTurn, shiftMask, writeBit_eq]

theorem maskTurn_readTurn : MaskTurn readTurn where
  mask u := by simp [readTurn, shiftMask, shiftIn_eq, readBit_eq]
  slots u := by simp [readTurn, shiftMask, shiftIn_eq, readBit_eq, (draw_fields u.bus).2.2]

theorem maskLoop_of_mask_zero (turn : OwUnit → OwUnit) (k : Nat) {u : OwUnit} (h : u.mask = 0) :
    maskLoop turn k u = u := by
  cases k with
  | zero => rfl
  | succ k => rw [maskLoop, if_pos h]

theorem maskLoop_add (turn : OwUnit → OwUnit) (j k : Nat) (u : OwUnit) :
    maskLoop turn (j + k) u = maskLoop turn k (maskLoop turn j u) := by
  induction j generalizing u with
  | zero => rw [Nat.zero_add, maskLoop]
  | succ j ih =>
    rw [Nat.add_right_comm, maskLoop, maskLoop]
    split
    · next h => rw [maskLoop_of_mask_zero turn k h]
    · exact ih (turn u)

section
variable {turn : OwUnit → OwUnit} (hturn : MaskTurn turn)
include hturn

theorem maskLoop_mask (k : Nat) (u : OwUnit) : (maskLoop turn k u).mask = u.mask <<< k := by
  induction k generalizing u with
  | zero => rw [maskLoop, BitVec.shiftLeft_zero]
  | succ k ih =>
    rw [maskLoop]
    split
    · next h => rw [h]; exact (BitVec.zero_shiftLeft _).symm
    · rw [ih, hturn.mask, ← BitVec.shiftLeft_add, Nat.add_comm]

/-- While the mask has not overflowed, every loop test admits a turn and every turn is a slot. -/
theorem length_trace_maskLoop (k : Nat) (u : OwUnit) (h : ∀ j < k, u.mask <<< j ≠ 0) :
    (maskLoop turn k u).bus.trace.length = u.bus.trace.length + k := by
  induction k generalizing u with
  | zero => rfl
  | succ k ih =>
    have hne : u.mask ≠ 0 := by simpa using h 0 (Nat.succ_pos k)
    have hnext : ∀ j < k, (turn u).mask <<< j ≠ 0 := fun j hj => by
      rw [hturn.mask, ← BitVec.shiftLeft_add, Nat.add_comm]
      exact h (j + 1) (Nat.succ_lt_succ hj)
    rw [maskLoop, if_neg hne, ih _ hnext, hturn.slots]
    omega

/-- The eight turns from mask 1 overflow the mask, so a larger bound adds none. -/
theorem maskLoop_eight_add {u : OwUnit} (hu : u.mask = 0x01) (k : Nat) :
    maskLoop turn (8 + k) u = maskLoop turn 8 u := by
  have hzero : (maskLoop turn 8 u).mask = 0 := by rw [maskLoop_mask hturn, hu]; rfl
  rw [maskLoop_add, maskLoop_of_mask_zero turn k hzero]

/-- R154 of any loop of such turns. -/
theorem maskLoop_runs_eight_times {u : OwUnit} (hu : u.mask = 0x01) (k : Nat) :
    (List.range 9).map (fun j => (maskLoop turn j u).mask) =
        [0x01, 0x02, 0x04, 0x08, 0x10, 0x20, 0x40, 0x80, 0x00] ∧
      maskLoop turn (8 + k) u = maskLoop turn 8 u ∧
      (maskLoop turn 8 u).bus.trace.length = u.bus.trace.length + 8 := by
  refine ⟨?_, maskLoop_eight_add hturn hu k, length_trace_maskLoop hturn 8 u ?_⟩
  · simp only [maskLoop_mask hturn, hu]
    decide
  · rw [hu]
    decide

end

/-- Settles O15: both loops are mask loops (`maskLoop_runs_eight_times`), and their ninth test is the last. -/
theorem maskLoopRunsEightTimes : Obligations.MaskLoopRunsEightTimes := by
  refine ⟨fun b k u hu => ?_, fun b u => ?_⟩
  · obtain ⟨hwmask, hwbound, hwslots⟩ := maskLoop_runs_eight_times (maskTurn_writeTurn b) hu k
    obtain ⟨hrmask, hrbound, hrslots⟩ := maskLoop_runs_eight_times maskTurn_readTurn hu k
    simp only [writeByteLoop_eq_maskLoop, readByteLoop_eq_maskLoop]
    exact ⟨hwmask, hrmask, hwbound, hwslots, hrbound, hrslots⟩
  · rw [writeByte, readByte]
    simp only [writeByteLoop_eq_maskLoop, readByteLoop_eq_maskLoop]
    exact ⟨maskLoop_eight_add (maskTurn_writeTurn b) rfl 1, maskLoop_eight_add maskTurn_readTurn rfl 1⟩

/-! ### Bytes and their bits (R109) -/

theorem getLsbD_bitByte_or_shiftLeft_zero (s : Bit) (b : Byte) : (bitByte s ||| b <<< 1).getLsbD 0 = s := by
  cases s <;> simp

theorem getLsbD_bitByte_or_shiftLeft_succ (s : Bit) (b : Byte) {i : Nat} (hi : i + 1 < 8) :
    (bitByte s ||| b <<< 1).getLsbD (i + 1) = b.getLsbD i := by
  cases s <;> simp [hi, Nat.lt_of_succ_lt hi]

/-- Bit `i` of an assembled byte is the `i`-th bit of the list. -/
theorem getLsbD_byteOfBits (l : List Bit) {i : Nat} (hi : i < 8) : (byteOfBits l).getLsbD i = l[i]?.getD false := by
  induction l generalizing i with
  | nil => simp [byteOfBits]
  | cons s ss ih =>
    rw [byteOfBits]
    cases i with
    | zero => exact getLsbD_bitByte_or_shiftLeft_zero s _
    | succ i => rw [getLsbD_bitByte_or_shiftLeft_succ s _ hi, ih (by omega)]; rfl

theorem byteOfBits_bitsLsbFirst (b : Byte) : byteOfBits (bitsLsbFirst b) = b := by
  refine BitVec.eq_of_getLsbD_eq fun i hi => ?_
  rw [getLsbD_byteOfBits _ hi]
  simp [bitsLsbFirst, hi]

/-- Write slots tell the bits they carry. -/
theorem map_wr_inj {bits bits' : List Bit} : bits.map OwEvent.wr = bits'.map OwEvent.wr ↔ bits = bits' :=
  List.map_inj_right fun _ _ h => OwEvent.wr.inj h

/-! ### The commands -/

theorem exec_owDetectPresence (s : State) :
    exec .owDetectPresence s =
      .next (presenceResult (detectPresence s.ow).1 { s with ow := (detectPresence s.ow).2 }) := rfl

theorem exec_owWriteByte (b : Byte) (s : State) :
    exec (.owWriteByte b) s = .next (finish 0 { s with ow := writeByte b s.ow }) := rfl

theorem exec_owReadByte (s : State) :
    exec .owReadByte s = .next (finish (readByte s.ow).shift { s with ow := readByte s.ow }) := rfl

/-- Settles O16: the closed form of the byte transmitter (`writeByte_eq`). -/
theorem writeBytePutsEightSlots : Obligations.WriteBytePutsEightSlots := by
  intro b s
  rw [exec_owWriteByte, writeByte_eq]
  rfl

/-- Settles O17: the closed form of the byte receiver (`readByte_eq`), bit by bit (`getLsbD_byteOfBits`). -/
theorem readByteAssemblesEightSamples : Obligations.ReadByteAssemblesEightSamples := by
  intro s
  refine ⟨byteOfBits (s.ow.bus.upcoming 8), fun i hi => ?_, ?_⟩
  · have hlen : i < (s.ow.bus.upcoming 8).length := by rwa [length_upcoming]
    rw [getLsbD_byteOfBits _ hi, List.getElem?_eq_getElem hlen, Option.getD_some]
  · rw [exec_owReadByte, readByte_eq]

/-- The bits the write has put on the line are those of the byte, whatever list they are given as. -/
theorem written_eq_bitsLsbFirst {b : Byte} {s t : State} {written : List Bit} (h : exec (.owWriteByte b) s = .next t)
    (htrace : t.ow.bus.trace = s.ow.bus.trace ++ written.map .wr) : written = bitsLsbFirst b := by
  rw [exec_owWriteByte, writeByte_eq] at h
  injection h with h
  subst h
  exact (map_wr_inj.1 (List.append_cancel_left htrace)).symm

/-- Settles O18: the read samples the eight bits written, and a byte is its bits (`byteOfBits_bitsLsbFirst`). -/
theorem loopbackReturnsTheByte : Obligations.LoopbackReturnsTheByte := by
  intro b s t written rest h htrace
  obtain rfl := written_eq_bitsLsbFirst h htrace
  have hsamples : ({ t.ow.bus with levels := bitsLsbFirst b ++ rest } : OwBus).upcoming 8 = bitsLsbFirst b :=
    upcoming_of_script (bitsLsbFirst b) rest _ rfl
  refine ⟨_, exec_owReadByte _, ?_, rfl⟩
  rw [readByte_eq]
  simp only [finish_resVal, hsamples, byteOfBits_bitsLsbFirst]

/-- Settles O14: the closed form of the reset event (`detectPresence_eq`), by the level sampled. -/
theorem detectPresenceAnswers : Obligations.DetectPresenceAnswers := by
  intro s level t
  rw [exec_owDetectPresence, detectPresence_eq]
  change Host.Outcome.next (presenceResult (!level) t) = _
  cases level with
  | false => rfl
  | true => rfl

end Sys2Proof.Machine
end

section
/-! ## The CRC-8 verifier (42_ow_rom_alarm.md R170 to R173) -/

namespace Sys2Proof.Machine

/-! ### One step of the register (R170) -/

/-- The other form of the step that R170 gives: the XOR before the shift, bit 7 set after it. -/
def crcStepXorFirst (crc : Byte) (bit : Bit) : Byte :=
  let fb := xor (crc.getLsbD 0) bit
  ((if fb then crc ^^^ 0x18 else crc) >>> 1) ||| (if fb then 0x80 else 0x00)

/-- The shift leaves bit 7 free, so setting it there is the same as the XOR with bit 7 of the constant. -/
theorem crcStep_eq_crcStepXorFirst (crc : Byte) (bit : Bit) : crcStep crc bit = crcStepXorFirst crc bit := by
  have hbit7 : ∀ c : Byte, (c >>> 1) ^^^ 0x8C = ((c ^^^ 0x18) >>> 1) ||| 0x80 := by decide
  unfold crcStep crcStepXorFirst
  cases xor (crc.getLsbD 0) bit with
  | true => exact hbit7 crc
  | false => simp

/-- With feedback 0 the step is the shift alone. -/
theorem crcStep_of_feedback_zero {crc : Byte} {bit : Bit} (h : crc.getLsbD 0 = bit) : crcStep crc bit = crc >>> 1 := by
  rw [crcStep, h, Bool.xor_self]
  rfl

/-- The feedback bit of a step stands in bit 7 of the register after it. -/
theorem getLsbD_seven_crcStep (crc : Byte) (bit : Bit) : (crcStep crc bit).getLsbD 7 = xor (crc.getLsbD 0) bit := by
  rw [crcStep]
  cases xor (crc.getLsbD 0) bit <;> simp [Config.crcXor]

/-- Bit 0 and the shifted register are the whole register. -/
theorem eq_of_bit_zero_of_ushiftRight {c c' : Byte} (h0 : c.getLsbD 0 = c'.getLsbD 0) (hshift : c >>> 1 = c' >>> 1) :
    c = c' := by
  refine BitVec.eq_of_getLsbD_eq fun i _ => ?_
  cases i with
  | zero => exact h0
  | succ i => simpa [Nat.add_comm] using congrArg (·.getLsbD i) hshift

/-- A step can be taken back: the register after it tells the feedback bit, so bit 0, and the shifted register. -/
theorem crcStep_injective (bit : Bit) : Function.Injective (crcStep · bit) := by
  intro c c' h
  have hfb : xor (c.getLsbD 0) bit = xor (c'.getLsbD 0) bit := by
    rw [← getLsbD_seven_crcStep, ← getLsbD_seven_crcStep]
    exact congrArg (·.getLsbD 7) h
  refine eq_of_bit_zero_of_ushiftRight (Bool.xor_left_inj.1 hfb) ?_
  dsimp only [crcStep] at h
  rw [hfb] at h
  split at h
  · exact (BitVec.xor_left_inj _).1 h
  · exact h

/-! ### A byte, and a sequence of bytes (R170, R171) -/

/-- A fold of one-to-one steps is one-to-one in its initial value. -/
theorem foldl_injective {α β : Type} {f : β → α → β} (h : ∀ a, Function.Injective (f · a)) (l : List α) :
    Function.Injective (l.foldl f) := by
  induction l with
  | nil => exact Function.injective_id
  | cons a l ih => exact ih.comp (h a)

theorem crc8Update_injective (b : Byte) : Function.Injective (crc8Update · b) :=
  foldl_injective (fun i => crcStep_injective (b.getLsbD i)) (List.range 8)

theorem crc8_append (xs ys : List Byte) : crc8 (xs ++ ys) = ys.foldl crc8Update (crc8 xs) := List.foldl_append

/-- Folding the first bits of a byte into a register equal to it: every feedback bit is 0, so the register shifts
out. -/
theorem foldl_crcStep_self (c : Byte) (k : Nat) :
    (List.range k).foldl (fun r i => crcStep r (c.getLsbD i)) c = c >>> k := by
  induction k with
  | zero => exact (BitVec.ushiftRight_zero c).symm
  | succ k ih =>
    have hbit : (c >>> k).getLsbD 0 = c.getLsbD k := by simp
    rw [List.range_succ, List.foldl_append, ih]
    exact (crcStep_of_feedback_zero hbit).trans (BitVec.shiftRight_add c k 1).symm

/-- R172 (a), for one byte. -/
theorem crc8Update_self (c : Byte) : crc8Update c c = 0 :=
  (foldl_crcStep_self c 8).trans (BitVec.ushiftRight_eq_zero (Nat.le_refl 8))

theorem crc8Update_eq_zero_iff {crc b : Byte} : crc8Update crc b = 0 ↔ crc = b := by
  rw [← crc8Update_self b]
  exact (crc8Update_injective b).eq_iff

/-- The CRC over a whole code folds the code's own CRC byte in last. -/
theorem crc8_code (code : Vector Byte 8) : crc8 code.toList = crc8Update (crc8 (code.toList.take 7)) code[7] := by
  have hsplit : code.toList.take 7 ++ [code[7]] = code.toList := by
    have hlen : 7 < code.toList.length := by simp
    rw [← Vector.getElem_toList hlen, List.take_append_getElem hlen, List.take_of_length_le (by simp)]
  calc
    crc8 code.toList = crc8 (code.toList.take 7 ++ [code[7]]) := by rw [hsplit]
    _ = crc8Update (crc8 (code.toList.take 7)) code[7] := by
      rw [crc8_append, List.foldl_cons, List.foldl_nil]

/-- R172 (a): a whole code has CRC 0 exactly when it is valid (R173). -/
theorem crc8_code_eq_zero_iff (code : Vector Byte 8) : crc8 code.toList = 0 ↔ romValid code = true := by
  rw [crc8_code, crc8Update_eq_zero_iff, romValid, beq_iff_eq]

/-! ### The statements -/

/-- Settles O19: the forms agree step by step (`crcStep_eq_crcStepXorFirst`); the example by evaluation. -/
theorem crcFormsAgree : Obligations.CrcFormsAgree := by
  refine ⟨fun crc b => ⟨rfl, ?_⟩, by decide, by decide⟩
  have hstep : crcStep = crcStepXorFirst := funext fun c => funext (crcStep_eq_crcStepXorFirst c)
  rw [crc8Update, hstep]
  rfl

/-- Settles O20: `crc8Update_self` and `crc8_code_eq_zero_iff`; the two codes by evaluation. -/
theorem crcOfAWholeCode : Obligations.CrcOfAWholeCode :=
  ⟨crc8Update_self, crc8_code_eq_zero_iff, by decide +kernel, by decide +kernel, by decide +kernel⟩

/-- Settles O21: each byte is folded in one-to-one (`crc8Update_injective`). -/
theorem crcFoldsByteByByte : Obligations.CrcFoldsByteByByte :=
  ⟨fun bs _ _ h => foldl_injective crc8Update_injective bs h, crc8_append⟩

end Sys2Proof.Machine
end

section
/-! ## ROM reading, device selection and the alarm search (42_ow_rom_alarm.md R174 to R180) -/

namespace Sys2Proof.Machine

/-! ### `ow.read_rom` (R174) -/

/-- Unit OW after a reset event that no device answers. -/
def OwUnit.afterAbsence (u : OwUnit) : OwUnit :=
  { u with drive := false, timer := 0, bus := u.bus.draw.2.record [.reset true] }

theorem detectPresence_of_high {u : OwUnit} (h : u.bus.draw.1 = true) : detectPresence u = (false, u.afterAbsence) := by
  rw [detectPresence_eq, h]
  rfl

theorem detectPresence_of_low {u : OwUnit} (h : u.bus.draw.1 = false) : (detectPresence u).1 = true := by
  rw [detectPresence_eq, h]
  rfl

theorem exec_owReadRom (s : State) :
    exec .owReadRom s = .next (readRomAfter (detectPresence s.ow).1 { s with ow := (detectPresence s.ow).2 }) := rfl

/-- R269: absence is tested before anything is sent. -/
theorem exec_owReadRom_of_high {s : State} (h : s.ow.bus.draw.1 = true) :
    exec .owReadRom s = .next (raise .absence { s with ow := s.ow.afterAbsence }) := by
  rw [exec_owReadRom, detectPresence_of_high h]
  rfl

theorem exec_owReadRom_of_low {s : State} (h : s.ow.bus.draw.1 = false) :
    exec .owReadRom s = .next (romResult { s with ow := s.ow.afterRom s.par.cmdReadRom }) := by
  rw [exec_owReadRom, readRomAfter, if_pos (detectPresence_of_low h), ← romTransfer_detect _ _ h]

/-- Settles O22: absence, or the comparison of `romResult` after the transfer in closed form (`romTransfer_detect`). -/
theorem readRomOutcomes : Obligations.ReadRomOutcomes := by
  intro s level bus code absent present
  cases hlevel : level with
  | true => exact exec_owReadRom_of_high hlevel
  | false => exact exec_owReadRom_of_low hlevel

/-- What `ow.read_rom` can leave: the bytes of a valid code written to hbuf, or a failure before any write (R173,
R174). -/
theorem exec_owReadRom_cases {s t : State} (h : exec .owReadRom s = .next t) :
    ∃ s1 : State, s1.hbuf = s.hbuf ∧
      (romValid s1.ow.scratch = true ∧ t = finish 1 (memWriteFrom 0 s1.ow.scratch.toList s1) ∨
        ∃ r, r ≠ .none ∧ t = raise r s1) := by
  cases hlevel : s.ow.bus.draw.1 with
  | true =>
    rw [exec_owReadRom_of_high hlevel] at h
    injection h with h
    exact ⟨{ s with ow := s.ow.afterAbsence }, rfl, .inr ⟨.absence, by decide, h.symm⟩⟩
  | false =>
    rw [exec_owReadRom_of_low hlevel, romResult_eq _ rfl] at h
    injection h with h
    refine ⟨{ s with ow := s.ow.afterRom s.par.cmdReadRom }, rfl, ?_⟩
    split at h
    · next hvalid => exact .inl ⟨hvalid, h.symm⟩
    · exact .inr ⟨.dataIntegrity, by decide, h.symm⟩

/-- The bytes of a code written to hbuf from index 0 on: the code at 0 to 7. -/
theorem hbufByte_memWriteFrom_code (code : Vector Byte 8) (s : State) (a : Byte) :
    (memWriteFrom 0 code.toList s).hbufByte a = if a.toNat < 8 then code[a.toNat]? else s.hbufByte a := by
  rw [hbufByte_memWriteFrom 0 code.toList s a (by simp)]
  simp

/-- Settles O23: `hbuf` is written only in the first case of `exec_owReadRom_cases`. -/
theorem readRomWritesOnlyAValidCode : Obligations.ReadRomWritesOnlyAValidCode := by
  intro s t h
  have hindex (i : Fin 8) : (BitVec.ofNat 8 i).toNat = i := Nat.mod_eq_of_lt (by omega)
  obtain ⟨s1, hhbuf, ⟨hvalid, rfl⟩ | ⟨r, hr, rfl⟩⟩ := exec_owReadRom_cases h
  · refine ⟨fun _ => ⟨?_, fun i => ?_, fun a ha => ?_⟩, fun hfail => absurd rfl hfail⟩
    · simpa using hvalid
    · rw [hbufByte_finish, hbufByte_memWriteFrom_code, hindex, if_pos i.isLt]
      simp
    · rw [hbufByte_finish, hbufByte_memWriteFrom_code, if_neg (by omega)]
      exact hbufByte_congr hhbuf a
  · exact ⟨fun hnone => absurd hnone hr, fun _ => hbufByte_congr hhbuf⟩

/-! ### Device selection (R175, R176) -/

theorem exec_owSkipRom (s : State) :
    exec .owSkipRom s = .next (finish 0 { s with ow := writeByte s.par.cmdSkipRom s.ow }) := rfl

theorem exec_owMatchRom (s : State) :
    exec .owMatchRom s =
      .next
        (finish 0 (writeHbufBytes [0, 1, 2, 3, 4, 5, 6, 7] { s with ow := writeByte s.par.cmdMatchRom s.ow })) := rfl

/-- Settles O24: the closed forms of the byte transmitter (`writeByte_eq`) and of bytes sent from hbuf
(`writeHbufBytes_eq`, `writeBytes_eq`). -/
theorem selectionSendsTheBytes : Obligations.SelectionSendsTheBytes := by
  intro s sent
  constructor
  · rw [exec_owSkipRom, writeByte_eq]
  · rw [exec_owMatchRom, writeHbufBytes_eq, writeBytes_eq _ _ (by simp [hbufBytes]), writeByte_eq, record_record]

/-! ### Alarm search (R177) -/

theorem exec_owAlarmSearch (s : State) :
    exec .owAlarmSearch s = .next (alarmAfter (detectPresence s.ow).1 { s with ow := (detectPresence s.ow).2 }) := rfl

theorem exec_owAlarmSearch_of_high {s : State} (h : s.ow.bus.draw.1 = true) :
    exec .owAlarmSearch s = .next (raise .absence { s with ow := s.ow.afterAbsence }) := by
  rw [exec_owAlarmSearch, detectPresence_of_high h]
  rfl

/-- Unit OW after presence, the command byte and the two response bits of `ow.alarm_search`, and then `last` (R177). -/
def OwUnit.afterAlarm (cmd : Byte) (last : List OwEvent) (u : OwUnit) : OwUnit :=
  { u with
    drive := false
    timer := 0
    mask := 0
    b0 := u.bus.draw.2.draw.1
    b1 := u.bus.draw.2.draw.2.draw.1
    bus :=
      u.bus.draw.2.draw.2.draw.2.record
        (.reset false :: byteSlots cmd ++ [.rd u.bus.draw.2.draw.1, .rd u.bus.draw.2.draw.2.draw.1] ++ last) }

/-- Presence, the command byte and the responses in one. -/
theorem readResponses_detect (cmd : Byte) {u : OwUnit} (h : u.bus.draw.1 = false) :
    readResponses (writeByte cmd (detectPresence u).2) = u.afterAlarm cmd [] := by
  rw [detectPresence_eq, writeByte_eq, readResponses_eq]
  simp only [draw_record_fst, draw_record_snd, afterDraws_record, afterDraws_succ, afterDraws_zero, record_record, h,
    OwUnit.afterAlarm, List.cons_append, List.nil_append, List.append_nil]

/-- The bit written back is one more slot. -/
theorem writeBit_afterAlarm (v : Bit) (cmd : Byte) (u : OwUnit) :
    writeBit v (u.afterAlarm cmd []) = u.afterAlarm cmd [.wr v] := by
  rw [writeBit_eq]
  simp only [OwUnit.afterAlarm, record_record, List.append_nil]

theorem exec_owAlarmSearch_of_low {s : State} (h : s.ow.bus.draw.1 = false) :
    exec .owAlarmSearch s = .next (alarmResult { s with ow := s.ow.afterAlarm s.par.cmdAlarmSearch [] }) := by
  rw [exec_owAlarmSearch, alarmAfter, if_pos (detectPresence_of_low h), readResponses_detect _ h]

/-- R177: both response bits 1, no alarm. -/
theorem exec_owAlarmSearch_no_alarm {s : State} (h : s.ow.bus.draw.1 = false) (h0 : s.ow.bus.draw.2.draw.1 = true)
    (h1 : s.ow.bus.draw.2.draw.2.draw.1 = true) :
    exec .owAlarmSearch s = .next (finish 0 { s with ow := s.ow.afterAlarm s.par.cmdAlarmSearch [] }) := by
  rw [exec_owAlarmSearch_of_low h, alarmResult, if_pos]
  simp [OwUnit.afterAlarm, h0, h1]

/-- R177: a response bit 0, and `alarmBit` written back. -/
theorem exec_owAlarmSearch_alarm (b0 b1 : Bit) {s : State} (h : s.ow.bus.draw.1 = false)
    (h0 : s.ow.bus.draw.2.draw.1 = b0) (h1 : s.ow.bus.draw.2.draw.2.draw.1 = b1) (halarm : (b0 && b1) = false) :
    exec .owAlarmSearch s =
      .next (finish 1 { s with ow := s.ow.afterAlarm s.par.cmdAlarmSearch [.wr (alarmBit s.par b0 b1)] }) := by
  subst h0 h1
  rw [exec_owAlarmSearch_of_low h, alarmResult, if_neg (by simpa [OwUnit.afterAlarm] using halarm), writeBit_afterAlarm]
  rfl

/-- Settles O25: by the level of the presence sample and the two response bits. -/
theorem alarmSearchOutcomes : Obligations.AlarmSearchOutcomes := by
  intro s level bus b0 b1 absent present
  cases hlevel : level with
  | true => exact exec_owAlarmSearch_of_high hlevel
  | false =>
    cases h0 : b0 with
    | true =>
      cases h1 : b1 with
      | true => exact exec_owAlarmSearch_no_alarm hlevel h0 h1
      | false => exact exec_owAlarmSearch_alarm true false hlevel h0 h1 rfl
    | false =>
      cases h1 : b1 with
      | true => exact exec_owAlarmSearch_alarm false true hlevel h0 h1 rfl
      | false => exact exec_owAlarmSearch_alarm false false hlevel h0 h1 rfl

/-! ### `ow.search_rom` (R180) -/

theorem exec_owSearchRom (s : State) : exec .owSearchRom s = .next (raise .unsupported s) := rfl

/-- The low eight bits of a word, masked or taken out (R91). -/
theorem toNat_and_low_byte (w : Word24) : (w &&& 0x0000FF).toNat = (w.extractLsb' 0 8).toNat := by
  simpa using Nat.and_two_pow_sub_one_eq_mod w.toNat 8

/-- Settles O26: format `Z` uses the low eight bits alone (`decodeReadsExactlyTheUsedBits`). -/
theorem searchRomIsAFlaggedNoOp : Obligations.SearchRomIsAFlaggedNoOp := by
  refine ⟨fun w => ?_, exec_owSearchRom⟩
  have hwf : Instr.WellFormed .owSearchRom := rfl
  have hmask : usedBits .owSearchRom = 0x0000FF := rfl
  have hword : (encode .owSearchRom).toNat = (0x0A : Byte).toNat := by decide
  rw [decodeReadsExactlyTheUsedBits, and_iff_right hwf, hmask, ← BitVec.toNat_inj, toNat_and_low_byte, hword,
    BitVec.toNat_inj]

end Sys2Proof.Machine
end

section
/-! ## `tw.enable`, `tw.disable`, `tw.is_enabled`, and the stop that is still to come (43_tw_control_biu.md R201 to
R203, R208) -/

namespace Sys2Proof.Machine

theorem exec_twEnable (s : State) : exec .twEnable s = .next (finish 0 { s with tw := enableUnit s.tw }) := rfl

theorem exec_twIsEnabled (s : State) : exec .twIsEnabled s = .next (finish (bitByte s.tw.enabled) s) := rfl

theorem exec_twDisable (s : State) :
    exec .twDisable s =
      if mayDisable s then .next (finish 0 { s with tw := disableUnit s.tw }) else .refused .twDisableInTransaction :=
  rfl

theorem mayDisable_iff (s : State) : mayDisable s = true ↔ s.tw.state = .idle ∧ s.tw.req = .none := by
  simp [mayDisable]

/-- Settles O31: the guard of `tw.enable` is on the flag that `tw.is_enabled` returns. -/
theorem enableAndIsEnabled : Obligations.EnableAndIsEnabled := by
  intro s
  refine ⟨?_, exec_twIsEnabled s⟩
  rw [exec_twEnable, enableUnit]
  split <;> rfl

/-- Settles O32, by the precondition of `tw.disable`. -/
theorem disableBetweenTransactions : Obligations.DisableBetweenTransactions := by
  intro s
  rw [exec_twDisable]
  refine ⟨fun hidle hnone => if_pos ((mayDisable_iff s).mpr ⟨hidle, hnone⟩), fun h => if_neg fun hmay => ?_⟩
  obtain ⟨hidle, hnone⟩ := (mayDisable_iff s).mp hmay
  exact h.elim (absurd hidle) (absurd hnone)

/-- One of the stops still to come is on the bus; the latch is empty again when it was the last (R208). -/
theorem biuFinishStop_of_stops {u : TwUnit} {k : Nat} (hstops : u.bus.stops = k + 1) (hreq : u.req = .stop) :
    biuFinishStop u =
      { u with
        owned := false
        req := if k = 0 then .none else .stop
        bus := { u.bus with stops := k, trace := u.bus.trace ++ [.stop] } } := by
  simp [biuFinishStop, hstops, hreq]

/-- Settles O38: with nothing offered, an idle engine's step is the BIU's. -/
theorem biuFinishesTheStop : Obligations.BiuFinishesTheStop := by
  intro s rest k hb hs hstops hreq
  rw [step_cons hs, inputStep, passTime_idle (s := { s with host := rest }) hb,
    biuFinishStop_of_stops (u := s.tw) hstops hreq]

end Sys2Proof.Machine
end

section
/-! ## Waiting for a phase that is not over (43_tw_control_biu.md R204, R209) -/

namespace Sys2Proof.Machine

/-! ### The first `WaitFlag` of a transfer -/

/-- A transfer that began in `s` has made its first request and is at the `WaitFlag` after it. -/
structure FirstWait (s s1 : State) : Prop where
  flagDown : s1.tw.flag = false
  pending : s1.tw.req.pending = true
  bus : s1.tw.bus = s.tw.bus.newPhase
  state : s1.tw.state = s.tw.state
  par : s1.par = s.par
  resVal : s1.resVal = s.resVal
  resReason : s1.resReason = s.resReason
  hbuf : s1.hbuf = s.hbuf

theorem request_firstWait {r : Request} (hr : r ≠ .stop) (s : State) : FirstWait s (request r s) := by
  obtain ⟨hflag, hpending⟩ := request_pending r s hr
  obtain ⟨hstate, -⟩ := request_transaction r s hr
  exact ⟨hflag, hpending, request_bus r s hr, hstate, request_par r s, request_resVal r s, request_resReason r s,
    request_hbuf r s⟩

/-- Every transfer but `tw.write_str 0` comes to a `WaitFlag`, with at most a register write before the request. -/
theorem transfer_firstWait {i : Instr} {need : TwState} {code : List TwOp} (h : i.transfer = some (need, code))
    (hi : i ≠ .twWriteStr 0) (s : State) :
    ∃ rest s1, FirstWait s s1 ∧ runTw code s = runTw (.wait :: rest) s1 := by
  cases i <;> simp only [Instr.transfer, reduceCtorEq, Option.some.injEq, Prod.mk.injEq] at h
  case twOpen a =>
    obtain ⟨-, rfl⟩ := h
    exact ⟨_, _, { request_firstWait (r := .start) (by simp) { s with tw := { s.tw with addr := a } } with }, rfl⟩
  case twWriteByte d =>
    obtain ⟨-, rfl⟩ := h
    exact ⟨_, _, request_firstWait (by simp) s, rfl⟩
  case twWriteStr n =>
    obtain ⟨-, rfl⟩ := h
    obtain ⟨k, hk⟩ : ∃ k, n.toNat = k + 1 :=
      Nat.exists_eq_succ_of_ne_zero fun h0 => hi (by rw [BitVec.eq_of_toNat_eq (y := 0) h0])
    rw [writeStrCode, hk]
    exact ⟨_, _, { request_firstWait (r := .send (.hbuf 0)) (by simp) { s with tw := { s.tw with idx := 0 } } with },
      rfl⟩
  case twReadCh r =>
    obtain ⟨-, rfl⟩ := h
    exact ⟨_, _, request_firstWait (by simp) s, rfl⟩
  case twReadStr r n =>
    obtain ⟨-, -, rfl⟩ : n ≠ 0 ∧ _ := by simpa using h
    exact ⟨_, _, request_firstWait (by simp) s, rfl⟩

/-! ### A poll that leaves the flag down -/

/-- A poll that finds the phase not over yet, or dead: the draw is used and the poll counted. -/
theorem pollFlag_undone {s : State} {x : PhaseDraw} {ds : List PhaseDraw} (hx : x = .later ∨ x = .never)
    (hf : s.tw.flag = false) (hr : s.tw.req.pending = true) (hl : s.tw.bus.dead = false)
    (hd : s.tw.bus.phases = x :: ds) :
    ∃ (o : Bit) (b : TwBus), pollFlag s = { s with tw := { s.tw with owned := o, bus := b } } ∧ b.phases = ds ∧
      b.waited = s.tw.bus.waited + 1 ∧
      b.trace = s.tw.bus.trace ++ (if x = .later then List.replicate s.tw.bus.stops .stop else []) := by
  rcases hx with rfl | rfl
  · exact ⟨_, _, pollFlag_later s _ hf hr hl (twDraw_cons hd), rfl, rfl, by simp [TwBus.after]⟩
  · exact ⟨_, _, pollFlag_never s _ hf hr hl (twDraw_cons hd), rfl, rfl, by simp⟩

/-- The phase is dead, or its next draw says that it is not over. -/
def TwBus.NotOver (b : TwBus) : Prop := b.dead = true ∨ ∃ ds, b.phases = .never :: ds ∨ b.phases = .later :: ds

theorem pollFlag_notOver {s : State} (hf : s.tw.flag = false) (hr : s.tw.req.pending = true)
    (hn : s.tw.bus.NotOver) :
    ∃ (o : Bit) (b : TwBus), pollFlag s = { s with tw := { s.tw with owned := o, bus := b } } ∧
      b.waited = s.tw.bus.waited + 1 := by
  cases hl : s.tw.bus.dead with
  | true => exact ⟨_, _, pollFlag_dead s hf hr hl, rfl⟩
  | false =>
    obtain ⟨ds, hd⟩ := hn.resolve_left (by simp [hl])
    have hx : ∃ x, (x = .later ∨ x = .never) ∧ s.tw.bus.phases = x :: ds :=
      hd.elim (fun h => ⟨_, .inr rfl, h⟩) (fun h => ⟨_, .inl rfl, h⟩)
    obtain ⟨x, hx, hd⟩ := hx
    obtain ⟨o, b, hpoll, -, hwaited, -⟩ := pollFlag_undone hx hf hr hl hd
    exact ⟨o, b, hpoll, hwaited⟩

/-! ### `WaitFlag`: go on, hold, or end with `Timeout` -/

theorem runTw_wait_flag {s : State} (rest : List TwOp) (h : (pollFlag s).tw.flag = true) :
    runTw (.wait :: rest) s = runTw rest (pollFlag s) := by
  rw [runTw, if_pos h]

theorem runTw_wait_hold {s : State} (rest : List TwOp) (hf : (pollFlag s).tw.flag = false)
    (hw : waitExpired s.par (pollFlag s).tw.bus.waited = false) :
    runTw (.wait :: rest) s = hold (.wait :: rest) (pollFlag s) := by
  rw [runTw, if_neg (by simp [hf]), if_neg (by simp [hw])]

theorem runTw_wait_expired {s : State} (rest : List TwOp) (hf : (pollFlag s).tw.flag = false)
    (hw : waitExpired s.par (pollFlag s).tw.bus.waited = true) :
    runTw (.wait :: rest) s = failTransaction .timeout (pollFlag s) := by
  rw [runTw, if_neg (by simp [hf]), if_pos hw]

theorem waitExpired_unbounded {p : Params} (h : p.twTimeout = none) (waited : Nat) : waitExpired p waited = false := by
  rw [waitExpired, h]

theorem waitExpired_bounded {p : Params} {bound : Nat} (h : p.twTimeout = some bound) (waited : Nat) :
    waitExpired p waited = decide (bound < waited) := by
  rw [waitExpired, h]

/-- With an unbounded wait the sequencer holds at a phase that is not over (R209). -/
theorem runTw_wait_undone {s : State} {x : PhaseDraw} {ds : List PhaseDraw} (rest : List TwOp)
    (hx : x = .later ∨ x = .never) (hf : s.tw.flag = false) (hr : s.tw.req.pending = true)
    (hl : s.tw.bus.dead = false) (hu : s.par.twTimeout = none) (hd : s.tw.bus.phases = x :: ds) :
    ∃ (o : Bit) (b : TwBus),
      runTw (.wait :: rest) s = hold (.wait :: rest) { s with tw := { s.tw with owned := o, bus := b } } ∧
      b.phases = ds ∧
      b.trace = s.tw.bus.trace ++ (if x = .later then List.replicate s.tw.bus.stops .stop else []) := by
  obtain ⟨o, b, hpoll, hphases, -, htrace⟩ := pollFlag_undone hx hf hr hl hd
  refine ⟨o, b, ?_, hphases, htrace⟩
  rw [runTw_wait_hold rest (by rw [hpoll]; exact hf) (waitExpired_unbounded hu _), hpoll]

/-- With a bound, the poll that exceeds it ends the command, and a poll within it holds (R209, log 11). -/
theorem runTw_wait_notOver {s : State} {bound : Nat} (rest : List TwOp) (hf : s.tw.flag = false)
    (hr : s.tw.req.pending = true) (hn : s.tw.bus.NotOver) (hb : s.par.twTimeout = some bound) :
    ∃ (o : Bit) (b : TwBus), b.waited = s.tw.bus.waited + 1 ∧
      runTw (.wait :: rest) s =
        if bound < s.tw.bus.waited + 1 then
          failTransaction .timeout { s with tw := { s.tw with owned := o, bus := b } }
        else hold (.wait :: rest) { s with tw := { s.tw with owned := o, bus := b } } := by
  obtain ⟨o, b, hpoll, hwaited⟩ := pollFlag_notOver hf hr hn
  have hflag : (pollFlag s).tw.flag = false := by rw [hpoll]; exact hf
  have hexp : waitExpired s.par (pollFlag s).tw.bus.waited = decide (bound < s.tw.bus.waited + 1) := by
    rw [waitExpired_bounded hb, hpoll, hwaited]
  refine ⟨o, b, hwaited, ?_⟩
  split
  · rename_i hlt
    rw [runTw_wait_expired rest hflag (by simp [hexp, hlt]), hpoll]
  · rename_i hlt
    rw [runTw_wait_hold rest hflag (by simp [hexp, hlt]), hpoll]

/-- Whatever word is offered, or none, a holding sequencer resumes. -/
theorem step_hold_ordinary {s : State} {code : List TwOp} (hb : s.busy = true) (hq : s.seq = .hold code)
    (hl : s.tw.bus.dead = false) (hh : s.host = [] ∨ ∃ y rest, s.host = y :: rest ∧ y.ordinary = true) :
    ∃ rest, step s = .next (runTw code { s with host := rest }) := by
  rcases hh with hh | ⟨y, rest, hh, hy⟩
  · refine ⟨[], ?_⟩
    rw [step_hold hb hq hh hl, ← hh]
  · refine ⟨rest, ?_⟩
    have hpass : passTime { s with host := rest } = runTw code { s with host := rest } := passTime_hold hb hq
    rw [step_cons hh, ← hpass]
    cases y with
    | idle => rfl
    | offer w => exact if_pos hb
    | hostWrite | hostRead | reset | offerThenReset => cases hy

/-- Settles O47: at the first `WaitFlag` and at a later one, the poll finds the phase not over. -/
theorem transferHoldsUntilTheFlag : Obligations.TransferHoldsUntilTheFlag := by
  intro x ds hx
  refine ⟨fun i need code s htr hi he hs hu hd => ?_, fun s more hb hq hf hr hl hu hd hh => ?_⟩
  · obtain ⟨rest, s1, h, hrun⟩ := transfer_firstWait htr hi s
    have hl : s1.tw.bus.dead = false := by rw [h.bus]; rfl
    have hd1 : s1.tw.bus.phases = x :: ds := by rw [h.bus]; exact hd
    obtain ⟨o, b, hwait, hphases, htrace⟩ :=
      runTw_wait_undone rest hx h.flagDown h.pending hl (by rw [h.par]; exact hu) hd1
    rw [h.bus] at htrace
    rw [exec_transfer htr he hs, hrun, hwait]
    exact ⟨_, rfl, rfl, by simp, h.resVal, h.resReason, h.flagDown, h.pending, h.state.trans hs, hphases, htrace,
      h.hbuf⟩
  · obtain ⟨rest, hstep⟩ := step_hold_ordinary hb hq hl hh
    obtain ⟨o, b, hwait, hphases, htrace⟩ :=
      runTw_wait_undone (s := { s with host := rest }) more hx hf hr hl hu hd
    rw [hstep, hwait]
    exact ⟨_, rfl, rfl, hq.symm, rfl, rfl, hf, rfl, rfl, hphases, htrace, rfl, rfl, rfl⟩

/-- Settles O51: the wait in flight by its count so far, the first one of a command by a count of 0. -/
theorem finiteTimeout : Obligations.FiniteTimeout := by
  refine ⟨fun s more bound hb hq hf hr hn hbound hh => ?_, fun i need code s bound ds htr hi he hs hbound hd => ?_⟩
  · have hstep : step s = .next (runTw (.wait :: more) s) := by
      rw [step_nil hh, if_neg (by simp [hung, hbound]), passTime_hold hb hq]
    obtain ⟨o, b, hwaited, hrun⟩ := runTw_wait_notOver more hf hr hn hbound
    refine ⟨_, hstep, ?_⟩
    rw [hrun]
    split
    · exact ⟨rfl, rfl, rfl, rfl⟩
    · exact ⟨rfl, hq.symm, hwaited, rfl⟩
  · obtain ⟨rest, s1, h, hrun⟩ := transfer_firstWait htr hi s
    have hn : s1.tw.bus.NotOver := by rw [h.bus]; exact .inr ⟨ds, hd⟩
    have hzero : s1.tw.bus.waited = 0 := by rw [h.bus]; rfl
    obtain ⟨o, b, hwaited, hwait⟩ :=
      runTw_wait_notOver rest h.flagDown h.pending hn (by rw [h.par]; exact hbound)
    rw [hzero] at hwaited hwait
    refine ⟨_, exec_transfer htr he hs, ?_⟩
    rw [hrun, hwait]
    simp only [Nat.zero_add, Nat.lt_one_iff]
    split
    · exact ⟨rfl, rfl, rfl, rfl⟩
    · exact ⟨rfl, hwaited, h.resReason⟩

end Sys2Proof.Machine
end

section
/-! ## Stops (43_tw_control_biu.md R208, 44_tw_transactions.md R240) -/

namespace Sys2Proof.Machine

/-! ### The trace goes on, and no stop is requested -/

/-- The bus has gone on from `b` to `c` with no stop but those that were still to come, each on the bus or still to
come. -/
def TwBus.GoesOn (b c : TwBus) : Prop := ∃ es, c.trace = b.trace ++ es ∧ es.count .stop + c.stops = b.stops

theorem TwBus.GoesOn.of_eq {b c : TwBus} (htrace : c.trace = b.trace) (hstops : c.stops = b.stops) : b.GoesOn c :=
  ⟨[], by simp [htrace], by simp [hstops]⟩

theorem TwBus.GoesOn.trans {b c d : TwBus} (h : b.GoesOn c) (k : c.GoesOn d) : b.GoesOn d := by
  obtain ⟨es, htrace, hcount⟩ := h
  obtain ⟨fs, ktrace, kcount⟩ := k
  exact ⟨es ++ fs, by simp [htrace, ktrace], by simp; omega⟩

theorem finishStops_goesOn (u : TwUnit) : u.bus.GoesOn (finishStops u).bus :=
  ⟨List.replicate u.bus.stops .stop, rfl, by simp [finishStops]⟩

theorem count_stop_phaseEvent (u : TwUnit) (st d : Byte) : (phaseEvent u st d).count .stop = 0 := by
  unfold phaseEvent
  split <;> rfl

theorem completePhase_goesOn (p : Params) (st d : Byte) (u : TwUnit) : u.bus.GoesOn (completePhase p st d u).bus :=
  ⟨phaseEvent u st d, rfl, by simp [count_stop_phaseEvent, completePhase]⟩

theorem biuPhase_goesOn (p : Params) (u : TwUnit) : u.bus.GoesOn (biuPhase p u).bus := by
  obtain ⟨-, -, hstops, htrace⟩ := twDraw_fields u.bus
  have hdraw : u.bus.GoesOn u.bus.draw.2 := .of_eq htrace hstops
  have hfinish := hdraw.trans (finishStops_goesOn { u with bus := u.bus.draw.2 })
  unfold biuPhase
  split
  · exact .of_eq rfl rfl
  · split
    · exact hfinish.trans (completePhase_goesOn ..)
    · exact hfinish
    · exact hdraw.trans (.of_eq rfl rfl)

/-- A step of the BIU with the flag up or no phase pending does nothing. -/
theorem biuStep_rest (p : Params) {u : TwUnit} (h : u.flag = false → u.req.pending = false) : biuStep p u = u := by
  unfold biuStep
  split
  · rfl
  · rename_i hf
    have hpending := h (by simpa using hf)
    cases hreq : u.req <;> simp [hreq, TwReq.pending] at hpending ⊢

theorem pollFlag_goesOn (s : State) : s.tw.bus.GoesOn (pollFlag s).tw.bus := by
  by_cases hlive : s.tw.flag = false ∧ s.tw.req.pending = true
  · obtain ⟨hflag, hpending⟩ := hlive
    rw [pollFlag, biuStep_pending _ _ hflag hpending]
    exact (biuPhase_goesOn s.par s.tw).trans (.of_eq rfl rfl)
  · rw [pollFlag, biuStep_rest _ (by simpa using hlive)]
    exact .of_eq rfl rfl

theorem request_goesOn {r : Request} (hr : r ≠ .stop) (s : State) : s.tw.bus.GoesOn (request r s).tw.bus := by
  rw [request_bus r s hr]
  exact .of_eq rfl rfl

/-- Code without `BiuStop` requests no stop. -/
theorem runTw_goesOn (code : List TwOp) (s : State) :
    .request .stop ∉ code → s.tw.bus.GoesOn (runTw code s).tw.bus := by
  refine runTw_induction (fun code s t => .request .stop ∉ code → s.tw.bus.GoesOn t.tw.bus) ?nil ?ret ?setAddr
    ?setState ?setIdx ?request ?store ?check ?mismatch ?wait ?expired ?hold code s
  case nil => exact fun s _ => .of_eq rfl rfl
  case ret => exact fun v rest s _ => .of_eq rfl rfl
  case setAddr | setState | setIdx | store => exact fun _ rest s t ih hn => ih fun hmem => hn (.tail _ hmem)
  case request =>
    exact fun r rest s t ih hn =>
      (request_goesOn (fun hr => hn (by simp [hr])) s).trans (ih fun hmem => hn (.tail _ hmem))
  case check => exact fun c rest s t _ ih hn => ih fun hmem => hn (.tail _ hmem)
  case mismatch => exact fun c rest s _ _ => .of_eq rfl rfl
  case wait => exact fun rest s t _ ih hn => (pollFlag_goesOn s).trans (ih fun hmem => hn (.tail _ hmem))
  case expired | hold => exact fun rest s _ _ _ => (pollFlag_goesOn s).trans (.of_eq rfl rfl)

/-! ### A run that ends with `ProtocolMismatch` -/

/-- The code ends with a return. -/
def Returns (code : List TwOp) : Prop := ∃ v, .ret v ∈ code

theorem Returns.of_cons {op : TwOp} {rest : List TwOp} (h : Returns (op :: rest)) (hop : ∀ v, op ≠ .ret v) :
    Returns rest := by
  obtain ⟨v, hv⟩ := h
  exact ⟨v, (List.mem_cons.mp hv).resolve_left fun he => hop v he.symm⟩

/-- In code that returns, only a failed check ends with `ProtocolMismatch`, and it leaves `Failed` (R210). -/
theorem runTw_mismatch (code : List TwOp) (s : State) :
    Returns code → (runTw code s).resReason = .protocolMismatch → (runTw code s).busy = false →
      (runTw code s).tw.state = .failed := by
  refine runTw_induction
    (fun code _ t => Returns code → t.resReason = .protocolMismatch → t.busy = false → t.tw.state = .failed) ?nil ?ret
    ?setAddr ?setState ?setIdx ?request ?store ?check ?mismatch ?wait ?expired ?hold code s
  case nil => exact fun s h => by simp [Returns] at h
  case ret => exact fun v rest s _ hreason => by cases hreason
  case mismatch => exact fun c rest s _ _ _ _ => rfl
  case expired => exact fun rest s _ _ _ hreason => by cases hreason
  case hold => exact fun rest s _ _ _ _ hbusy => by cases hbusy
  case setAddr | setState | setIdx | request | store => exact fun _ rest s t ih h => ih (h.of_cons (by simp))
  case check => exact fun c rest s t _ ih h => ih (h.of_cons (by simp))
  case wait => exact fun rest s t _ ih h => ih (h.of_cons (by simp))

/-! ### The pseudocode of the transfers -/

theorem OwnedCode.noStop {code : List TwOp} (h : OwnedCode code) : .request .stop ∉ code := by
  induction h with
  | ret => simp
  | phase hr _ _ ih => simpa [eq_comm] using ⟨hr, ih⟩
  | setState _ _ ih | setIdx _ _ ih | store _ _ ih => simpa using ih

theorem OwnedCode.returns {code : List TwOp} (h : OwnedCode code) : Returns code := by
  induction h with
  | ret v => exact ⟨v, by simp⟩
  | phase _ _ _ ih | setState _ _ ih | setIdx _ _ ih | store _ _ ih =>
    obtain ⟨v, hv⟩ := ih
    exact ⟨v, by simp [hv]⟩

theorem transfer_noStop {i : Instr} {need : TwState} {code : List TwOp} (h : i.transfer = some (need, code)) :
    .request .stop ∉ code := by
  rcases transfer_shape h with ⟨-, hcode⟩ | ⟨a, rest, rfl, hrest⟩
  · exact hcode.noStop
  · simp [hrest.noStop]

theorem transfer_returns {i : Instr} {need : TwState} {code : List TwOp} (h : i.transfer = some (need, code)) :
    Returns code := by
  rcases transfer_shape h with ⟨-, hcode⟩ | ⟨a, rest, rfl, hrest⟩
  · exact hcode.returns
  · obtain ⟨v, hv⟩ := hrest.returns
    exact ⟨v, by simp [hv]⟩

theorem isOw_of_transfer {i : Instr} {x : TwState × List TwOp} (h : i.transfer = some x) : i.isOw = false := by
  cases i <;> simp only [Instr.transfer, reduceCtorEq] at h <;> rfl

theorem enableUnit_bus (u : TwUnit) : (enableUnit u).bus = u.bus := by
  unfold enableUnit
  split <;> rfl

/-- Settles O52: the other commands leave the bus alone, and a transfer's code holds no `BiuStop`. -/
theorem onlyCloseStops : Obligations.OnlyCloseStops := by
  intro i s t h hi
  have still {p : Prop} (hbus : t.tw.bus = s.tw.bus) (hnot : i.transfer = none) :
      s.tw.bus.GoesOn t.tw.bus ∧ (t.resReason = .protocolMismatch → t.busy = false → i.transfer.isSome = true → p) :=
    ⟨hbus ▸ .of_eq rfl rfl, by simp [hnot]⟩
  cases how : i.isOw with
  | true =>
    refine still (by rw [(exec_owFrame how h).tw]) ?_
    cases htr : i.transfer with
    | none => rfl
    | some x => exact absurd (isOw_of_transfer htr) (by simp [how])
  | false =>
    rcases tw_cases i s t how h with ⟨rfl, rfl⟩ | ⟨rfl, -, -, rfl⟩ | ⟨rfl, rfl⟩ | ⟨rfl, -, -⟩ | ⟨r, rfl, rfl⟩ |
      ⟨need, code, htr, -, -, rfl⟩
    · exact still (enableUnit_bus s.tw) rfl
    · exact still rfl rfl
    · exact still rfl rfl
    · exact absurd rfl hi
    · exact still rfl rfl
    · exact ⟨runTw_goesOn code s (transfer_noStop htr),
        fun hreason hbusy _ => runTw_mismatch code s (transfer_returns htr) hreason hbusy⟩

end Sys2Proof.Machine
end

section
/-! ## A BIU that behaves (43_tw_control_biu.md R211) beside the checks of the transfers -/

namespace Sys2Proof.Machine

/-! ### Pieces of pseudocode that pass every check they make -/

/-- From a state with `P`, and with every phase as the table of R211 gives it, the piece of pseudocode passes its checks
and the run goes on from a state with `Q`. -/
def Passes (P : State → Prop) (piece : List TwOp) (Q : State → Prop) : Prop :=
  ∀ (rest : List TwOp) (s : State), P s → FollowsTable (piece ++ rest) s →
    ∃ t, Q t ∧ FollowsTable rest t ∧ runTw (piece ++ rest) s = runTw rest t

theorem Passes.nil {P : State → Prop} : Passes P [] P := fun _ s hP hfollows => ⟨s, hP, hfollows, rfl⟩

theorem Passes.append {P Q R : State → Prop} {xs ys : List TwOp} (hx : Passes P xs Q) (hy : Passes Q ys R) :
    Passes P (xs ++ ys) R := by
  intro rest s hP hfollows
  rw [List.append_assoc] at hfollows ⊢
  obtain ⟨s1, hQ, hfollows, hrun⟩ := hx _ s hP hfollows
  obtain ⟨t, hR, hfollows, hrun'⟩ := hy rest s1 hQ hfollows
  exact ⟨t, hR, hfollows, hrun.trans hrun'⟩

theorem Passes.weaken {P Q Q' : State → Prop} {xs : List TwOp} (h : Passes P xs Q) (hq : ∀ s, Q s → Q' s) :
    Passes P xs Q' := by
  intro rest s hP hfollows
  obtain ⟨t, hQ, h⟩ := h rest s hP hfollows
  exact ⟨t, hq t hQ, h⟩

theorem passes_setAddr {P : State → Prop} (a : BitVec 7) (h : ∀ s, P s → P { s with tw := { s.tw with addr := a } }) :
    Passes P [.setAddr a] P := fun _ s hP hfollows => ⟨_, h s hP, hfollows, rfl⟩

theorem passes_setIdx {P : State → Prop} (i : Byte) (h : ∀ s, P s → P { s with tw := { s.tw with idx := i } }) :
    Passes P [.setIdx i] P := fun _ s hP hfollows => ⟨_, h s hP, hfollows, rfl⟩

theorem passes_setState {P Q : State → Prop} (x : TwState)
    (h : ∀ s, P s → Q { s with tw := { s.tw with state := x } }) : Passes P [.setState x] Q :=
  fun _ s hP hfollows => ⟨_, h s hP, hfollows, rfl⟩

theorem passes_store {P : State → Prop} (i : Byte) (h : ∀ s v, P s → P (memWrite i v s)) : Passes P [.store i] P :=
  fun _ s hP hfollows => ⟨_, h s _ hP, hfollows, rfl⟩

/-- The poll after a request, where the phase is over at once. -/
theorem pollFlag_phased {r : Request} {s : State} {st d : Byte} {b' : TwBus} (hr : r ≠ .stop)
    (hd : s.tw.bus.draw = (.done st d, b')) : pollFlag (request r s) = s.phased r st d b' := by
  obtain ⟨hflag, hpending⟩ := request_pending r s hr
  have hbus := request_bus r s hr
  rw [pollFlag_done (request r s) st d b'.newPhase hflag hpending (by rw [hbus]; rfl)
    (by rw [hbus, newPhase_draw, hd]), State.phased, ← request_par r s]
  rfl

/-- A phase: where the table gives the status that is checked, the check passes. -/
theorem passes_phase {P Q : State → Prop} {r : Request} {c : StatusName} (hr : r ≠ .stop)
    (hstatus : ∀ s, P s → behavingStatus s.par (request r s).tw true = some (s.par.status c))
    (hnext : ∀ s d b', P s → Q (s.phased r (s.par.status c) d b')) : Passes P (twStep r c) Q := by
  intro rest s hP hfollows
  obtain ⟨⟨st, d, hdraw, hst⟩, hrest⟩ := hfollows
  obtain rfl : s.par.status c = st := by
    rw [request_par, hstatus s hP] at hst
    exact Option.some.inj hst
  have hdraw : s.tw.bus.draw = (.done (s.par.status c) d, s.tw.bus.draw.2) := by
    rw [request_bus r s hr, newPhase_draw] at hdraw
    exact Prod.ext hdraw rfl
  refine ⟨s.phased r (s.par.status c) d s.tw.bus.draw.2, hnext s _ _ hP, ?_, ?_⟩
  · rwa [pollFlag_phased hr hdraw] at hrest
  · rw [runTw_twStep r c rest s _ d _ hr hdraw, if_pos rfl]
    rfl

/-! ### What the next phase is about -/

/-- The engine owns the bus, no stop to come counted in, and the last phase reported `c`. -/
def OnBus (p : Params) (c : StatusName) (s : State) : Prop :=
  s.par = p ∧ s.tw.ownedAfterStops = true ∧ s.tw.status = p.status c

/-- A transaction in which `tw.open` or a write came last. -/
def InWrite (p : Params) (s : State) : Prop := OnBus p .slawAck s ∨ OnBus p .txDataAck s

/-- A transaction in which the read has begun. -/
def InRead (p : Params) (s : State) : Prop := s.par = p ∧ s.tw.state = .openR

/-- A request leaves the status, and whether the bus is owned, as they were. -/
theorem request_status_owned {r : Request} (hr : r ≠ .stop) (s : State) :
    (request r s).tw.status = s.tw.status ∧ (request r s).tw.ownedAfterStops = s.tw.ownedAfterStops := by
  cases r with
  | stop => exact absurd rfl hr
  | send b => cases b <;> exact ⟨rfl, rfl⟩
  | start | recv _ => exact ⟨rfl, rfl⟩

/-- A completed phase puts every stop on the bus before it, and a bus that was owned then stays owned. -/
theorem phased_onBus {p : Params} {r : Request} {c : StatusName} {s : State} (hr : r ≠ .stop) (d : Byte) (b' : TwBus)
    (hp : s.par = p) (howned : s.tw.ownedAfterStops = true ∨ r = .start ∧ c = .start) :
    OnBus p c (s.phased r (s.par.status c) d b') := by
  refine ⟨(phased_par ..).trans hp, ?_, by rw [← hp]; rfl⟩
  have hphase : phaseOwned s.par { (request r s).tw with owned := (request r s).tw.ownedAfterStops }
      (s.par.status c) = true := by
    rcases howned with howned | ⟨rfl, rfl⟩
    · rw [(request_status_owned hr s).2, howned]
      unfold phaseOwned
      split <;> simp
    · simp [phaseOwned, request, biuStart, Params.status]
  simpa [State.phased, TwUnit.afterPhase, TwUnit.ownedAfterStops, TwBus.after] using hphase

/-- A start on a bus that is free, and one on a bus that is owned (R211). -/
theorem behavingStatus_start (p : Params) (s : State) :
    behavingStatus p (request .start s).tw true =
      some (if s.tw.ownedAfterStops then p.stRepStart else p.stStart) :=
  (apply_ite some ..).symm

/-- An acknowledged byte by its place after a start and its direction bit (R211). -/
theorem behavingStatus_send (p : Params) (b : SendByte) (s : State) :
    behavingStatus p (request (.send b) s).tw true =
      if addressPhase p s.tw then
        if (sendByte b s).1.getLsbD 0 = p.dirWrite then some p.stSlawAck else some p.stSlarAck
      else some p.stTxDataAck := by
  cases b <;> rfl

theorem behavingStatus_recv (p : Params) (ack : Bit) (s : State) :
    behavingStatus p (request (.recv ack) s).tw true = some (if ack then p.stRxDataAck else p.stRxDataNack) := by
  cases ack <;> rfl

/-- Bit 0 of an address byte is the direction (30_encoding.md R112). -/
theorem getLsbD_addressByte_zero (p : Params) (a : BitVec 7) (d : Direction) :
    (addressByte p a d).getLsbD 0 = p.dirBit d := by
  unfold addressByte
  cases p.dirBit d <;> simp [bitByte]

/-- The status after a start says that an address byte comes next; the codes being distinct (R9), the status after an
acknowledged address or data byte says that none does. -/
theorem addressPhase_of_start {p : Params} {c : StatusName} {s : State} (h : OnBus p c s)
    (hc : c = .start ∨ c = .repStart) : addressPhase p s.tw = true := by
  obtain ⟨-, -, hstatus⟩ := h
  rcases hc with rfl | rfl <;> simp [addressPhase, hstatus, Params.status]

theorem not_addressPhase_of_inWrite {p : Params} {s : State} (hp : p.Distinct) (h : InWrite p s) :
    addressPhase p s.tw = false := by
  obtain ⟨hcodes, -⟩ := hp
  simp only [List.nodup_cons, List.mem_cons, not_or] at hcodes
  obtain ⟨⟨-, hstart4, hstart5, -⟩, ⟨hrep4, hrep5, -⟩, -⟩ := hcodes
  rcases h with ⟨-, -, hstatus⟩ | ⟨-, -, hstatus⟩
  · simp [addressPhase, hstatus, Params.status, Ne.symm hstart4, Ne.symm hrep4]
  · simp [addressPhase, hstatus, Params.status, Ne.symm hstart5, Ne.symm hrep5]

theorem InWrite.par_owned {p : Params} {s : State} (h : InWrite p s) : s.par = p ∧ s.tw.ownedAfterStops = true := by
  rcases h with ⟨hpar, howned, -⟩ | ⟨hpar, howned, -⟩
  · exact ⟨hpar, howned⟩
  · exact ⟨hpar, howned⟩

/-! ### The phases of the transfers -/

/-- The start of `tw.open`, on a free bus. -/
theorem passes_start (p : Params) :
    Passes (fun s => s.par = p ∧ s.tw.ownedAfterStops = false) (twStep .start .start) (OnBus p .start) := by
  refine passes_phase (by simp) (fun s ⟨_, hfree⟩ => ?_)
    fun s d b' ⟨hpar, _⟩ => phased_onBus (by simp) d b' hpar (.inr ⟨rfl, rfl⟩)
  rw [behavingStatus_start, hfree]
  rfl

/-- A repeated start, on an owned bus. -/
theorem passes_repStart (p : Params) : Passes (OnBus p .txDataAck) (twStep .start .repStart) (OnBus p .repStart) := by
  refine passes_phase (by simp) (fun s ⟨_, howned, _⟩ => ?_)
    fun s d b' ⟨hpar, howned, _⟩ => phased_onBus (by simp) d b' hpar (.inl howned)
  rw [behavingStatus_start, howned]
  rfl

/-- The address byte in write direction, right after the start. -/
theorem passes_addressWrite (p : Params) (a : BitVec 7) :
    Passes (OnBus p .start) (twStep (.send (.target a .write)) .slawAck) (OnBus p .slawAck) := by
  refine passes_phase (by simp) (fun s hs => ?_)
    fun s d b' ⟨hpar, howned, _⟩ => phased_onBus (by simp) d b' hpar (.inl howned)
  have ⟨hpar, _, _⟩ := hs
  rw [behavingStatus_send, hpar, if_pos (addressPhase_of_start hs (.inl rfl)), if_pos]
  · rfl
  · rw [← hpar]; exact getLsbD_addressByte_zero s.par a .write

/-- The address byte in read direction, right after the repeated start. -/
theorem passes_addressRead {p : Params} (hdir : p.dirWrite ≠ p.dirRead) :
    Passes (OnBus p .repStart) (twStep (.send (.retained .read)) .slarAck) (OnBus p .slarAck) := by
  refine passes_phase (by simp) (fun s hs => ?_)
    fun s d b' ⟨hpar, howned, _⟩ => phased_onBus (by simp) d b' hpar (.inl howned)
  have ⟨hpar, _, _⟩ := hs
  have hread : (sendByte (.retained .read) s).1.getLsbD 0 = p.dirRead := by
    rw [← hpar]; exact getLsbD_addressByte_zero s.par s.tw.addr .read
  rw [behavingStatus_send, hpar, if_pos (addressPhase_of_start hs (.inr rfl)), hread, if_neg (Ne.symm hdir)]
  rfl

/-- A data byte. -/
theorem passes_data {p : Params} (hp : p.Distinct) (b : SendByte) :
    Passes (InWrite p) (twStep (.send b) .txDataAck) (OnBus p .txDataAck) := by
  refine passes_phase (by simp) (fun s hs => ?_) fun s d b' hs => ?_
  · obtain ⟨hpar, -⟩ := hs.par_owned
    rw [behavingStatus_send, hpar, not_addressPhase_of_inWrite hp hs]
    rfl
  · obtain ⟨hpar, howned⟩ := hs.par_owned
    exact phased_onBus (by simp) d b' hpar (.inl howned)

/-- A receive, by what the engine answers. -/
theorem passes_recv {p : Params} {ack : Bit} {c : StatusName} (hc : c = if ack then .rxDataAck else .rxDataNack) :
    Passes (InRead p) (twStep (.recv ack) c) (InRead p) := by
  refine passes_phase (by simp) (fun s _ => ?_) fun s d b' ⟨hpar, hstate⟩ => ⟨(phased_par ..).trans hpar, hstate⟩
  rw [behavingStatus_recv, hc]
  cases ack <;> rfl

/-! ### The transfers -/

theorem passes_open (p : Params) (a : BitVec 7) :
    Passes (fun s => s.par = p ∧ s.tw.ownedAfterStops = false)
      ([.setAddr a] ++ twStep .start .start ++ twStep (.send (.target a .write)) .slawAck ++ [.setState .openW])
      (InWrite p) :=
  (((passes_setAddr a fun _ h => h).append (passes_start p)).append (passes_addressWrite p a)).append
    (passes_setState .openW fun _ h => .inl h)

theorem passes_writeLoop {p : Params} (hp : p.Distinct) (k i : Nat) :
    Passes (InWrite p) (writeLoop i k) (InWrite p) := by
  induction k generalizing i with
  | zero => exact .nil
  | succ k ih =>
    exact ((passes_setIdx _ fun _ h => h).append ((passes_data hp _).weaken fun _ h => .inr h)).append (ih _)

theorem passes_select {p : Params} (hp : p.Distinct) (hdir : p.dirWrite ≠ p.dirRead) (reg : Byte) :
    Passes (InWrite p) (selectCode reg) (InRead p) :=
  (((passes_data hp _).append (passes_repStart p)).append (passes_addressRead hdir)).append
    (passes_setState .openR fun _ ⟨hpar, _⟩ => ⟨hpar, rfl⟩)

theorem passes_readLoop (p : Params) (k i : Nat) : Passes (InRead p) (readLoop i k) (InRead p) := by
  induction k generalizing i with
  | zero => exact .nil
  | succ k ih =>
    exact (((passes_setIdx _ fun _ h => h).append (passes_recv rfl)).append (passes_store _ fun _ _ h => h)).append
      (ih _)

theorem passes_lastByte (p : Params) (i : Byte) :
    Passes (InRead p) (twStep (.recv false) .rxDataNack ++ [.store i]) (InRead p) :=
  (passes_recv rfl).append (passes_store _ fun _ _ h => h)

/-- The parts of a transfer before its `return 1`. -/
theorem transfer_passes {i : Instr} {need : TwState} {code : List TwOp} {s : State}
    (h : i.transfer = some (need, code)) (hp : s.par.Distinct) (hdir : s.par.dirWrite ≠ s.par.dirRead)
    (hidle : need = .idle → s.tw.ownedAfterStops = false) (hopen : need = .openW → InWrite s.par s)
    (hfollows : FollowsTable code s) :
    ∃ t, (InWrite s.par t ∨ InRead s.par t) ∧ runTw code s = finish 1 t := by
  have ends {P Q : State → Prop} {piece : List TwOp} (hpass : Passes P piece Q) (hP : P s)
      (hQ : ∀ t, Q t → InWrite s.par t ∨ InRead s.par t) (hcode : code = piece ++ [.ret 1]) :
      ∃ t, (InWrite s.par t ∨ InRead s.par t) ∧ runTw code s = finish 1 t := by
    subst hcode
    obtain ⟨t, ht, -, hrun⟩ := hpass _ s hP hfollows
    exact ⟨t, hQ t ht, hrun⟩
  cases i <;> simp only [Instr.transfer, reduceCtorEq, Option.some.injEq, Prod.mk.injEq] at h
  case twOpen a =>
    obtain ⟨rfl, rfl⟩ := h
    exact ends (passes_open s.par a) ⟨rfl, hidle rfl⟩ (fun _ => .inl) rfl
  case twWriteByte d =>
    obtain ⟨rfl, rfl⟩ := h
    exact ends (passes_data hp _) (hopen rfl) (fun _ h => .inl (.inr h)) rfl
  case twWriteStr n =>
    obtain ⟨rfl, rfl⟩ := h
    exact ends (passes_writeLoop hp _ _) (hopen rfl) (fun _ => .inl) rfl
  case twReadCh r =>
    obtain ⟨rfl, rfl⟩ := h
    exact ends ((passes_select hp hdir r).append (passes_lastByte _ 0)) (hopen rfl) (fun _ => .inr) rfl
  case twReadStr r n =>
    obtain ⟨-, rfl, rfl⟩ : n ≠ 0 ∧ _ := by simpa using h
    exact ends (((passes_select hp hdir r).append (passes_readLoop _ (n.toNat - 1) 0)).append
      (passes_lastByte _ (BitVec.ofNat 8 (n.toNat - 1)))) (hopen rfl) (fun _ => .inr)
      (by simp [readStrCode, lastByteCode])

/-- Settles O57: a transfer passes its checks and ends in a transaction of which the next one can say the same. -/
theorem behavingBiuPassesTheChecks : Obligations.BehavingBiuPassesTheChecks := by
  intro i need code s htr hp hdir he hs hidle hopen hfollows
  have hwrite (hneed : need = .openW) : InWrite s.par s := by
    obtain ⟨howned, hstatus⟩ := hopen hneed
    exact hstatus.imp (fun h => ⟨rfl, howned, h⟩) (fun h => ⟨rfl, howned, h⟩)
  obtain ⟨t, ht, hrun⟩ := transfer_passes htr hp hdir hidle hwrite hfollows
  refine ⟨_, exec_transfer htr he hs, ?_⟩
  rw [hrun]
  refine ⟨rfl, rfl, rfl, fun hstate => ?_⟩
  rcases ht with (⟨-, howned, hstatus⟩ | ⟨-, howned, hstatus⟩) | ⟨-, hread⟩
  · exact ⟨howned, .inl hstatus⟩
  · exact ⟨howned, .inr hstatus⟩
  · exact absurd (hread.symm.trans hstate) (by decide)

end Sys2Proof.Machine
end

section
/-! ## Delays (43_tw_control_biu.md R209, 70_reset_and_hazards.md R325) -/

namespace Sys2Proof.Machine

/-! ### A script without its delays -/

/-- The state with another script of phase draws. -/
def State.withScript (ds : List PhaseDraw) (s : State) : State :=
  { s with tw := { s.tw with bus := { s.tw.bus with phases := ds } } }

/-- The state with the polls taken out of the script that find a phase not over yet. -/
def State.undelayed (s : State) : State := s.withScript (withoutDelays s.tw.bus.phases)

theorem undelayed_of_nil {s : State} (h : s.tw.bus.phases = []) : s.undelayed = s := by
  rw [State.undelayed, h, show withoutDelays [] = s.tw.bus.phases from h.symm]
  rfl

theorem undelayed_of_later {s : State} {ds : List PhaseDraw} (h : s.tw.bus.phases = .later :: ds) :
    (s.withScript ds).undelayed = s.undelayed := by
  rw [State.undelayed, State.undelayed, h]
  rfl

/-- The premises about the environment: the wait is unbounded, nothing is offered, no phase is drawn never to
complete. -/
structure Scripted (s : State) : Prop where
  unbounded : s.par.twTimeout = none
  quiet : s.host = []
  noNever : .never ∉ s.tw.bus.phases

/-- No request looks at the script. -/
theorem request_undelayed (r : Request) (s : State) : request r s.undelayed = (request r s).undelayed := by
  cases r with
  | send b => cases b <;> rfl
  | start | recv _ | stop => rfl

theorem Scripted.request {s : State} (h : Scripted s) (r : Request) : Scripted (request r s) := by
  have hphases : (Machine.request r s).tw.bus.phases = s.tw.bus.phases := by
    cases r with
    | send b => cases b <;> rfl
    | start | recv _ | stop => rfl
  exact ⟨by rw [request_par]; exact h.unbounded, by rw [request_host]; exact h.quiet, by rw [hphases]; exact h.noNever⟩

/-! ### The polls that are no delay -/

/-- A poll that draws: the flag is down and a phase is pending that has not been drawn never to complete. -/
structure Polls (s : State) : Prop where
  flagDown : s.tw.flag = false
  pending : s.tw.req.pending = true
  alive : s.tw.bus.dead = false

/-- Any other poll changes its count alone. -/
theorem pollFlag_of_not_polls {s : State} (h : ¬Polls s) :
    pollFlag s =
      { s with
        tw := { s.tw with bus := { s.tw.bus with waited := if s.tw.flag then 0 else s.tw.bus.waited + 1 } } } := by
  have hstep : biuStep s.par s.tw = s.tw := by
    by_cases hlive : s.tw.flag = false ∧ s.tw.req.pending = true
    · obtain ⟨hflag, hpending⟩ := hlive
      rw [biuStep_pending _ _ hflag hpending, biuPhase_dead]
      cases hdead : s.tw.bus.dead with
      | true => rfl
      | false => exact absurd ⟨hflag, hpending, hdead⟩ h
    · exact biuStep_rest _ (by simpa using hlive)
  rw [pollFlag, hstep]

/-- A poll that draws, by its draw. -/
theorem Polls.cases {s : State} (h : Polls s) :
    (∃ st d b', s.tw.bus.draw = (.done st d, b') ∧ pollFlag s = { s with tw := s.tw.afterPhase s.par st d b' }) ∨
      (pollFlag s).tw.flag = false ∧ (pollFlag s).tw.bus.phases = s.tw.bus.draw.2.phases := by
  cases hd : s.tw.bus.draw with
  | mk x b' =>
    cases x with
    | done st d => exact .inl ⟨st, d, b', rfl, pollFlag_done s st d b' h.flagDown h.pending h.alive hd⟩
    | later => rw [pollFlag_later s b' h.flagDown h.pending h.alive hd]; exact .inr ⟨h.flagDown, rfl⟩
    | never => rw [pollFlag_never s b' h.flagDown h.pending h.alive hd]; exact .inr ⟨h.flagDown, rfl⟩

/-- A poll that finds the phase over is the same without the delays after it. -/
theorem Polls.undelayed_done {s : State} {st d : Byte} {ds : List PhaseDraw} (h : Polls s)
    (hd : s.tw.bus.phases = .done st d :: ds) :
    pollFlag s.undelayed = (pollFlag s).undelayed ∧ (pollFlag s).tw.bus.phases = ds := by
  have hd' : s.undelayed.tw.bus.phases = .done st d :: withoutDelays ds := congrArg withoutDelays hd
  rw [pollFlag_done s st d _ h.flagDown h.pending h.alive (twDraw_cons hd),
    pollFlag_done s.undelayed st d _ h.flagDown h.pending h.alive (twDraw_cons hd')]
  exact ⟨rfl, rfl⟩

/-- A script that has run out stays so. -/
theorem pollFlag_phases_of_nil {s : State} (h : s.tw.bus.phases = []) : (pollFlag s).tw.bus.phases = [] := by
  by_cases hp : Polls s
  · have hdraw : s.tw.bus.draw.2.phases = [] := by
      unfold TwBus.draw
      split
      · rename_i heq
        rw [h] at heq
        cases heq
      · exact h
    rcases hp.cases with ⟨st, d, b', hd, hpoll⟩ | ⟨-, hphases⟩
    · rw [hpoll]
      rwa [hd] at hdraw
    · exact hphases.trans hdraw
  · rw [pollFlag_of_not_polls hp]
    exact h

/-- A poll that is no delay is the same without the delays after it. -/
theorem Scripted.pollFlag_undelayed {s : State} (h : Scripted s)
    (hlater : Polls s → ∀ ds, s.tw.bus.phases ≠ .later :: ds) :
    pollFlag s.undelayed = (pollFlag s).undelayed ∧ Scripted (pollFlag s) := by
  by_cases hp : Polls s
  · cases hs : s.tw.bus.phases with
    | nil =>
      have hnil := pollFlag_phases_of_nil hs
      exact ⟨by rw [undelayed_of_nil hs, undelayed_of_nil hnil], h.unbounded, h.quiet, by rw [hnil]; simp⟩
    | cons x ds =>
      obtain ⟨hx, hds⟩ : .never ≠ x ∧ .never ∉ ds := by simpa [hs] using h.noNever
      cases x with
      | done st d =>
        obtain ⟨hpoll, hphases⟩ := hp.undelayed_done hs
        exact ⟨hpoll, h.unbounded, h.quiet, by rw [hphases]; exact hds⟩
      | later => exact absurd hs (hlater hp ds)
      | never => exact absurd rfl hx
  · have hp' : ¬Polls s.undelayed := fun hu => hp ⟨hu.flagDown, hu.pending, hu.alive⟩
    rw [pollFlag_of_not_polls hp, pollFlag_of_not_polls hp']
    exact ⟨rfl, h.unbounded, h.quiet, h.noNever⟩

/-! ### The polls that are -/

/-- The sequencer holds after a poll that found the phase not over yet: the stops are on the bus. -/
def State.delayed (rest : List TwOp) (s : State) : State :=
  hold (.wait :: rest)
    { s with
      tw :=
        { s.tw with
          owned := s.tw.ownedAfterStops
          bus := { s.tw.bus.after s.tw.bus [] with waited := s.tw.bus.waited + 1 } } }

/-- A phase that is over after a delay leaves the unit as one without: the stops are on the bus once (R208). -/
theorem afterPhase_delayed {p : Params} {st d : Byte} {b' c' : TwBus} {s : State} {rest : List TwOp}
    (hphases : c'.phases = b'.phases) (hdrawn : c'.drawn = b'.drawn) :
    (s.delayed rest).tw.afterPhase p st d c' = s.tw.afterPhase p st d b' := by
  have howned : (s.delayed rest).tw.ownedAfterStops = s.tw.ownedAfterStops := by
    simp [State.delayed, TwUnit.ownedAfterStops, TwBus.after]
  have hbus (es : List TwEvent) : (s.delayed rest).tw.bus.after c' es = s.tw.bus.after b' es := by
    simp [State.delayed, TwBus.after, hphases, hdrawn]
  simp only [TwUnit.afterPhase, howned, hbus]
  rfl

/-- Such a poll, and the hold after it: the draw is used. -/
theorem runTw_wait_later {s : State} {ds : List PhaseDraw} (rest : List TwOp) (h : Polls s)
    (hu : s.par.twTimeout = none) (hd : s.tw.bus.phases = .later :: ds) :
    runTw (.wait :: rest) s = (s.withScript ds).delayed rest := by
  have hpoll := pollFlag_later s _ h.flagDown h.pending h.alive (twDraw_cons hd)
  rw [runTw_wait_hold rest (by rw [hpoll]; exact h.flagDown) (waitExpired_unbounded hu _), hpoll]
  rfl

/-- A run that does not hold at its first `WaitFlag` has found the flag up there. -/
theorem flag_of_runTw_wait {s : State} {rest : List TwOp} (hu : s.par.twTimeout = none)
    (hend : (runTw (.wait :: rest) s).busy = false) : (pollFlag s).tw.flag = true := by
  cases hf : (pollFlag s).tw.flag with
  | true => rfl
  | false =>
    rw [runTw_wait_hold rest hf (waitExpired_unbounded hu _)] at hend
    cases hend

/-- What code that returns does is the same whether or not the sequencer has held before. -/
theorem runTw_hold {code : List TwOp} (held : List TwOp) (s : State) (h : Returns code) :
    runTw code (hold held s) = runTw code s := by
  induction code generalizing s with
  | nil => simp [Returns] at h
  | cons op rest ih =>
    cases op with
    | ret v => rfl
    | setAddr a => exact ih { s with tw := { s.tw with addr := a } } (h.of_cons (by simp))
    | setState a => exact ih { s with tw := { s.tw with state := a } } (h.of_cons (by simp))
    | setIdx i => exact ih { s with tw := { s.tw with idx := i } } (h.of_cons (by simp))
    | store i => exact ih (memWrite i s.tw.data s) (h.of_cons (by simp))
    | request r =>
      have hrequest : request r (hold held s) = hold held (request r s) := by
        cases r with
        | send b => cases b <;> rfl
        | start | recv _ | stop => rfl
      rw [runTw, hrequest]
      exact ih (request r s) (h.of_cons (by simp))
    | check c =>
      have hstatus : statusIs c (hold held s) = statusIs c s := rfl
      rw [runTw, runTw, hstatus, ih s (h.of_cons (by simp))]
      rfl
    | wait =>
      have hpoll : pollFlag (hold held s) = hold held (pollFlag s) := rfl
      rw [runTw, runTw, hpoll, ih (pollFlag s) (h.of_cons (by simp))]
      rfl

/-- Where the next poll finds the phase over, it does not matter that an earlier one did not (R209). -/
theorem runTw_delayed {s : State} {rest : List TwOp} (h : Polls s) (hu : s.par.twTimeout = none) (hret : Returns rest)
    (hend : (runTw (.wait :: rest) s).busy = false) :
    runTw (.wait :: rest) (s.delayed rest) = runTw (.wait :: rest) s := by
  have hflag := flag_of_runTw_wait hu hend
  obtain ⟨st, d, b', hd, hpoll⟩ := h.cases.resolve_right (by simp [hflag])
  have hdelayed :
      (s.delayed rest).tw.bus.draw =
        (.done st d,
          { b' with
            waited := s.tw.bus.waited + 1
            dead := false
            stops := 0
            trace := s.tw.bus.trace ++ List.replicate s.tw.bus.stops .stop ++ [] }) := by
    have hcongr := twDraw_congr s.tw.bus (s.tw.bus.waited + 1) false 0
      (s.tw.bus.trace ++ List.replicate s.tw.bus.stops .stop ++ [])
    rwa [hd] at hcongr
  have hpoll' : pollFlag (s.delayed rest) = hold (.wait :: rest) (pollFlag s) := by
    rw [pollFlag_done (s.delayed rest) st d _ h.flagDown h.pending rfl hdelayed, hpoll, afterPhase_delayed rfl rfl]
    rfl
  rw [runTw_wait_flag rest hflag, runTw_wait_flag rest (by rw [hpoll']; exact hflag), hpoll',
    runTw_hold _ _ hret]

/-! ### Runs -/

/-- In some number of steps the machine comes from `s` to `t`, what is left of the script apart. -/
def Reaches (s t : State) : Prop := ∃ (k : Nat) (u : State), Sys2Proof.core.run k s = .next u ∧ u.undelayed = t

theorem Reaches.now {s t : State} (h : s.undelayed = t) : Reaches s t := ⟨0, s, rfl, h⟩

theorem Reaches.of_step {s s1 t : State} (hstep : step s = .next s1) (h : Reaches s1 t) : Reaches s t := by
  obtain ⟨k, u, hrun, hu⟩ := h
  exact ⟨k + 1, u, (run_next hstep).trans hrun, hu⟩

/-- Code whose run ends on the script without delays comes to the same end on the script with them. -/
def Patient (code : List TwOp) : Prop :=
  ∀ s, Scripted s → (runTw code s.undelayed).busy = false → Reaches (runTw code s) (runTw code s.undelayed)

/-- A `WaitFlag` whose next poll is no delay. -/
theorem patient_poll {rest : List TwOp} {s : State} (hrest : Patient rest) (hs : Scripted s)
    (hend : (runTw (.wait :: rest) s.undelayed).busy = false)
    (hlater : Polls s → ∀ ds, s.tw.bus.phases ≠ .later :: ds) :
    Reaches (runTw (.wait :: rest) s) (runTw (.wait :: rest) s.undelayed) := by
  obtain ⟨hpoll, hscripted⟩ := hs.pollFlag_undelayed hlater
  have hflag := flag_of_runTw_wait (s := s.undelayed) hs.unbounded hend
  have hflag' : (pollFlag s).tw.flag = true := by rw [hpoll] at hflag; exact hflag
  rw [runTw_wait_flag rest hflag, hpoll] at hend ⊢
  rw [runTw_wait_flag rest hflag']
  exact hrest _ hscripted hend

/-- The delays of one phase, by induction over the script. -/
theorem patient_wait {rest : List TwOp} (hret : Returns rest) (hrest : Patient rest) : Patient (.wait :: rest) := by
  intro s hs hend
  induction hds : s.tw.bus.phases generalizing s with
  | nil => exact patient_poll hrest hs hend (by simp [hds])
  | cons x ds ih =>
    by_cases hlater : Polls s ∧ x = .later
    · obtain ⟨hp, rfl⟩ := hlater
      have hs' : Scripted (s.withScript ds) :=
        ⟨hs.unbounded, hs.quiet, fun hmem => hs.noNever (hds ▸ .tail _ hmem)⟩
      rw [← undelayed_of_later hds] at hend ⊢
      rw [runTw_wait_later rest hp hs.unbounded hds]
      have hsame :
          runTw (.wait :: rest) ((s.withScript ds).delayed rest).undelayed =
            runTw (.wait :: rest) (s.withScript ds).undelayed :=
        runTw_delayed (s := (s.withScript ds).undelayed) ⟨hp.flagDown, hp.pending, hp.alive⟩ hs'.unbounded hret hend
      rw [← hsame] at hend ⊢
      exact .of_step (step_hold rfl rfl hs'.quiet rfl) (ih _ { hs' with } hend rfl)
    · exact patient_poll hrest hs hend fun hp ds' heq => hlater ⟨hp, by rw [hds] at heq; cases heq; rfl⟩

theorem patient_of_returns {code : List TwOp} (h : Returns code) : Patient code := by
  induction code with
  | nil => simp [Returns] at h
  | cons op rest ih =>
    cases op with
    | ret v => exact fun s _ _ => .now rfl
    | setAddr a =>
      exact fun s hs => ih (h.of_cons (by simp)) { s with tw := { s.tw with addr := a } } { hs with }
    | setState a =>
      exact fun s hs => ih (h.of_cons (by simp)) { s with tw := { s.tw with state := a } } { hs with }
    | setIdx i =>
      exact fun s hs => ih (h.of_cons (by simp)) { s with tw := { s.tw with idx := i } } { hs with }
    | store i => exact fun s hs => ih (h.of_cons (by simp)) (memWrite i s.tw.data s) { hs with }
    | request r =>
      intro s hs hend
      simp only [runTw, request_undelayed] at hend ⊢
      exact ih (h.of_cons (by simp)) (request r s) (hs.request r) hend
    | check c =>
      intro s hs hend
      have hstatus : statusIs c s.undelayed = statusIs c s := rfl
      cases hc : statusIs c s with
      | true =>
        simp only [runTw, hstatus, hc, if_true] at hend ⊢
        exact ih (h.of_cons (by simp)) s hs hend
      | false =>
        simp only [runTw, hstatus, hc]
        exact .now rfl
    | wait => exact patient_wait (h.of_cons (by simp)) (ih (h.of_cons (by simp)))

theorem exec_transfer_next {i : Instr} {need : TwState} {code : List TwOp} {s t : State}
    (htr : i.transfer = some (need, code)) (h : exec i s = .next t) :
    s.tw.enabled = true ∧ s.tw.state = need ∧ t = runTw code s := by
  rcases tw_cases i s t (isOw_of_transfer htr) h with ⟨rfl, -⟩ | ⟨rfl, -⟩ | ⟨rfl, -⟩ | ⟨rfl, -⟩ | ⟨r, rfl, -⟩ |
    ⟨need', code', htr', he, hs, hrun⟩
  case inr.inr.inr.inr.inr =>
    obtain ⟨rfl, rfl⟩ : need = need' ∧ code = code' := by simpa using htr.symm.trans htr'
    exact ⟨he, hs, hrun⟩
  all_goals simp [Instr.transfer] at htr

/-- Settles O48: each delay is a hold from which the next poll goes on as the first one would have. -/
theorem delaysAreInvisible : Obligations.DelaysAreInvisible := by
  intro i need code s t ds htr hu hh hnever hds hexec hend
  subst hds
  obtain ⟨he, hs, ht⟩ := exec_transfer_next htr hexec
  rw [ht] at hend
  obtain ⟨k, u, hrun, hleft⟩ := patient_of_returns (transfer_returns htr) s ⟨hu, hh, hnever⟩ hend
  obtain rfl : u.undelayed = t := hleft.trans ht.symm
  exact ⟨_, k, u.tw.bus.phases, exec_transfer htr he hs, hrun, rfl⟩

end Sys2Proof.Machine
end

section
/-! ## Refusals and `tw.close` (44_tw_transactions.md R230, R231, R233) -/

namespace Sys2Proof.Machine

/-- A transfer's arm is its pseudocode behind the precondition of R230. -/
theorem exec_of_transfer {i : Instr} {need : TwState} {code : List TwOp} (h : i.transfer = some (need, code))
    (s : State) : exec i s = twCommand (some need) code s := by
  cases i <;> simp only [Instr.transfer, reduceCtorEq, Option.some.injEq, Prod.mk.injEq] at h
  case twReadStr r n =>
    obtain ⟨hn, rfl, rfl⟩ : n ≠ 0 ∧ _ := by simpa using h
    exact if_neg hn
  all_goals
    obtain ⟨rfl, rfl⟩ := h
    rfl

theorem twCommand_of_disabled (need : Option TwState) (code : List TwOp) {s : State} (he : s.tw.enabled = false) :
    twCommand need code s = .refused .twDisabled := by
  simp [twCommand, refusalOf, he]

theorem twCommand_of_wrongState {need : TwState} (code : List TwOp) {s : State} (he : s.tw.enabled = true)
    (hs : s.tw.state ≠ need) : twCommand (some need) code s = .refused .twWrongState := by
  simp [twCommand, refusalOf, he, hs]

theorem twCommand_of_enabled (code : List TwOp) {s : State} (he : s.tw.enabled = true) :
    twCommand none code s = .next (runTw code s) := by
  simp [twCommand, refusalOf, he]

/-- Settles O33, by the two refusals of a transaction command and `exec_transfer`. -/
theorem transactionsRefusedOutsideTheirState : Obligations.TransactionsRefusedOutsideTheirState := by
  intro i need code s htr
  refine ⟨fun he => ?_, fun he hs => ?_, fun he hs => ⟨_, exec_transfer htr he hs⟩⟩
  · rw [exec_of_transfer htr, twCommand_of_disabled _ _ he]
  · rw [exec_of_transfer htr, twCommand_of_wrongState _ he hs]

theorem exec_twClose (s : State) : exec .twClose s = twCommand none closeCode s := rfl

/-- Settles O37: "any" as the "from" state leaves the enable alone to be looked at. -/
theorem closeFromAnyState : Obligations.CloseFromAnyState := by
  intro s
  rw [exec_twClose]
  refine ⟨twCommand_of_disabled none closeCode, fun he => ?_⟩
  rw [twCommand_of_enabled _ he]
  rfl

end Sys2Proof.Machine
end

section
/-! ## The single-wire commands and unit TW (44_tw_transactions.md R241, 20_memory.md R63) -/

namespace Sys2Proof.Machine

theorem presenceResult_withTw (present : Bit) (s : State) (u : TwUnit) :
    presenceResult present { s with tw := u } = { presenceResult present s with tw := u } := by
  cases present <;> rfl

theorem romResult_withTw (s : State) (u : TwUnit) :
    romResult { s with tw := u } = { romResult s with tw := u } := by
  unfold romResult
  split
  · rw [memWriteFrom_withTw]; rfl
  · rfl

theorem readRomAfter_withTw (present : Bit) (s : State) (u : TwUnit) :
    readRomAfter present { s with tw := u } = { readRomAfter present s with tw := u } := by
  unfold readRomAfter
  split
  · exact romResult_withTw { s with ow := romTransfer s.par.cmdReadRom s.ow } u
  · rfl

theorem alarmResult_withTw (s : State) (u : TwUnit) :
    alarmResult { s with tw := u } = { alarmResult s with tw := u } := by
  unfold alarmResult
  split <;> rfl

theorem alarmAfter_withTw (present : Bit) (s : State) (u : TwUnit) :
    alarmAfter present { s with tw := u } = { alarmAfter present s with tw := u } := by
  unfold alarmAfter
  split
  · exact alarmResult_withTw { s with ow := readResponses (writeByte s.par.cmdAlarmSearch s.ow) } u
  · rfl

/-- Settles O30: each part of a single-wire command, over another unit TW, is that part with the other unit carried
along. -/
theorem singleWireIgnoresTwoWire : Obligations.SingleWireIgnoresTwoWire := by
  intro i s t u hi h
  cases i with
  | owDetectPresence =>
    injection h with h; subst h
    exact congrArg _ (presenceResult_withTw _ { s with ow := (detectPresence s.ow).2 } u)
  | owReadRom =>
    injection h with h; subst h
    exact congrArg _ (readRomAfter_withTw _ { s with ow := (detectPresence s.ow).2 } u)
  | owAlarmSearch =>
    injection h with h; subst h
    exact congrArg _ (alarmAfter_withTw _ { s with ow := (detectPresence s.ow).2 } u)
  | owMatchRom =>
    rw [exec_owMatchRom, writeHbufBytes_eq] at h ⊢
    injection h with h; subst h
    rfl
  | owWriteBit _ | owReadBit | owWriteByte _ | owReadByte | owIsBusy | owSkipRom | owSearchRom =>
    injection h with h; subst h
    rfl
  | twEnable | twDisable | twIsEnabled | twOpen _ | twClose | twWriteByte _ | twWriteStr _ | twReadCh _
  | twReadStr _ _ => cases hi

end Sys2Proof.Machine
end

section
/-! ## Transfers phase by phase: `tw.open` and `tw.write_byte` (44_tw_transactions.md R232, R234) -/

namespace Sys2Proof.Machine

/-! ### Chains of completed phases in closed form -/

/-- The state after completed phases that put `es` on the bus: the last of them leaves `data`, `status` and whether the
bus is owned, and `b` is what is left of the environment's draws. -/
def State.afterPhases (b : TwBus) (es : List TwEvent) (data status : Byte) (owned : Bit) (s : State) : State :=
  { s with
    tw :=
      { s.tw with
        data := data
        status := status
        flag := true
        owned := owned
        req := .none
        bus := s.tw.bus.after b es } }

/-- No stop is still to come after a phase (R208). -/
@[simp] theorem afterPhases_ownedAfterStops (b : TwBus) (es : List TwEvent) (data status : Byte) (owned : Bit)
    (s : State) : (s.afterPhases b es data status owned).tw.ownedAfterStops = owned := by
  simp [State.afterPhases, TwUnit.ownedAfterStops, TwBus.after]

/-- Phases after phases: the events add up, the later ones decide the registers. -/
theorem afterPhases_afterPhases (b c : TwBus) (es fs : List TwEvent) (data data' status status' : Byte)
    (owned owned' : Bit) (s : State) :
    (s.afterPhases b es data status owned).afterPhases c fs data' status' owned' =
      s.afterPhases c (es ++ fs) data' status' owned' := by
  simp only [State.afterPhases, after_after]

/-- Induction over a list from its end: a chain of phases grows there. -/
theorem list_concat_induction {α : Type} {P : List α → Prop} (nil : P []) (concat : ∀ l a, P l → P (l ++ [a]))
    (l : List α) : P l := by
  rw [← l.reverse_reverse]
  induction l.reverse with
  | nil => exact nil
  | cons a l ih =>
    rw [List.reverse_cons]
    exact concat l.reverse a ih

theorem eq_nil_or_concat {α : Type} (l : List α) : l = [] ∨ ∃ l' a, l = l' ++ [a] := by
  induction l using list_concat_induction with
  | nil => exact .inl rfl
  | concat l a => exact .inr ⟨l, a, rfl⟩

/-- A completed phase in closed form, by its request (R205 to R207). -/
theorem phased_start (st d : Byte) (b : TwBus) (s : State) :
    s.phased .start st d b =
      s.afterPhases b [.start st] s.tw.data st
        (s.tw.ownedAfterStops || st == s.par.stStart || st == s.par.stRepStart) := rfl

theorem phased_send (v : SendByte) (st d : Byte) (b : TwBus) (s : State) :
    s.phased (.send v) st d b =
      (sendByte v s).2.afterPhases b [.tx (sendByte v s).1 st] (sendByte v s).1 st s.tw.ownedAfterStops := by
  cases v <;> rfl

theorem phased_recv (ack : Bit) (st d : Byte) (b : TwBus) (s : State) :
    s.phased (.recv ack) st d b = s.afterPhases b [.rx ack d st] d st s.tw.ownedAfterStops := by
  cases ack <;> rfl

/-- After the last phase of a chain the bus is the one the chain's statement names. -/
theorem phased_of_gives_nil {r : Request} {st d : Byte} {b b' : TwBus} {s : State}
    (h : b'.Gives [] (s.phased r st d b).tw.bus) : s.phased r st d b = s.phased r st d b' := by
  have hbus : (request r s).tw.bus.after b (phaseEvent (request r s).tw st d) =
      (request r s).tw.bus.after b' (phaseEvent (request r s).tw st d) := after_eq h
  simp only [State.phased, TwUnit.afterPhase, hbus]

theorem runTw_lastPhase_ok (r : Request) (c : StatusName) {st d : Byte} {b' : TwBus} {s : State} (rest : List TwOp)
    (hr : r ≠ .stop) (h : b'.Gives [(st, d)] s.tw.bus) (hst : st = s.par.status c) :
    runTw (twStep r c ++ rest) s = runTw rest (s.phased r st d b') := by
  obtain ⟨b, hnil, hrun⟩ := runTw_phase_ok c rest h hr hst
  rw [hrun, phased_of_gives_nil hnil]

theorem runTw_lastPhase_bad (r : Request) (c : StatusName) {st d : Byte} {b' : TwBus} {s : State} (rest : List TwOp)
    (hr : r ≠ .stop) (h : b'.Gives [(st, d)] s.tw.bus) (hst : st ≠ s.par.status c) :
    runTw (twStep r c ++ rest) s = failTransaction .protocolMismatch (s.phased r st d b') := by
  obtain ⟨b, hnil, hrun⟩ := runTw_phase_bad c rest h hr hst
  rw [hrun, phased_of_gives_nil hnil]

/-! ### `tw.open` (R232) -/

/-- Unit TW in `tw.open` after a start reported with the code of a first start: the bus is owned (R205). -/
def State.started (a : BitVec 7) (b : TwBus) (s : State) : State :=
  State.afterPhases b [.start s.par.stStart] s.tw.data s.par.stStart true { s with tw := { s.tw with addr := a } }

theorem runTw_open_started (a : BitVec 7) {d : Byte} {xs : List (Byte × Byte)} {b' : TwBus} {s : State}
    (h : b'.Gives ((s.par.stStart, d) :: xs) s.tw.bus) :
    ∃ b, b'.Gives xs (s.started a b).tw.bus ∧
      runTw (openCode a) s =
        runTw (twStep (.send (.target a .write)) .slawAck ++ [.setState .openW, .ret 1]) (s.started a b) := by
  obtain ⟨b, hxs, hrun⟩ := runTw_phase_ok (r := .start) (s := { s with tw := { s.tw with addr := a } }) .start
    (twStep (.send (.target a .write)) .slawAck ++ [.setState .openW, .ret 1]) h (by simp) rfl
  have hstarted : State.phased .start s.par.stStart d b { s with tw := { s.tw with addr := a } } = s.started a b := by
    simp [phased_start, State.started]
  rw [hstarted] at hxs hrun
  exact ⟨b, hxs, hrun⟩

/-- The address byte after the start. -/
theorem phased_started (a : BitVec 7) (st d : Byte) (b b' : TwBus) (s : State) :
    (s.started a b).phased (.send (.target a .write)) st d b' =
      State.afterPhases b' [.start s.par.stStart, .tx (addressByte s.par a .write) st] (addressByte s.par a .write) st
        true { s with tw := { s.tw with addr := a } } := by
  rw [phased_send, State.started, afterPhases_ownedAfterStops]
  exact afterPhases_afterPhases ..

/-- Settles O35: both phases pass. -/
theorem openSucceeds : Obligations.OpenSucceeds := by
  intro a s b' d0 d1 he hs h
  obtain ⟨b, hxs, hrun⟩ := runTw_open_started a (gives_of_completes h)
  rw [exec_transfer rfl he hs, hrun, runTw_lastPhase_ok _ .slawAck _ (by simp) hxs rfl, phased_started]
  rfl

/-- Settles O36, by the phase that fails: the start, or the address byte after it. -/
theorem openStopsAtAFailedCheck : Obligations.OpenStopsAtAFailedCheck := by
  intro a s b' x d0 d1 he hs
  rw [exec_transfer rfl he hs]
  refine ⟨fun h hx => ?_, fun h hx => ?_⟩
  · have hrun := runTw_lastPhase_bad .start .start (s := { s with tw := { s.tw with addr := a } })
      (twStep (.send (.target a .write)) .slawAck ++ [.setState .openW, .ret 1]) (by simp) (gives_of_completes h) hx
    have hnot : (x == s.par.stStart) = false := beq_false_of_ne hx
    rw [phased_start, hnot, Bool.or_false] at hrun
    exact congrArg _ hrun
  · obtain ⟨b, hxs, hrun⟩ := runTw_open_started a (gives_of_completes h)
    rw [hrun, runTw_lastPhase_bad (.send (.target a .write)) .slawAck _ (by simp) hxs hx, phased_started]
    rfl

/-! ### `tw.write_byte` (R234) -/

/-- Settles O39: one phase, and its check. -/
theorem twWriteByteOutcomes : Obligations.TwWriteByteOutcomes := by
  intro data s b' x d he hs h sent
  rw [exec_transfer rfl he hs, writeByteCode]
  split
  case isTrue hx =>
    rw [runTw_lastPhase_ok (.send (.byte data)) .txDataAck _ (by simp) (gives_of_completes h) hx, phased_send]
    simp only [sent, ← hs]
    rfl
  case isFalse hx =>
    rw [runTw_lastPhase_bad (.send (.byte data)) .txDataAck _ (by simp) (gives_of_completes h) hx, phased_send]
    rfl

end Sys2Proof.Machine
end

section
/-! ## `tw.write_str` (44_tw_transactions.md R235) -/

namespace Sys2Proof.Machine

theorem indexes_succ (m : Nat) : indexes (m + 1) = indexes m ++ [BitVec.ofNat 8 m] := by
  simp [indexes, List.range_succ]

theorem length_indexes (m : Nat) : (indexes m).length = m := by simp [indexes]

/-- The byte `m` of hbuf as `tw.write_str` reads it after the bytes before it (log 4). -/
def State.byteToSend (m : Nat) (s : State) : Byte :=
  (Memory.read s.hbuf (BitVec.ofNat 8 m).toNat).getD (Config.freeByte (freshAfter s.hbuf (indexes m) s.fresh))

theorem hbufBytes_indexes_succ (m : Nat) (s : State) :
    hbufBytes s.hbuf (indexes (m + 1)) s.fresh =
      hbufBytes s.hbuf (indexes m) s.fresh ++ [s.byteToSend m] := by
  rw [indexes_succ, hbufBytes_append]
  rfl

theorem freshAfter_indexes_succ (m : Nat) (s : State) :
    freshAfter s.hbuf (indexes (m + 1)) s.fresh =
      if (Memory.read s.hbuf (BitVec.ofNat 8 m).toNat).isSome then freshAfter s.hbuf (indexes m) s.fresh
      else freshAfter s.hbuf (indexes m) s.fresh + 1 := by
  rw [indexes_succ, freshAfter_append]
  rfl

/-- The state after the phase of byte `m` of `tw.write_str`, reported with `x`, the bytes before it acknowledged. -/
def State.wrote (m : Nat) (x : Byte) (b : TwBus) (s : State) : State :=
  State.afterPhases b
    ((hbufBytes s.hbuf (indexes m) s.fresh).map (.tx · s.par.stTxDataAck) ++ [.tx (s.byteToSend m) x])
    (s.byteToSend m) x s.tw.ownedAfterStops
    { s with
      fresh := freshAfter s.hbuf (indexes (m + 1)) s.fresh
      tw := { s.tw with idx := BitVec.ofNat 8 m } }

/-- The state after `m` acknowledged bytes of `tw.write_str`. -/
def State.written (b : TwBus) (s : State) : Nat → State
  | 0 => s
  | m + 1 => s.wrote m s.par.stTxDataAck b

/-- The state in which byte `m` of `tw.write_str` is requested. -/
def State.writing (b : TwBus) (m : Nat) (s : State) : State :=
  { s.written b m with tw := { (s.written b m).tw with idx := BitVec.ofNat 8 m } }

theorem writing_par (b : TwBus) (m : Nat) (s : State) : (s.writing b m).par = s.par := by cases m <;> rfl

/-- The phase of byte `m`: its event comes behind those before it, which are there from the second byte on. -/
theorem phased_writing (m : Nat) (x d : Byte) (b b' : TwBus) (s : State) :
    (s.writing b m).phased (.send (.hbuf (BitVec.ofNat 8 m))) x d b' = s.wrote m x b' := by
  cases m with
  | zero => rfl
  | succ m =>
    have howned : (s.wrote m s.par.stTxDataAck b).tw.ownedAfterStops = s.tw.ownedAfterStops :=
      afterPhases_ownedAfterStops ..
    rw [State.wrote, hbufBytes_indexes_succ, List.map_append, freshAfter_indexes_succ (m + 1), ← howned,
      ← afterPhases_afterPhases b b' _ _ (s.byteToSend m) _ s.par.stTxDataAck _ s.tw.ownedAfterStops]
    exact phased_send ..

/-- The turns for acknowledged bytes. -/
theorem runTw_writeLoop {ds : List Byte} {xs : List (Byte × Byte)} {b' : TwBus} {s : State} (rest : List TwOp)
    (h : b'.Gives (ds.map (fun d => (s.par.stTxDataAck, d)) ++ xs) s.tw.bus) :
    ∃ b, b'.Gives xs (s.written b ds.length).tw.bus ∧
      runTw (writeLoop 0 ds.length ++ rest) s = runTw rest (s.written b ds.length) := by
  induction ds using list_concat_induction generalizing xs rest with
  | nil => exact ⟨b', h, rfl⟩
  | concat ds d ih =>
    rw [List.map_append, List.append_assoc] at h
    obtain ⟨b, hxs, hrun⟩ := ih (writeLoop ds.length 1 ++ rest) h
    obtain ⟨b1, hxs, hturn⟩ := runTw_phase_ok (r := .send (.hbuf (BitVec.ofNat 8 ds.length)))
      (s := s.writing b ds.length) .txDataAck rest hxs (by simp) (by rw [writing_par]; rfl)
    rw [phased_writing] at hxs hturn
    refine ⟨b1, by rwa [List.length_append], ?_⟩
    rw [List.length_append, List.length_singleton, writeLoop_add, Nat.zero_add, List.append_assoc, hrun]
    exact hturn

/-- `wrote` by the bytes up to byte `m`, as O41 names them. -/
theorem wrote_eq (m : Nat) (x : Byte) (b : TwBus) (s : State) :
    s.wrote m x b =
      let bytes := hbufBytes s.hbuf (indexes (m + 1)) s.fresh
      State.afterPhases b ((bytes.take m).map (.tx · s.par.stTxDataAck) ++ [.tx (bytes.getLastD 0) x])
        (bytes.getLastD 0) x s.tw.ownedAfterStops
        { s with
          fresh := freshAfter s.hbuf (indexes (m + 1)) s.fresh
          tw := { s.tw with idx := BitVec.ofNat 8 m } } := by
  have hlength : (hbufBytes s.hbuf (indexes m) s.fresh).length = m := by rw [length_hbufBytes, length_indexes]
  simp only [State.wrote, hbufBytes_indexes_succ, List.take_left' hlength, List.getLastD_concat]

/-- `tw.write_str` from the byte after the first `m` on. -/
theorem writeStrCode_split {m : Nat} {n : Byte} (h : m ≤ n.toNat) :
    writeStrCode n = writeLoop 0 m ++ (writeLoop m (n.toNat - m) ++ [.ret 1]) := by
  have hloop := writeLoop_add 0 m (n.toNat - m)
  rw [Nat.zero_add, Nat.add_sub_cancel' h] at hloop
  rw [writeStrCode, hloop, List.append_assoc]

/-- Settles O40: with `n` not 0, `n - 1` turns and the last one. -/
theorem writeStrSucceeds : Obligations.WriteStrSucceeds := by
  intro n s b' ds he hs hds h bytes
  rw [exec_transfer rfl he hs]
  rcases eq_nil_or_concat ds with rfl | ⟨ds, d, rfl⟩
  · obtain rfl : n = 0 := BitVec.eq_of_toNat_eq hds.symm
    rfl
  · rw [List.length_append, List.length_singleton] at hds
    have hn : n ≠ 0 := by rintro rfl; simp at hds
    have hidx : n - 1 = BitVec.ofNat 8 ds.length := by bv_omega
    rw [List.map_append] at h
    obtain ⟨b, hxs, hrun⟩ := runTw_writeLoop (writeLoop ds.length 1 ++ [.ret 1]) (gives_of_completes h)
    have hlast := runTw_lastPhase_ok (.send (.hbuf (BitVec.ofNat 8 ds.length))) .txDataAck
      (s := s.writing b ds.length) [.ret 1] (by simp) hxs (by rw [writing_par]; rfl)
    rw [phased_writing] at hlast
    have hcode : n.toNat - ds.length = 1 := by omega
    rw [writeStrCode_split (Nat.le.intro hds), hcode, hrun, if_neg hn, hidx]
    simp only [bytes, ← hds, hbufBytes_indexes_succ, List.getLastD_concat, List.map_append]
    exact congrArg _ hlast

/-- Settles O41: `m` turns, and the phase that fails. -/
theorem writeStrStopsAtTheFirstMismatch : Obligations.WriteStrStopsAtTheFirstMismatch := by
  intro n m s b' ds x d he hs hm hds hx h bytes
  subst hds
  obtain ⟨k, hk⟩ : ∃ k, n.toNat - ds.length = k + 1 := ⟨n.toNat - ds.length - 1, by omega⟩
  obtain ⟨b, hxs, hrun⟩ := runTw_writeLoop (writeLoop ds.length (k + 1) ++ [.ret 1]) (gives_of_completes h)
  have hbad := runTw_lastPhase_bad (.send (.hbuf (BitVec.ofNat 8 ds.length))) .txDataAck
    (s := s.writing b ds.length) (writeLoop (ds.length + 1) k ++ [.ret 1]) (by simp) hxs (by rw [writing_par]; exact hx)
  rw [phased_writing, wrote_eq] at hbad
  rw [exec_transfer rfl he hs, writeStrCode_split (Nat.le_of_lt hm), hk, hrun]
  exact congrArg _ hbad

end Sys2Proof.Machine
end

section
/-! ## `tw.read_ch` and `tw.read_str` (44_tw_transactions.md R236 to R239) -/

namespace Sys2Proof.Machine

/-! ### The addressing phases of a read (R236) -/

/-- The register select is acknowledged. -/
def State.regSelected (reg : Byte) (b : TwBus) (s : State) : State :=
  s.afterPhases b [.tx reg s.par.stTxDataAck] reg s.par.stTxDataAck s.tw.ownedAfterStops

/-- The repeated start is reported as one, so the bus is owned (R205). -/
def State.restarted (reg : Byte) (b : TwBus) (s : State) : State :=
  s.afterPhases b [.tx reg s.par.stTxDataAck, .start s.par.stRepStart] reg s.par.stRepStart true

theorem phased_regSelect (reg x d : Byte) (b : TwBus) (s : State) :
    s.phased (.send (.byte reg)) x d b = s.afterPhases b [.tx reg x] reg x s.tw.ownedAfterStops :=
  phased_send ..

theorem phased_restart (reg x d : Byte) (b b' : TwBus) (s : State) :
    (s.regSelected reg b).phased .start x d b' =
      s.afterPhases b' [.tx reg s.par.stTxDataAck, .start x] reg x
        (s.tw.ownedAfterStops || x == s.par.stStart || x == s.par.stRepStart) := by
  rw [phased_start, State.regSelected, afterPhases_ownedAfterStops]
  exact afterPhases_afterPhases ..

theorem phased_readAddress (reg x d : Byte) (b b' : TwBus) (s : State) :
    (s.restarted reg b).phased (.send (.retained .read)) x d b' =
      s.afterPhases b'
        [.tx reg s.par.stTxDataAck, .start s.par.stRepStart, .tx (addressByte s.par s.tw.addr .read) x]
        (addressByte s.par s.tw.addr .read) x true := by
  rw [phased_send, State.restarted, afterPhases_ownedAfterStops]
  exact afterPhases_afterPhases ..

/-- `selectCode` from the address byte on. -/
def addressCode : List TwOp := twStep (.send (.retained .read)) .slarAck ++ [.setState .openR]

/-- `selectCode` from the repeated start on. -/
def restartCode : List TwOp := twStep .start .repStart ++ addressCode

theorem runTw_regSelected (reg : Byte) {d0 : Byte} {xs : List (Byte × Byte)} {b' : TwBus} {s : State}
    (rest : List TwOp) (h : b'.Gives ((s.par.stTxDataAck, d0) :: xs) s.tw.bus) :
    ∃ b, b'.Gives xs (s.regSelected reg b).tw.bus ∧
      runTw (selectCode reg ++ rest) s = runTw (restartCode ++ rest) (s.regSelected reg b) := by
  obtain ⟨b, hxs, hrun⟩ :=
    runTw_phase_ok (r := .send (.byte reg)) .txDataAck (restartCode ++ rest) h (by simp) rfl
  rw [phased_regSelect] at hxs hrun
  exact ⟨b, hxs, hrun⟩

theorem runTw_restarted (reg : Byte) {d0 d1 : Byte} {xs : List (Byte × Byte)} {b' : TwBus} {s : State}
    (rest : List TwOp) (h : b'.Gives ((s.par.stTxDataAck, d0) :: (s.par.stRepStart, d1) :: xs) s.tw.bus) :
    ∃ b, b'.Gives xs (s.restarted reg b).tw.bus ∧
      runTw (selectCode reg ++ rest) s = runTw (addressCode ++ rest) (s.restarted reg b) := by
  obtain ⟨b, hxs, hreg⟩ := runTw_regSelected reg rest h
  obtain ⟨b1, hxs, hrun⟩ := runTw_phase_ok .repStart (addressCode ++ rest) hxs (r := .start) (by simp) rfl
  have hrestarted : (s.regSelected reg b).phased .start s.par.stRepStart d1 b1 = s.restarted reg b1 := by
    simp [phased_restart, State.restarted]
  rw [hrestarted] at hxs hrun
  exact ⟨b1, hxs, hreg.trans hrun⟩

/-- Both reads begin with the addressing phases. -/
theorem transfer_of_read {i : Instr} {reg n : Byte} (h : i = .twReadCh reg ∨ i = .twReadStr reg n ∧ n ≠ 0) :
    ∃ rest, i.transfer = some (.openW, selectCode reg ++ rest) := by
  rcases h with rfl | ⟨rfl, hn⟩
  · exact ⟨_, rfl⟩
  · exact ⟨_, by rw [Instr.transfer, if_neg hn, readStrCode, List.append_assoc]⟩

/-- Settles O44, by the phase that fails, after those that pass. -/
theorem readFailsWhileAddressing : Obligations.ReadFailsWhileAddressing := by
  intro i reg n s b' x d0 d1 d2 hi he hs failed
  obtain ⟨rest, htr⟩ := transfer_of_read hi
  rw [exec_transfer htr he hs]
  refine ⟨fun h hx => ?_, fun h hx => ?_, fun h hx => ?_⟩
  · have hbad := runTw_lastPhase_bad (.send (.byte reg)) .txDataAck (restartCode ++ rest) (by simp)
      (gives_of_completes h) hx
    rw [phased_regSelect] at hbad
    exact congrArg _ hbad
  · obtain ⟨b, hxs, hrun⟩ := runTw_regSelected reg rest (gives_of_completes h)
    have hbad := runTw_lastPhase_bad .start .repStart (addressCode ++ rest) (by simp) hxs hx
    have hnot : (x == s.par.stRepStart) = false := beq_false_of_ne hx
    rw [phased_restart, hnot, Bool.or_false] at hbad
    exact congrArg _ (hrun.trans hbad)
  · obtain ⟨b, hxs, hrun⟩ := runTw_restarted reg rest (gives_of_completes h)
    have hbad := runTw_lastPhase_bad (.send (.retained .read)) .slarAck (.setState .openR :: rest) (by simp) hxs hx
    rw [phased_readAddress] at hbad
    exact congrArg _ (hrun.trans hbad)

/-! ### The receives (R236 to R238) -/

/-- A run of writes changes hbuf alone. -/
theorem memWriteFrom_eq_withHbuf (i : Byte) (vs : List Byte) (s : State) :
    memWriteFrom i vs s = { s with hbuf := (memWriteFrom i vs s).hbuf } := by
  induction vs generalizing i s with
  | nil => rfl
  | cons v vs ih => rw [memWriteFrom, ih]; rfl

theorem hbuf_memWriteFrom_concat (vs : List Byte) (v : Byte) (s : State) :
    (memWriteFrom 0 (vs ++ [v]) s).hbuf =
      Memory.write (memWriteFrom 0 vs s).hbuf (BitVec.ofNat 8 vs.length).toNat v := by
  simp [memWriteFrom_append, memWriteFrom]

/-- A read in its receives: these bytes are stored, and `tw_idx` is `idx`. -/
def State.withReceived (idx : Byte) (acked : List Byte) (s : State) : State :=
  { s with
    hbuf := (memWriteFrom 0 acked s).hbuf
    tw := { s.tw with state := .openR, idx := idx } }

/-- The state after the addressing phases of a read and the receives of these bytes, each answered ACK. -/
def State.received (reg idx : Byte) (acked : List Byte) (b : TwBus) (s : State) : State :=
  State.afterPhases b (selectEvents s.par reg s.tw.addr ++ acked.map (.rx true · s.par.stRxDataAck))
    (acked.getLastD (addressByte s.par s.tw.addr .read)) (if acked = [] then s.par.stSlarAck else s.par.stRxDataAck)
    true (s.withReceived idx acked)

/-- The next receive, whatever it is answered and reports: its byte is in `tw_data`, and not in hbuf. -/
theorem phased_received (reg idx : Byte) (acked : List Byte) (ack : Bit) (x d : Byte) (b b' : TwBus) (s : State) :
    (s.received reg idx acked b).phased (.recv ack) x d b' =
      State.afterPhases b'
        (selectEvents s.par reg s.tw.addr ++ acked.map (.rx true · s.par.stRxDataAck) ++ [.rx ack d x]) d x true
        (s.withReceived idx acked) := by
  rw [phased_recv, State.received, afterPhases_ownedAfterStops, afterPhases_afterPhases]

/-- The byte of an acknowledged receive is stored behind those before it. -/
theorem memWrite_withReceived (idx : Byte) (acked : List Byte) (a : Byte) (s : State) :
    memWrite (BitVec.ofNat 8 acked.length) a (s.withReceived idx acked) = s.withReceived idx (acked ++ [a]) := by
  rw [State.withReceived, State.withReceived, hbuf_memWriteFrom_concat]
  rfl

theorem received_concat (reg idx : Byte) (acked : List Byte) (a : Byte) (b : TwBus) (s : State) :
    s.received reg idx (acked ++ [a]) b =
      State.afterPhases b
        (selectEvents s.par reg s.tw.addr ++ acked.map (.rx true · s.par.stRxDataAck) ++
          [.rx true a s.par.stRxDataAck])
        a s.par.stRxDataAck true (memWrite (BitVec.ofNat 8 acked.length) a (s.withReceived idx acked)) := by
  rw [State.received, ← memWrite_withReceived, List.getLastD_concat, if_neg (by simp), List.map_append,
    ← List.append_assoc]
  rfl

/-- `tw_idx` after `m` turns of the loop of `tw.read_str` (log 14). -/
def State.idxAfter (s : State) : Nat → Byte
  | 0 => s.tw.idx
  | m + 1 => BitVec.ofNat 8 m

/-- The addressing phases and `m` turns of the loop, all checks passed. -/
theorem runTw_received (reg : Byte) {d0 d1 d2 : Byte} {acked : List Byte} {xs : List (Byte × Byte)} {b' : TwBus}
    {s : State} (rest : List TwOp)
    (h : b'.Gives ([(s.par.stTxDataAck, d0), (s.par.stRepStart, d1), (s.par.stSlarAck, d2)] ++
      acked.map (fun d => (s.par.stRxDataAck, d)) ++ xs) s.tw.bus) :
    ∃ b, b'.Gives xs (s.received reg (s.idxAfter acked.length) acked b).tw.bus ∧
      runTw (selectCode reg ++ (readLoop 0 acked.length ++ rest)) s =
        runTw rest (s.received reg (s.idxAfter acked.length) acked b) := by
  induction acked using list_concat_induction generalizing xs rest with
  | nil =>
    obtain ⟨b, hxs, hrun⟩ := runTw_restarted reg rest h
    obtain ⟨b1, hxs, haddr⟩ := runTw_phase_ok (r := .send (.retained .read)) .slarAck (.setState .openR :: rest) hxs
      (by simp) rfl
    rw [phased_readAddress] at hxs haddr
    exact ⟨b1, hxs, hrun.trans haddr⟩
  | concat acked a ih =>
    rw [List.map_append, ← List.append_assoc, List.append_assoc] at h
    obtain ⟨b, hxs, hrun⟩ := ih (readLoop acked.length 1 ++ rest) h
    obtain ⟨b1, hxs, hturn⟩ := runTw_phase_ok (r := .recv true)
      (s := s.received reg (BitVec.ofNat 8 acked.length) acked b) .rxDataAck
      (.store (BitVec.ofNat 8 acked.length) :: rest) hxs (by simp) rfl
    rw [phased_received] at hxs hturn
    refine ⟨b1, gives_congr hxs rfl rfl, ?_⟩
    rw [List.length_append, List.length_singleton, readLoop_add, Nat.zero_add, List.append_assoc, hrun, received_concat]
    exact hturn

/-- Settles O42: no receive is answered ACK, and the one answered NACK passes. -/
theorem readChSucceeds : Obligations.ReadChSucceeds := by
  intro reg s b' d0 d1 d2 d he hs h
  obtain ⟨b, hxs, hrun⟩ := runTw_received reg (acked := []) (lastByteCode 0) (gives_of_completes h)
  have hlast := runTw_lastPhase_ok (.recv false) .rxDataNack [.store 0, .ret 1] (by simp) hxs rfl
  rw [phased_received] at hlast
  rw [exec_transfer rfl he hs]
  exact congrArg _ (hrun.trans hlast)

/-- Settles O46: no receive is answered ACK, and the one answered NACK fails. -/
theorem readChDiscardsAMismatchedByte : Obligations.ReadChDiscardsAMismatchedByte := by
  intro reg s b' d0 d1 d2 x d he hs hx h
  obtain ⟨b, hxs, hrun⟩ := runTw_received reg (acked := []) (lastByteCode 0) (gives_of_completes h)
  have hbad := runTw_lastPhase_bad (.recv false) .rxDataNack [.store 0, .ret 1] (by simp) hxs hx
  rw [phased_received] at hbad
  rw [exec_transfer rfl he hs]
  exact congrArg _ (hrun.trans hbad)

/-- The pseudocode of `tw.read_str` from the receive after the first `m` on. -/
theorem readStrCode_split (reg : Byte) {m k : Nat} {n : Byte} (h : n.toNat = m + k + 1) :
    readStrCode reg n =
      selectCode reg ++ (readLoop 0 m ++ (readLoop m k ++ lastByteCode (BitVec.ofNat 8 (m + k)))) := by
  rw [readStrCode, h, Nat.add_sub_cancel, readLoop_add, Nat.zero_add]
  simp only [List.append_assoc]

theorem transfer_twReadStr (reg : Byte) {m k : Nat} {n : Byte} (h : n.toNat = m + k + 1) :
    Instr.transfer (.twReadStr reg n) =
      some (.openW, selectCode reg ++ (readLoop 0 m ++ (readLoop m k ++ lastByteCode (BitVec.ofNat 8 (m + k))))) := by
  have hn : n ≠ 0 := by rintro rfl; simp at h
  rw [Instr.transfer, if_neg hn, readStrCode_split reg h]

/-- `idxAfter` as O43 names it. -/
theorem idxAfter_eq (acked : List Byte) {n : Byte} (hn : acked.length + 1 = n.toNat) (s : State) :
    s.idxAfter acked.length = if acked = [] then s.tw.idx else n - 2 := by
  cases acked with
  | nil => rfl
  | cons a as =>
    rw [List.length_cons] at hn
    rw [if_neg (by simp), List.length_cons, State.idxAfter]
    bv_omega

/-- Settles O43: the acknowledged receives, and the one answered NACK. -/
theorem readStrSucceeds : Obligations.ReadStrSucceeds := by
  intro reg n s b' d0 d1 d2 acked last he hs hn h
  obtain ⟨b, hxs, hrun⟩ := runTw_received reg (lastByteCode (BitVec.ofNat 8 acked.length)) (gives_of_completes h)
  have hlast := runTw_lastPhase_ok (.recv false) .rxDataNack [.store (BitVec.ofNat 8 acked.length), .ret 1] (by simp)
    hxs rfl
  rw [phased_received] at hlast
  rw [exec_transfer (transfer_twReadStr reg (k := 0) hn.symm) he hs, ← idxAfter_eq acked hn, memWriteFrom_withTw,
    memWriteFrom_eq_withHbuf, hbuf_memWriteFrom_concat]
  exact congrArg _ (hrun.trans hlast)

/-- The receive after the acknowledged ones fails, `k` turns of the loop being left: with none left it is the last one,
answered NACK (R238). -/
theorem runTw_failedReceive {reg x d : Byte} {acked : List Byte} {k : Nat} {b b' : TwBus} {s : State}
    (h : b'.Gives [(x, d)] (s.received reg (s.idxAfter acked.length) acked b).tw.bus)
    (hx : x ≠ if k = 0 then s.par.stRxDataNack else s.par.stRxDataAck) :
    ∃ idx,
      runTw (readLoop acked.length k ++ lastByteCode (BitVec.ofNat 8 (acked.length + k)))
          (s.received reg (s.idxAfter acked.length) acked b) =
        failTransaction .protocolMismatch
          (State.afterPhases b'
            (selectEvents s.par reg s.tw.addr ++ acked.map (.rx true · s.par.stRxDataAck) ++
              [.rx (decide (k ≠ 0)) d x]) d x true (s.withReceived idx acked)) := by
  cases k with
  | zero =>
    refine ⟨s.idxAfter acked.length, ?_⟩
    have hbad := runTw_lastPhase_bad (.recv false) .rxDataNack [.store (BitVec.ofNat 8 acked.length), .ret 1] (by simp)
      h hx
    rwa [phased_received] at hbad
  | succ k =>
    refine ⟨BitVec.ofNat 8 acked.length, ?_⟩
    have hbad := runTw_lastPhase_bad (.recv true) .rxDataAck
      (s := s.received reg (BitVec.ofNat 8 acked.length) acked b)
      (.store (BitVec.ofNat 8 acked.length) ::
        (readLoop (acked.length + 1) k ++ lastByteCode (BitVec.ofNat 8 (acked.length + (k + 1))))) (by simp) h hx
    rwa [phased_received] at hbad

/-- Settles O45: the acknowledged receives, and the one that fails. -/
theorem readStrKeepsTheBytesBeforeAFailure : Obligations.ReadStrKeepsTheBytesBeforeAFailure := by
  intro reg n s b' d0 d1 d2 acked x d he hs hn hx h
  obtain ⟨k, hk⟩ : ∃ k, n.toNat = acked.length + k + 1 := ⟨n.toNat - acked.length - 1, by omega⟩
  have hlast : acked.length + 1 = n.toNat ↔ k = 0 := by omega
  simp only [hlast, ne_eq] at hx ⊢
  obtain ⟨b, hxs, hrun⟩ := runTw_received reg
    (readLoop acked.length k ++ lastByteCode (BitVec.ofNat 8 (acked.length + k))) (gives_of_completes h)
  obtain ⟨idx, hbad⟩ := runTw_failedReceive hxs hx
  rw [exec_transfer (transfer_twReadStr reg hk) he hs, hrun, hbad]
  exact ⟨_, rfl, rfl, rfl, rfl, rfl, rfl, rfl, rfl⟩

end Sys2Proof.Machine
end

section
/-! ## A hung machine, and the one fault (60_exceptions.md R274, 93_implementation_defined.md U20) -/

namespace Sys2Proof.Machine

/-! ### A hung machine stays hung -/

/-- What a step leaves of a hung machine: the poll of the dead phase is counted. -/
def State.polledDead (s : State) : State :=
  { s with tw := { s.tw with bus := { s.tw.bus with waited := s.tw.bus.waited + 1 } } }

theorem Hung.polledDead {s : State} (h : Hung s) : Hung s.polledDead := { h with }

theorem Hung.hung_eq_true {s : State} (h : Hung s) : hung s = true := by
  simp [hung, h.busy, h.flag, h.dead, h.unbounded]

/-- Holding where the sequencer holds already changes nothing. -/
theorem hold_of_holding {s : State} {code : List TwOp} (hb : s.busy = true) (hq : s.seq = .hold code) :
    hold code s = s := by
  rw [hold, ← hb, ← hq]

theorem Hung.passTime_eq {s : State} (h : Hung s) : passTime s = s.polledDead := by
  obtain ⟨more, hq⟩ := h.waits
  have hpoll : pollFlag s = s.polledDead := pollFlag_dead s h.flag h.pending h.dead
  have hflag : (pollFlag s).tw.flag = false := by rw [hpoll]; exact h.flag
  rw [passTime_hold h.busy hq, runTw_wait_hold more hflag (waitExpired_unbounded h.unbounded _), hpoll]
  exact hold_of_holding h.busy hq

/-- While busy, an ordinary input is a step in which nothing is accepted. -/
theorem step_ordinary {s : State} {x : Input} {rest : List Input} (hb : s.busy = true) (hs : s.host = x :: rest)
    (hx : x.ordinary = true) : step s = .next (passTime { s with host := rest }) := by
  rw [step_cons hs]
  cases x with
  | idle => rfl
  | offer w => exact if_pos hb
  | hostWrite | hostRead | reset | offerThenReset => cases hx

/-- With no input left a hung machine stops (log 8). -/
theorem Hung.step_nil {s : State} (h : Hung s) (hs : s.host = []) : step s = .fault .hung := by
  rw [Machine.step_nil hs, if_pos h.hung_eq_true]

theorem Hung.step_ordinary {s : State} {x : Input} {rest : List Input} (h : Hung s) (hs : s.host = x :: rest)
    (hx : x.ordinary = true) : step s = .next (State.polledDead { s with host := rest }) := by
  have hrest : Hung { s with host := rest } := { h with }
  rw [Machine.step_ordinary h.busy hs hx, hrest.passTime_eq]

/-- Settles O49, by induction on the number of steps: each one counts a poll and does nothing else. -/
theorem hungForEver : Obligations.HungForEver := by
  intro k
  induction k with
  | zero =>
    intro s t h _ hrun
    injection hrun with hrun
    subst hrun
    exact ⟨h, rfl, rfl, rfl, rfl, rfl, rfl, rfl, rfl⟩
  | succ k ih =>
    intro s t h hordinary hrun
    cases hs : s.host with
    | nil =>
      rw [run_fault (h.step_nil hs)] at hrun
      cases hrun
    | cons x rest =>
      obtain ⟨hx, hrest⟩ : x.ordinary = true ∧ rest.all Input.ordinary = true := by simpa [hs] using hordinary
      have hnext : Hung { s with host := rest } := { h with }
      rw [run_next (h.step_ordinary hs hx)] at hrun
      exact ih (State.polledDead { s with host := rest }) t hnext.polledDead hrest hrun

/-! ### Nothing but a hang is a fault -/

theorem twCommand_ne_fault (need : Option TwState) (code : List TwOp) (s : State) (f : Fault) :
    twCommand need code s ≠ .fault f := by
  unfold twCommand
  split <;> simp

/-- A command answers a next state or is refused. -/
theorem exec_ne_fault (i : Instr) (s : State) (f : Fault) : exec i s ≠ .fault f := by
  cases i with
  | twOpen _ | twClose | twWriteByte _ | twWriteStr _ | twReadCh _ => exact twCommand_ne_fault _ _ s f
  | twReadStr r n =>
    simp only [exec, execTwReadStr]
    split
    · simp
    · exact twCommand_ne_fault _ _ s f
  | twDisable =>
    rw [exec_twDisable]
    split <;> simp
  | _ => exact fun h => by injection h

theorem runWord_ne_fault (w : Word24) (s : State) (f : Fault) : runWord w s ≠ .fault f := by
  unfold runWord runDecoded
  split
  · exact exec_ne_fault _ _ f
  · simp

theorem cutOutcome_ne_fault (k : Nat) (s : State) {o : Host.Outcome State Fault Refusal} {f : Fault}
    (h : o ≠ .fault f) : cutOutcome k s o ≠ .fault f := by
  cases o with
  | next t => simp [cutOutcome]
  | fault g => exact h
  | refused r => simp [cutOutcome]

/-- While the outside world has an input, the step answers a next state or refuses a host access or a command. -/
theorem inputStep_ne_fault (x : Input) (s : State) (f : Fault) : inputStep x s ≠ .fault f := by
  cases x with
  | idle | reset => simp [inputStep]
  | hostWrite a v =>
    simp only [inputStep, hostWrite]
    split <;> simp
  | hostRead a =>
    simp only [inputStep, hostRead]
    split <;> simp
  | offer w =>
    simp only [inputStep]
    split
    · simp
    · exact runWord_ne_fault w s f
  | offerThenReset w k =>
    simp only [inputStep]
    split
    · simp
    · exact cutOutcome_ne_fault k _ (runWord_ne_fault w s f)

theorem step_fault {s : State} {f : Fault} (h : step s = .fault f) : s.host = [] ∧ hung s = true := by
  cases hs : s.host with
  | nil =>
    rw [step_nil hs] at h
    split at h
    · exact ⟨rfl, ‹_›⟩
    · cases h
  | cons x rest =>
    rw [step_cons hs] at h
    exact absurd h (inputStep_ne_fault x _ f)

/-- Under the invariant a busy engine holds at a `WaitFlag` of a pending phase. -/
theorem Invariant.busy_waits {s : State} (h : Invariant s) (hb : s.busy = true) :
    (∃ more, s.seq = .hold (.wait :: more)) ∧ s.tw.req.pending = true := by
  cases hq : s.seq with
  | idle => exact absurd hq (h.busyHolds.mp hb)
  | hold code =>
    obtain ⟨⟨-, more, rfl⟩, -, hpending⟩ := h.holdPoint code hq
    exact ⟨⟨more, rfl⟩, hpending⟩

/-- Settles O50: only a step without an input looks at `hung`, and the invariant gives the rest of `Hung`. -/
theorem faultsOnlyWhenHung : Obligations.FaultsOnlyWhenHung := by
  refine ⟨fun s h hs => h.step_nil hs, fun s f h => ?_⟩
  obtain ⟨hs, hhung⟩ := step_fault h
  obtain ⟨⟨⟨hb, hflag⟩, hdead⟩, hunbounded⟩ :
      ((s.busy = true ∧ s.tw.flag = false) ∧ s.tw.bus.dead = true) ∧ s.par.twTimeout = none := by
    simpa [hung] using hhung
  refine ⟨hs, hb, hflag, hdead, hunbounded, fun hinv => ?_⟩
  obtain ⟨hwaits, hpending⟩ := hinv.busy_waits hb
  exact ⟨hb, hflag, hwaits, hpending, hdead, hunbounded⟩

end Sys2Proof.Machine
end

section
/-! ## Recovery, and the reason a command ends with (60_exceptions.md R260, R270) -/

namespace Sys2Proof.Machine

/-- No transfer starts from `Failed` (44_tw_transactions.md R230). -/
theorem transfer_need_ne_failed {i : Instr} {need : TwState} {code : List TwOp}
    (h : i.transfer = some (need, code)) : need ≠ .failed := by
  rintro rfl
  cases i <;> simp [Instr.transfer] at h

/-- Settles O53: `Failed` is the "from" state of `tw.close` alone, and `tw.close` leaves the one of `tw.open`. -/
theorem closeRecovers : Obligations.CloseRecovers := by
  intro s he hs
  obtain ⟨-, hclose⟩ := closeFromAnyState s
  refine ⟨fun i need code htr => ?_, _, hclose he, rfl, rfl, he, fun a => ⟨_, exec_transfer rfl he rfl⟩⟩
  rw [exec_of_transfer htr, twCommand_of_wrongState code he (by rw [hs]; exact (transfer_need_ne_failed htr).symm)]

/-- Where the wait is unbounded, code that returns and has ended has a result, or a check of it failed (R209, R210). -/
theorem runTw_reason (code : List TwOp) (s : State) :
    Returns code → s.par.twTimeout = none → (runTw code s).busy = false →
      (runTw code s).resReason = .none ∨
        (runTw code s).resReason = .protocolMismatch ∧ (runTw code s).resVal = 0 := by
  refine runTw_induction
    (fun code s t => Returns code → s.par.twTimeout = none → t.busy = false →
      t.resReason = .none ∨ t.resReason = .protocolMismatch ∧ t.resVal = 0) ?nil ?ret
    ?setAddr ?setState ?setIdx ?request ?store ?check ?mismatch ?wait ?expired ?hold code s
  case nil => exact fun s h => by simp [Returns] at h
  case ret => exact fun v rest s _ _ _ => .inl rfl
  case mismatch => exact fun c rest s _ _ _ _ => .inr ⟨rfl, rfl⟩
  case expired => exact fun rest s _ hexp _ hu => by simp [waitExpired_unbounded hu] at hexp
  case hold => exact fun rest s _ _ _ _ hbusy => by cases hbusy
  case setAddr | setState | setIdx | store => exact fun _ rest s t ih h => ih (h.of_cons (by simp))
  case request => exact fun r rest s t ih h hu => ih (h.of_cons (by simp)) (by rw [request_par]; exact hu)
  case check => exact fun c rest s t _ ih h => ih (h.of_cons (by simp))
  case wait => exact fun rest s t _ ih h => ih (h.of_cons (by simp))

/-- Settles O54: a single-wire command by `ow_cases`, a transfer by its run, and the other commands have a result. -/
theorem reasonsByCommand : Obligations.ReasonsByCommand := by
  intro i s t hwf hu h hbusy
  cases hi : i.isOw with
  | true =>
    obtain ⟨s1, -, -, -, ⟨v, rfl⟩ | ⟨r, rfl, hr⟩⟩ := ow_cases i s t hi h
    · exact ⟨fun hne => absurd rfl hne, trivial⟩
    · refine ⟨fun _ => rfl, ?_⟩
      rcases hr with ⟨rfl, hi⟩ | ⟨rfl, hi⟩ | ⟨rfl, hi⟩ <;> exact hi
  | false =>
    rcases tw_cases i s t hi h with ⟨rfl, rfl⟩ | ⟨rfl, -, -, rfl⟩ | ⟨rfl, rfl⟩ | ⟨rfl, -, rfl⟩ | ⟨r, rfl, rfl⟩ |
      ⟨need, code, htr, -, -, rfl⟩
    case inr.inr.inr.inr.inl => cases hwf
    case inr.inr.inr.inr.inr =>
      rcases runTw_reason code s (transfer_returns htr) hu hbusy with hreason | ⟨hreason, hval⟩
      · rw [hreason]
        exact ⟨fun hne => absurd rfl hne, trivial⟩
      · rw [hreason, htr]
        exact ⟨fun _ => hval, rfl⟩
    all_goals exact ⟨fun hne => absurd rfl hne, trivial⟩

end Sys2Proof.Machine
end

section
/-! ## Reset (70_reset_and_hazards.md R300, R301, 93_implementation_defined.md U15) -/

namespace Sys2Proof.Machine

theorem engineReset_resetValues (s : State) : ResetValues (engineReset s) :=
  ⟨rfl, rfl, rfl, fun _ => rfl, rfl, rfl, rfl, rfl, rfl, rfl, rfl, rfl, rfl⟩

/-- Settles O10: the step is `engineReset`, which keeps what either bus has seen. -/
theorem resetInputEndsEverything : Obligations.ResetInputEndsEverything := by
  intro s rest hs
  exact ⟨engineReset { s with host := rest }, step_cons hs, rfl, rfl, engineReset_resetValues _, by rw [resValid, hs],
    rfl, rfl, rfl⟩

/-! ### A bus that has seen the first part of a command -/

/-- The events wholly within the cut are the first ones of the command. -/
theorem eventsWithin_isFirstPart (k : Nat) (es : List OwEvent) : eventsWithin k es <+: es := by
  induction es generalizing k with
  | nil => exact ⟨[], rfl⟩
  | cons e es ih =>
    unfold eventsWithin
    split
    · obtain ⟨rest, hrest⟩ := ih (k - e.actions)
      exact ⟨rest, congrArg (e :: ·) hrest⟩
    · exact ⟨e :: es, rfl⟩

/-- A reset adds a release where the last action left the line low, and nothing otherwise. -/
theorem releaseAtReset_eq (acts : List LineMark) :
    ∃ tail, releaseAtReset acts = acts ++ tail ∧
      (tail = [] ∨ ∃ time, acts.getLast? = some ⟨time, .low⟩ ∧ tail = [⟨time, .release⟩]) := by
  unfold releaseAtReset
  split
  case h_1 time hlast => exact ⟨_, rfl, .inr ⟨time, hlast, rfl⟩⟩
  all_goals exact ⟨[], by simp, .inl rfl⟩

theorem cutOwBus_trace (k : Nat) {es : List OwEvent} {old new : OwBus} (h : new.trace = old.trace ++ es) :
    (cutOwBus k old new).trace = old.trace ++ eventsWithin k es := by
  simp [cutOwBus, h]

theorem cutOwBus_marks (k : Nat) {acts : List LineMark} {old new : OwBus} (h : new.marks = old.marks ++ acts) :
    (cutOwBus k old new).marks = old.marks ++ releaseAtReset (acts.take k) := by
  simp [cutOwBus, h]

theorem cutTwBus_trace (k : Nat) {es : List TwEvent} {old new : TwBus} (h : new.trace = old.trace ++ es) :
    (cutTwBus k old new).trace = old.trace ++ es.take k := by
  simp [cutTwBus, h]

/-- A line on which the command does nothing is as before, wherever the reset cuts. -/
theorem cutOwBus_self (k : Nat) (b : OwBus) : cutOwBus k b b = b := by
  simp [cutOwBus, releaseAtReset, eventsWithin]

/-! ### A command that a reset cuts short -/

theorem exec_host {i : Instr} {s t : State} (h : exec i s = .next t) : t.host = s.host := by
  cases hi : i.isOw with
  | true => exact (exec_owFrame hi h).host
  | false =>
    obtain ⟨-, -, -, hhost, -⟩ := twoWireFrame i s t hi h
    exact hhost

/-- An offered command and the reset in one step (log 16): the whole command, cut after `k` actions on its bus. -/
theorem step_offerThenReset {s t : State} {w : Word24} {k : Nat} {rest : List Input} {i : Instr}
    (hb : s.busy = false) (hs : s.host = .offerThenReset w k :: rest) (hd : decode w = .instr i)
    (h : exec i (beforeCommand i (accept w { s with host := rest })) = .next t) :
    step s = .next (cutByReset k (beforeCommand i (accept w { s with host := rest })) t) := by
  have hbegin : beginWord w { s with host := rest } = beforeCommand i (accept w { s with host := rest }) := by
    rw [beginWord, hd]
  rw [step_cons hs, inputStep, if_neg (by simp [hb]), runWord, hbegin, hd, runDecoded, h, cutOutcome]

/-- The single-wire line after the cut: the events whose actions all came, and the first `k` actions (U15). -/
theorem cutOwBus_of_exec {i : Instr} {b t : State} {es : List OwEvent} (k : Nat) (hi : i.isOw = true)
    (h : exec i b = .next t) (htrace : t.ow.bus.trace = b.ow.bus.trace ++ es) :
    (∃ seen, seen <+: es ∧ (cutOwBus k b.ow.bus t.ow.bus).trace = b.ow.bus.trace ++ seen) ∧
      ∃ acts tail, acts = (waveOf b.ow.bus.clock es).take k ∧
        (cutOwBus k b.ow.bus t.ow.bus).marks = b.ow.bus.marks ++ acts ++ tail ∧
        (tail = [] ∨ ∃ time, acts.getLast? = some ⟨time, .low⟩ ∧ tail = [⟨time, .release⟩]) := by
  obtain ⟨es', htrace', hmarks, -⟩ := singleWireWaveform i b t hi h
  obtain rfl : es = es' := List.append_cancel_left (htrace.symm.trans htrace')
  obtain ⟨tail, hrelease, htail⟩ := releaseAtReset_eq ((waveOf b.ow.bus.clock es).take k)
  refine ⟨⟨_, eventsWithin_isFirstPart k es, cutOwBus_trace k htrace⟩, _, tail, rfl, ?_, htail⟩
  rw [cutOwBus_marks k hmarks, hrelease, List.append_assoc]

/-- Settles O11: the bus of the command's own unit is cut, that of the other is as the command found it. -/
theorem resetCutsACommandShort : Obligations.ResetCutsACommandShort := by
  intro s t i w k rest es fs hb hs hd b h how htw
  have hbow : b.ow = s.ow := beforeCommand_ow i _
  refine ⟨cutByReset k b t, step_offerThenReset hb hs hd h, ?host, ?par, engineReset_resetValues _,
    by rw [resValid, hs], fun hi => ⟨?_, ?_⟩, fun hi => ⟨?_, ?_⟩⟩
  case host => exact (exec_host h).trans (beforeCommand_host i _)
  case par => exact (exec_par h).trans (beforeCommand_par i _)
  · have hsame : t.tw.bus.trace = b.tw.bus.trace ++ [] := by rw [(exec_owFrame hi h).tw, List.append_nil]
    exact (cutTwBus_trace k hsame).trans (by simp)
  · rw [← hbow] at how ⊢
    exact cutOwBus_of_exec k hi h how
  · obtain ⟨hsame, -⟩ := twoWireFrame i b t hi h
    change cutOwBus k b.ow.bus t.ow.bus = s.ow.bus
    rw [hsame, hbow, cutOwBus_self]
  · have hbefore : b = accept w { s with host := rest } := beforeCommand_of_tw _ hi
    exact (cutTwBus_trace k htw).trans (by rw [hbefore]; rfl)

end Sys2Proof.Machine
end

section
/-! ## How long single-wire commands take (70_reset_and_hazards.md R323) -/

namespace Sys2Proof.Machine

/-! ### Events -/

@[simp] theorem durationOf_nil : durationOf [] = 0 := rfl

@[simp] theorem durationOf_cons (e : OwEvent) (es : List OwEvent) :
    durationOf (e :: es) = e.duration + durationOf es := rfl

@[simp] theorem duration_reset (p : Bit) : (OwEvent.reset p).duration = 960 := rfl

/-- The two write slots are equally long (30_encoding.md R106, R107). -/
@[simp] theorem duration_wr (v : Bit) : (OwEvent.wr v).duration = 65 := by cases v <;> rfl

@[simp] theorem duration_rd (s : Bit) : (OwEvent.rd s).duration = 59 := rfl

@[simp] theorem durationOf_byteSlots (b : Byte) : durationOf (byteSlots b) = 520 := by
  simp [byteSlots, bitsLsbFirst, List.range_succ]

@[simp] theorem durationOf_map_rd (levels : List Bit) : durationOf (levels.map .rd) = 59 * levels.length := by
  induction levels with
  | nil => rfl
  | cons l ls ih => simp [ih]; omega

/-! ### Operations -/

/-- The time that passes is the length of the events put on the line. -/
theorem PutsOnLine.clock {es : List OwEvent} {u v : OwUnit} (h : PutsOnLine es u v) :
    v.bus.clock = u.bus.clock + durationOf es := by
  rw [h.bus]
  rfl

theorem detectPresence_clock (u : OwUnit) : (detectPresence u).2.bus.clock = u.bus.clock + 960 :=
  (detectPresence_putsOnLine u).clock

theorem writeBit_clock (v : Bit) (u : OwUnit) : (writeBit v u).bus.clock = u.bus.clock + 65 := by
  simp [(writeBit_putsOnLine v u).clock]

theorem readBit_clock (u : OwUnit) : (readBit u).2.bus.clock = u.bus.clock + 59 := (readBit_putsOnLine u).clock

theorem writeByte_clock (b : Byte) (u : OwUnit) : (writeByte b u).bus.clock = u.bus.clock + 520 := by
  simp [(writeByte_putsOnLine b u).clock]

theorem readByte_clock (u : OwUnit) : (readByte u).bus.clock = u.bus.clock + 472 := by
  simp [(readByte_putsOnLine u).clock]

/-- Bytes from hbuf take 520 microseconds each (42_ow_rom_alarm.md R175). -/
theorem writeHbufBytes_clock (is : List Byte) (s : State) :
    (writeHbufBytes is s).ow.bus.clock = s.ow.bus.clock + 520 * is.length := by
  induction is generalizing s with
  | nil => rfl
  | cons i is ih =>
    rw [writeHbufBytes, ih, writeByte_clock, memRead_ow, List.length_cons]
    omega

theorem romTransfer_clock (cmd : Byte) (u : OwUnit) : (romTransfer cmd u).bus.clock = u.bus.clock + 4296 := by
  simp [(romTransfer_putsOnLine cmd u).clock]

theorem readResponses_clock (u : OwUnit) : (readResponses u).bus.clock = u.bus.clock + 118 :=
  (readResponses_putsOnLine u).clock

/-! ### The ends of the commands that test presence -/

theorem romResult_reason_ne_absence (s : State) : (romResult s).resReason ≠ .absence := by
  unfold romResult
  split <;> simp

/-- The rest of `ow.read_rom` takes no time where no device answered (42_ow_rom_alarm.md R174). -/
theorem readRomAfter_clock (present : Bit) (s : State) :
    (readRomAfter present s).ow.bus.clock =
      s.ow.bus.clock + if (readRomAfter present s).resReason = .absence then 0 else 4296 := by
  cases present with
  | false => rfl
  | true =>
    obtain ⟨how, -⟩ := romResult_frame { s with ow := romTransfer s.par.cmdReadRom s.ow }
    rw [readRomAfter, if_pos rfl, if_neg (romResult_reason_ne_absence _), how]
    exact romTransfer_clock ..

theorem alarmResult_reason_ne_absence (s : State) : (alarmResult s).resReason ≠ .absence := by
  unfold alarmResult
  split <;> simp

/-- The bit written back is one more slot, and leaves the two response bits (R177). -/
theorem alarmResult_clock (s : State) :
    (alarmResult s).ow.bus.clock =
      s.ow.bus.clock + if (alarmResult s).ow.b0 && (alarmResult s).ow.b1 then 0 else 65 := by
  unfold alarmResult
  split
  · next hboth => rw [finish_ow, if_pos hboth, Nat.add_zero]
  · next hboth => rw [finish_ow, writeBit_clock, writeBit_eq, if_neg hboth]

/-- The rest of `ow.alarm_search` takes no time where no device answered (R177). -/
theorem alarmAfter_clock (present : Bit) (s : State) :
    (alarmAfter present s).ow.bus.clock =
      s.ow.bus.clock +
        if (alarmAfter present s).resReason = .absence then 0
        else if (alarmAfter present s).ow.b0 && (alarmAfter present s).ow.b1 then 638 else 703 := by
  cases present with
  | false => rfl
  | true =>
    rw [alarmAfter, if_pos rfl, if_neg (alarmResult_reason_ne_absence _), alarmResult_clock, readResponses_clock,
      writeByte_clock]
    split <;> rfl

/-- Settles O28: the reset event, the slots and the bytes of each command, one after another. -/
theorem singleWireDurations : Obligations.SingleWireDurations := by
  intro i s t h
  cases i with
  | owDetectPresence =>
    injection h with h; subst h
    change (presenceResult _ _).ow.bus.clock = _
    rw [presenceResult_ow]
    exact detectPresence_clock s.ow
  | owWriteBit v => injection h with h; subst h; exact writeBit_clock v s.ow
  | owReadBit | owIsBusy => injection h with h; subst h; exact readBit_clock s.ow
  | owWriteByte b => injection h with h; subst h; exact writeByte_clock b s.ow
  | owSkipRom => injection h with h; subst h; exact writeByte_clock _ s.ow
  | owReadByte => injection h with h; subst h; exact readByte_clock s.ow
  | owMatchRom =>
    injection h with h; subst h
    change (writeHbufBytes _ _).ow.bus.clock = _
    rw [writeHbufBytes_clock, writeByte_clock]
    rfl
  | owReadRom =>
    injection h with h
    have hclock := readRomAfter_clock (detectPresence s.ow).1 { s with ow := (detectPresence s.ow).2 }
    rw [h, detectPresence_clock] at hclock
    dsimp only
    split
    · next habsent => rw [hclock, if_pos habsent]
    · next hpresent => rw [hclock, if_neg hpresent]
  | owAlarmSearch =>
    injection h with h
    have hclock := alarmAfter_clock (detectPresence s.ow).1 { s with ow := (detectPresence s.ow).2 }
    rw [h, detectPresence_clock] at hclock
    dsimp only
    split
    · next habsent => rw [hclock, if_pos habsent]
    · next hpresent =>
      rw [if_neg hpresent] at hclock
      split
      · next hboth => rw [hclock, if_pos hboth]
      · next hboth => rw [hclock, if_neg hboth]
  | owSearchRom => injection h with h; subst h; rfl
  | twEnable | twDisable | twIsEnabled | twOpen _ | twClose | twWriteByte _ | twWriteStr _ | twReadCh _
  | twReadStr _ _ => trivial

end Sys2Proof.Machine
end
